-- ==== Sys2Proof/Word.lean ====
section
/-! DEFINITION. The two word types of MBD: a byte of a stream or plane, and a 32-bit register or command word (R7, D5). -/

namespace Sys2Proof

/-- One byte of the byte source, of a plane or of `OUT`. -/
abbrev Byte := BitVec 8

/-- A register, an operand or a command word: 32 bits (R7, R100). -/
abbrev Word := BitVec 32

end Sys2Proof
end

