-- ==== Sys2Proof/Config.lean ====
section
/-! DEFINITION. What an implementation of MBD fixes and the spec leaves open (R8, R49; 92_eei_decisions.md section 2), and the
free values (93_implementation_defined.md section 1). Every constant here is opaque: nothing in Lean can evaluate it, so a
statement about the machine holds for every value of it. Where a rule constrains a parameter, the constraint holds by
construction at the place that uses it (log entries 8 to 11, 19, 20, DESIGN CHOICE). -/

namespace Sys2Proof

/-- A motion vector or motion-vector predictor: two signed 16-bit components (R45, R103). -/
structure Mv where
  dx : BitVec 16
  dy : BitVec 16
  deriving DecidableEq, Repr, Inhabited

/-- One entry of `QT4` or `QT8`: destination row and column and the dequantization shift, 0 to 31 (R44, R211). -/
structure QEntry where
  row : Nat
  col : Nat
  shift : BitVec 5
  deriving DecidableEq, Repr, Inhabited

/-- One row of the table store `T`: in table `table`, the code with this key decodes to this symbol (R41, R190). -/
structure VlcRow where
  table : BitVec 8
  key : BitVec 32
  symbol : Word
  deriving DecidableEq, Repr, Inhabited

/-- What a code read by micro-operations does after the bits it has popped so far: pop one more, give a result, or stop as a
malformed walk of table `t`. A function from the bits popped to these is any reader whose result depends on the bits it pops, a
`pop_vlc` on any table included: the form of the OPEN parameters `CoefSymbol` (R216) and `ModeSelect` (R257; log entry 10, DESIGN
CHOICE). -/
inductive CodeStep (α : Type) where
  | more
  | done (a : α)
  | malformed (t : BitVec 8)
  deriving DecidableEq, Repr, Inhabited

/-- A code with finitely many words, as plain data: read no bit and give a result or stop, or pop one bit and go on. -/
inductive BitTree (α : Type) where
  | leaf (a : α)
  | malformed (t : BitVec 8)
  | node (zero one : BitTree α)
  deriving DecidableEq, Repr, Inhabited

/-- The code a tree lists, as a function of the bits popped so far. -/
def BitTree.step {α : Type} : BitTree α → List Bool → CodeStep α
  | .leaf a, _ => .done a
  | .malformed t, _ => .malformed t
  | .node _ _, [] => .more
  | .node zero one, bit :: bits => if bit then one.step bits else zero.step bits

/-- The three escape paths of the coefficient stream (R217): A, a residue indexed by (run, last) recovers the level; B, a residue
indexed by (level, last) recovers the run; C, the raw 19-bit escape (R219). `base` is what the escape's own bits contribute. -/
inductive EscapePath where
  | residueLevel (last : Bool) (run : Nat) (base : Int)
  | residueRun (last : Bool) (level : Int) (base : Int)
  | raw
  deriving DecidableEq, Repr, Inhabited

/-- What the mode code gives: the mode 0 to 8 (R257 a) and whatever else of the bits popped the cache update may use. -/
structure ModeLeaf where
  mode : Fin 9
  tag : Nat
  deriving DecidableEq, Repr, Inhabited

/-- The role of the first bit of the raw escape, `ESC_F_ROLE` (R219, C2). -/
inductive EscFRole where
  | last
  | sign
  deriving DecidableEq, Repr, Inhabited

/-- The read-only tables of the block: the table store `T` (R41, R190) and what is listed as data of `CoefSymbol` (how the sign of a
plain symbol is coded and how the escape path is chosen, by coefficient table and key of the symbol; the two residue tables, by
coefficient table and index: R216, R217) and of `ModeSelect` (the code of the override, one per context: R257). What is listed
nowhere is the `Config` function of its name (log entry 9, DESIGN CHOICE). No command and no host move changes them (R41, R49). -/
structure Rom where
  vlc : List VlcRow
  signCodes : List ((BitVec 8 × Nat) × BitTree Bool)
  escapeCodes : List ((BitVec 8 × Nat) × BitTree EscapePath)
  levelResidue : List ((BitVec 8 × Nat × Bool) × Int)
  runResidue : List ((BitVec 8 × Int × Bool) × Int)
  modeCodes : List (BitTree ModeLeaf)
  deriving DecidableEq, Repr, Inhabited

/-- The OPEN details of IMA-ADPCM (R305, R307, R308, R309): of `IMA_LAYOUT`, which is headers and then subframes (D35), the order of
the headers for a channel count, and for a channel count and length the arrangement of the bytes inside each subframe; the difference,
the index deltas and the two orders. -/
structure ImaParams where
  headerChoice : Nat → Nat → Nat
  bodyChoice : Nat → Nat → Nat → Nat → Nat
  diff : Nat → Nat → Int
  index : Nat → Int
  bigEndian : Bool
  nibbleLowFirst : Bool
  deriving Inhabited

/-- The OPEN details of DSP-ADPCM (R311, R313, R314): for a payload of given channel count and length its arrangement and the bytes
of each channel's part; the sample that stands for one a channel shorter than channel 0 does not have; the two orders. -/
structure DspParams where
  layoutChoice : Nat → Nat → Nat → Nat
  partSize : Nat → Nat → Nat → Nat
  missing : List Byte → Nat → Nat → Int
  bigEndian : Bool
  nibbleHighFirst : Bool
  deriving Inhabited

/-- What `IntraPredict` is told of a block besides the pixels: the mode, the side of the block, its column and row, and the plane's
width and height (R252 a). -/
structure IntraBlock where
  mode : Nat
  side : Nat
  x : Nat
  y : Nat
  planeW : Nat
  planeH : Nat
  deriving DecidableEq, Repr, Inhabited

/-- The values that what R341 calls unspecified after a fault takes. -/
structure Residue where
  pos : Word
  bitpos : Nat
  win : BitVec 16
  ret0 : Word
  ret1 : Word
  quantQ : BitVec 6
  dctTab : Bool
  qt4 : List QEntry
  qt8 : List QEntry
  mvp : List Mv
  alsave : Mv
  pmc : List (Fin 10)
  deriving DecidableEq, Repr, Inhabited

namespace Config

/-- The contents of the read-only tables (`TAB`, R190; what is listed of `CoefSymbol`, R216, and of `ModeSelect`, R257). -/
opaque rom : Rom

/-- `QTAB`: the choices that make the 4×4 scan order (R211). -/
opaque scanChoice4 : Nat → Nat

/-- `QTAB`: the choices that make the 8×8 scan order (R211). -/
opaque scanChoice8 : Nat → Nat

/-- `QTAB`: the shift of scan position `i` of the 4×4 table for quantizer `q` (R211 c). -/
opaque shift4 : BitVec 6 → Nat → BitVec 5

/-- `QTAB`: the shift of scan position `i` of the 8×8 table for quantizer `q` (R211 c). -/
opaque shift8 : BitVec 6 → Nat → BitVec 5

/-- `CoefSymbol`: the code of a plain symbol's sign, given the coefficient table, its rows, the key of the symbol and the bits popped
after it (R216). -/
opaque signCode : (tab : BitVec 8) → (table : List VlcRow) → (key : Nat) → List Bool → CodeStep Bool

/-- `CoefSymbol`: the code that selects the escape path, from the same (R216, R217). -/
opaque escapeCode : (tab : BitVec 8) → (table : List VlcRow) → (key : Nat) → List Bool → CodeStep EscapePath

/-- `CoefSymbol`: the residue table indexed by (run, last), of each coefficient table (R217). -/
opaque levelResidue : (tab : BitVec 8) → (run : Nat) → (last : Bool) → Int

/-- `CoefSymbol`: the residue table indexed by (level, last), of each coefficient table (R217). -/
opaque runResidue : (tab : BitVec 8) → (level : Int) → (last : Bool) → Int

/-- `ESC_F_ROLE` (R219). -/
opaque escFRole : EscFRole

/-- `IT4`, the 4-point inverse transform on signed 32-bit integers (R221). -/
opaque it4 : List Word → List Word

/-- `IT8`, the 8-point inverse transform on signed 32-bit integers (R221). -/
opaque it8 : List Word → List Word

/-- `RES_SHIFT`, 0 to 31 (R221). -/
opaque resShift : BitVec 5

/-- `IntraPredict` (R252): the block and the pixels it may read (by row and column), giving the predicted pixels (by row and column
inside the block). -/
opaque intraPredict : IntraBlock → (Nat → Nat → Byte) → Nat → Nat → Byte

/-- `ModeSelect`: the number of entries of `PMC` for a frame of this width and height (R46, R257). -/
opaque modeCacheSize : (width height : Nat) → Nat

/-- `ModeSelect`: which of the override codes listed as data a cache and a block select (the prediction; R257). -/
opaque modeContext : List (Fin 10) → (plane x y n : Nat) → Nat

/-- `ModeSelect`: the code of the override where none is listed, given the cache, the block and the bits popped (R257). -/
opaque modeCode : List (Fin 10) → (plane x y n : Nat) → List Bool → CodeStep ModeLeaf

/-- `ModeSelect`: the cache entries of the rows and columns a block covers (R257 b). -/
opaque modeCover : (plane x y n : Nat) → List Nat

/-- `ModeSelect`: what the other cache entries become (R257 b). -/
opaque modeUpdate : List (Fin 10) → (plane x y n : Nat) → ModeLeaf → List (Fin 10)

/-- `MC_ROUND`, 0 or 1 (R273). -/
opaque mcRound : Bool

/-- The `IMA_*` parameters (R305 to R309). -/
opaque ima : ImaParams

/-- The `DSP_*` parameters (R311 to R314). -/
opaque dsp : DspParams

/-- `IFRAME_BIT`, read by the host's sequencer only (R122, R49). -/
opaque iframeBit : Bool

/-- `VARIANT_BIT`, read by the host's sequencer only (R122, R49). -/
opaque variantBit : Bool

/-- FREE VALUE. The byte of the plane store at address `a` that nothing has written since the store last became unspecified; the
first argument counts those times (R33, R43, U3; log entry 4, DEDUCED). -/
opaque planeByte : (era a : Nat) → Byte

/-- FREE VALUE. The byte of the source at address `a` that no host move of the run has placed (R40; log entry 3, DESIGN CHOICE). -/
opaque sourceByte : (a : Nat) → Byte

/-- FREE VALUE. What the spec leaves unspecified after a fault raised past a command's first state change, the `n`-th time
(R341, U8; log entry 5, DEDUCED). -/
opaque residue : (n : Nat) → Residue

/-- FREE VALUE. A word the spec leaves unspecified, the `n`-th drawn: `WIN` after a `CFG` write (U2; log entry 7, DEDUCED). -/
opaque freeWord : (n : Nat) → Word

end Config

end Sys2Proof
end

