-- ==== Sys2Proof/Syntax.lean ====
section
/-! DEFINITION. The commands of MBD as syntax: one constructor per row of the opcode map (R104). The immediates are the fields of
R101 and R102 as they stand; operands that come from `A0` to `A2` are not part of the word. -/

namespace Sys2Proof

/-- The 27 commands (R104). -/
inductive Instr where
  | readU8
  | readBytes (cnt : BitVec 24)
  | resetBits
  | seek
  | popBit
  | popInt (n : BitVec 6)
  | popSint (n : BitVec 6)
  | popLength
  | popUe
  | popSe
  | popVlc (t : BitVec 8)
  | setQuant (q : BitVec 6)
  | addQuant
  | setDcttab (n : BitVec 6)
  | coef (sel : BitVec 4) (plane : BitVec 2)
  | ipred (sel : BitVec 4) (plane : BitVec 2)
  | pmodeReset
  | ipredP (sel : BitVec 4) (plane : BitVec 2)
  | mc (sel : BitVec 4) (plane : BitVec 2)
  | rotate
  | emitFrame
  | mvpReset
  | mvpRefresh
  | mvpSet
  | median3
  | adec (codec : BitVec 4) (chan : BitVec 8)
  | resetUnit
  deriving DecidableEq, Repr

end Sys2Proof
end

