-- ==== Sys2Proof/WellFormed.lean ====
section
/-! DEFINITION. Which commands have every immediate inside the range its row of the opcode map gives (R104, R110). A command
outside it still decodes and is given the fault its rule names (R111); nothing here stops a command. -/

namespace Sys2Proof

/-- The immediates are inside the ranges of R104; for `ADEC` the codec is one that decodes (R303). -/
def Instr.wellFormed : Instr → Bool
  | .readU8 => true
  | .readBytes _ => true
  | .resetBits => true
  | .seek => true
  | .popBit => true
  | .popInt n => decide (n.toNat ≤ 32)
  | .popSint n => decide (1 ≤ n.toNat) && decide (n.toNat ≤ 32)
  | .popLength => true
  | .popUe => true
  | .popSe => true
  | .popVlc _ => true
  | .setQuant _ => true
  | .addQuant => true
  | .setDcttab n => decide (n.toNat ≤ 1)
  | .coef sel plane => decide (sel.toNat ≤ 1) && decide (plane.toNat ≤ 2)
  | .ipred sel plane => decide (sel.toNat ≤ 8) && decide (plane.toNat ≤ 2)
  | .pmodeReset => true
  | .ipredP sel plane => decide (sel.toNat = 0) && decide (plane.toNat ≤ 2)
  | .mc sel plane => decide (1 ≤ sel.toNat) && decide (sel.toNat ≤ 5) && decide (plane.toNat ≤ 2)
  | .rotate => true
  | .emitFrame => true
  | .mvpReset => true
  | .mvpRefresh => true
  | .mvpSet => true
  | .median3 => true
  | .adec codec chan => decide (codec.toNat ≤ 2) && decide (1 ≤ chan.toNat)
  | .resetUnit => true

end Sys2Proof
end

