-- ==== Sys2Proof/Decode.lean ====
section
/-! DEFINITION. Decoding a command word (R100, R101, R104, R110, R111 tests 2 and 3) and the encoder written from the same
table. Test 1 (refusal while faulted) needs the state and is the machine's; test 4 (the range of a format N immediate) is the
first thing the commands concerned do, so that a word selects its row exactly as R111 says. -/

namespace Sys2Proof

/-- Why a word is no command (R111 tests 2 and 3). -/
inductive Reject where
  /-- `op` is not in the opcode map (R110). -/
  | illegalCommand (op : BitVec 8)
  /-- A must-be-zero bit is 1 (R101). -/
  | badOperand
  deriving DecidableEq, Repr

/-- Bits 31:24 of a command word (R100). -/
def opField (w : Word) : BitVec 8 := w.extractLsb' 24 8

/-- Bits 23:0 of a command word (R100). -/
def immField (w : Word) : BitVec 24 := w.extractLsb' 0 24

/-- Field `n`, bits 5:0 of format N (R101). -/
def nField (imm : BitVec 24) : BitVec 6 := imm.extractLsb' 0 6

/-- Field `t`, bits 7:0 of format T (R101). -/
def tField (imm : BitVec 24) : BitVec 8 := imm.extractLsb' 0 8

/-- Field `sel`, bits 3:0 of format K (R101). -/
def selField (imm : BitVec 24) : BitVec 4 := imm.extractLsb' 0 4

/-- Field `plane`, bits 5:4 of format K (R101). -/
def planeField (imm : BitVec 24) : BitVec 2 := imm.extractLsb' 4 2

/-- Field `codec`, bits 3:0 of format A (R101). -/
def codecField (imm : BitVec 24) : BitVec 4 := imm.extractLsb' 0 4

/-- Field `chan`, bits 11:4 of format A (R101). -/
def chanField (imm : BitVec 24) : BitVec 8 := imm.extractLsb' 4 8

/-- One row of the opcode map: the opcode, the must-be-zero bits of the format and how the immediate is read (R101, R104). -/
structure Row where
  op : BitVec 8
  mbz : BitVec 24
  build : BitVec 24 → Instr

/-- Must-be-zero bits of format Z (R101). -/
def mbzZ : BitVec 24 := 0xFFFFFF#24
/-- Must-be-zero bits of formats N and K (R101). -/
def mbzN : BitVec 24 := 0xFFFFC0#24
/-- Must-be-zero bits of format T (R101). -/
def mbzT : BitVec 24 := 0xFFFF00#24
/-- Must-be-zero bits of format C: none (R101). -/
def mbzC : BitVec 24 := 0x000000#24
/-- Must-be-zero bits of format A (R101). -/
def mbzA : BitVec 24 := 0xFFF000#24

/-- The BSU rows of the opcode map (R104). -/
def rowsBsu : List Row :=
  [⟨0x01#8, mbzZ, fun _ => .readU8⟩,
   ⟨0x02#8, mbzC, fun imm => .readBytes imm⟩,
   ⟨0x03#8, mbzZ, fun _ => .resetBits⟩,
   ⟨0x04#8, mbzZ, fun _ => .seek⟩,
   ⟨0x10#8, mbzZ, fun _ => .popBit⟩,
   ⟨0x11#8, mbzN, fun imm => .popInt (nField imm)⟩,
   ⟨0x12#8, mbzN, fun imm => .popSint (nField imm)⟩,
   ⟨0x13#8, mbzZ, fun _ => .popLength⟩,
   ⟨0x14#8, mbzZ, fun _ => .popUe⟩,
   ⟨0x15#8, mbzZ, fun _ => .popSe⟩,
   ⟨0x18#8, mbzT, fun imm => .popVlc (tField imm)⟩]

/-- The TQU and IPU rows of the opcode map (R104). -/
def rowsVideo : List Row :=
  [⟨0x20#8, mbzN, fun imm => .setQuant (nField imm)⟩,
   ⟨0x21#8, mbzZ, fun _ => .addQuant⟩,
   ⟨0x22#8, mbzN, fun imm => .setDcttab (nField imm)⟩,
   ⟨0x23#8, mbzN, fun imm => .coef (selField imm) (planeField imm)⟩,
   ⟨0x30#8, mbzN, fun imm => .ipred (selField imm) (planeField imm)⟩,
   ⟨0x31#8, mbzZ, fun _ => .pmodeReset⟩,
   ⟨0x32#8, mbzN, fun imm => .ipredP (selField imm) (planeField imm)⟩]

/-- The MCU, APU and system rows of the opcode map (R104). -/
def rowsRest : List Row :=
  [⟨0x40#8, mbzN, fun imm => .mc (selField imm) (planeField imm)⟩,
   ⟨0x41#8, mbzZ, fun _ => .rotate⟩,
   ⟨0x42#8, mbzZ, fun _ => .emitFrame⟩,
   ⟨0x43#8, mbzZ, fun _ => .mvpReset⟩,
   ⟨0x44#8, mbzZ, fun _ => .mvpRefresh⟩,
   ⟨0x45#8, mbzZ, fun _ => .mvpSet⟩,
   ⟨0x46#8, mbzZ, fun _ => .median3⟩,
   ⟨0x50#8, mbzA, fun imm => .adec (codecField imm) (chanField imm)⟩,
   ⟨0xF0#8, mbzZ, fun _ => .resetUnit⟩]

/-- The opcode map (R104). -/
def rows : List Row := rowsBsu ++ rowsVideo ++ rowsRest

/-- Decoding of a command word, tests 2 and 3 of R111: total, and rejecting by name. -/
def decode (w : Word) : Except Reject Instr :=
  match rows.find? (fun r => r.op == opField w) with
  | none => .error (.illegalCommand (opField w))
  | some r => if immField w &&& r.mbz = 0#24 then .ok (r.build (immField w)) else .error .badOperand

/-- `op << 24 | imm24` (R130). -/
def commandWord (op : BitVec 8) (imm : BitVec 24) : Word := op ++ imm

/-- Immediate of format N (R101). -/
def immN (n : BitVec 6) : BitVec 24 := 0#18 ++ n

/-- Immediate of format T (R101). -/
def immT (t : BitVec 8) : BitVec 24 := 0#16 ++ t

/-- Immediate of format K (R101). -/
def immK (sel : BitVec 4) (plane : BitVec 2) : BitVec 24 := 0#18 ++ (plane ++ sel)

/-- Immediate of format A (R101). -/
def immA (codec : BitVec 4) (chan : BitVec 8) : BitVec 24 := 0#12 ++ (chan ++ codec)

/-- The word of a command (R101, R104, R130). -/
def encode : Instr → Word
  | .readU8 => commandWord 0x01#8 0#24
  | .readBytes cnt => commandWord 0x02#8 cnt
  | .resetBits => commandWord 0x03#8 0#24
  | .seek => commandWord 0x04#8 0#24
  | .popBit => commandWord 0x10#8 0#24
  | .popInt n => commandWord 0x11#8 (immN n)
  | .popSint n => commandWord 0x12#8 (immN n)
  | .popLength => commandWord 0x13#8 0#24
  | .popUe => commandWord 0x14#8 0#24
  | .popSe => commandWord 0x15#8 0#24
  | .popVlc t => commandWord 0x18#8 (immT t)
  | .setQuant q => commandWord 0x20#8 (immN q)
  | .addQuant => commandWord 0x21#8 0#24
  | .setDcttab n => commandWord 0x22#8 (immN n)
  | .coef sel plane => commandWord 0x23#8 (immK sel plane)
  | .ipred sel plane => commandWord 0x30#8 (immK sel plane)
  | .pmodeReset => commandWord 0x31#8 0#24
  | .ipredP sel plane => commandWord 0x32#8 (immK sel plane)
  | .mc sel plane => commandWord 0x40#8 (immK sel plane)
  | .rotate => commandWord 0x41#8 0#24
  | .emitFrame => commandWord 0x42#8 0#24
  | .mvpReset => commandWord 0x43#8 0#24
  | .mvpRefresh => commandWord 0x44#8 0#24
  | .mvpSet => commandWord 0x45#8 0#24
  | .median3 => commandWord 0x46#8 0#24
  | .adec codec chan => commandWord 0x50#8 (immA codec chan)
  | .resetUnit => commandWord 0xF0#8 0#24

/-- The command the decoder reads from a 32-bit word whose bits are `w`, numbered as the opcode table numbers them; every command
is one 32-bit word (R100), so a longer request is no command. -/
def decodeTableWord (nbits w : Nat) : Option Instr :=
  if 32 < nbits then none
  else match decode (BitVec.ofNat 32 w) with
    | .ok i => some i
    | .error _ => none

end Sys2Proof
end

