-- ==== Sys2Proof/Machine/State.lean ====
section
/-! DEFINITION. The state of MBD as plain data (R20), the host's moves (R385), the fault classes (R331), the two ways a step could
stop, and the state after reset (R50, R370). -/

namespace Sys2Proof.Machine

/-- Memory contents: (address, byte) pairs, addresses strictly rising, no address twice. An unlisted address holds no value of its
own; what reading it gives is `State.sourceByte` and `State.planeByte`. -/
abbrev Memory := List Host.Cell

/-- The width of a host access to the register block (R38, R78). -/
inductive AccessWidth where
  | byte
  | half
  | word
  | double
  deriving DecidableEq, Repr

/-- The host's moves (R385). `write` at offset 0 writes a command word to `CMD`. -/
inductive HostMove where
  /-- Write the register block at a byte offset (R38). -/
  | write (width : AccessWidth) (offset : Nat) (value : Word)
  /-- Read the register block at a byte offset into the host's variable (R38, R131). -/
  | read (width : AccessWidth) (offset : Nat)
  /-- Change one byte of `S` (R40, R385). -/
  | place (addr : BitVec 28) (value : Byte)
  /-- Consume bytes of `OUT` (R42, R385). -/
  | consume (n : Nat)
  /-- Hardware reset (R370). -/
  | hardReset
  deriving DecidableEq, Repr

/-- The fault classes of R331. The first, third and fourth are reserved for the host's demultiplexer; no command raises them. -/
inductive FaultKind where
  | unsupportedFormat
  | unsupportedCodec
  | malformedChunk
  | malformedPacket
  | truncatedStream
  | malformedVlc
  | illegalCommand
  | badOperand
  | quantRange
  | coefOverrun
  | refInvalid
  | planeBounds
  | notImplemented
  | golombRange
  | notInitialised
  | badAudioData
  deriving DecidableEq, Repr

/-- Why the machine would stop outright: never. Every fault of the spec is architectural, a next state with `FAULT` written (R340),
and no access of MBD reaches an address the spec says does not exist without being turned into one (R79, R141; log entry 15, DEDUCED).
No constructor. -/
inductive Fault
  deriving DecidableEq, Repr

/-- Why the model gives an instruction no meaning. -/
inductive Refusal where
  /-- An instruction without a meaning, raised by an arm of `exec` for a command not yet modelled: safe (nothing is claimed of
  it). No arm does so now. -/
  | notModelled (mnemonic : String)
  deriving DecidableEq, Repr

/-- The machine: all the state R20 gives MBD, the read-only tables, the byte source as the host has filled it, and the host's side
of the port. -/
structure State where
  /-- `A0` (R21). -/
  a0 : Word
  /-- `A1` (R21). -/
  a1 : Word
  /-- `A2` (R21). -/
  a2 : Word
  /-- `RET0` (R21). -/
  ret0 : Word
  /-- `RET1` (R21). -/
  ret1 : Word
  /-- `POS` (R28). -/
  pos : Word
  /-- `BITPOS` (R30). -/
  bitpos : BitVec 4
  /-- `WIN` (R31). -/
  win : BitVec 16
  /-- `CFG.W16` (R27). -/
  w16 : Bool
  /-- `CFG.LE` (R27). -/
  le : Bool
  /-- `LEN`, legal values 0 to 2^28 - 1 (R29). -/
  len : BitVec 28
  /-- `FAULT`: code in bits 7:0, info in bits 31:8 (R26). -/
  fault : Word
  /-- `QUANT.Q` (R32). -/
  quantQ : BitVec 6
  /-- `QUANT.DCTTAB` (R32). -/
  dctTab : Bool
  /-- `QT4[0..15]` (R44); empty while it holds no value (log entry 21, DESIGN CHOICE). -/
  qt4 : List QEntry
  /-- `QT8[0..63]` (R44); empty while it holds no value (log entry 21, DESIGN CHOICE). -/
  qt8 : List QEntry
  /-- `FRAME`: width in bits 15:0, height in bits 31:16 (R33). -/
  frame : Word
  /-- `RING.CUR` (R34). -/
  cur : Fin 6
  /-- `RING.VALID` (R34). -/
  valid : BitVec 6
  /-- `INIT.QV` (R36). -/
  qv : Bool
  /-- `INIT.MVPV` (R36). -/
  mvpv : Bool
  /-- `INIT.PMCV` (R36). -/
  pmcv : Bool
  /-- `INIT.FRAMEV` (R36). -/
  framev : Bool
  /-- `P`, the plane bytes written since the store last became unspecified (R43), by `planeAddr`. -/
  planes : Memory
  /-- The model's own: how many times the plane store has become unspecified (log entry 4, DEDUCED). -/
  era : Nat
  /-- `MVP[0..MBW]` (R45); empty while it holds no value (log entry 21, DESIGN CHOICE). -/
  mvp : List Mv
  /-- `ALSAVE` (R45). -/
  alsave : Mv
  /-- `PMC` (R46); empty while it holds no value (log entry 21, DESIGN CHOICE). -/
  pmc : List (Fin 10)
  /-- `OUT`, every byte appended since reset, first byte first (R42; log entry 18, DESIGN CHOICE). -/
  out : List Byte
  /-- `OUTCNT` (R35). -/
  outcnt : Word
  /-- The table store `T` and the other read-only code tables (R41, R49). -/
  rom : Rom
  /-- `S`, the bytes the host has placed (R40). -/
  source : Memory
  /-- The model's own: how many free values have been drawn (log entry 5, DEDUCED). -/
  draws : Nat
  /-- The host's: how many bytes of `OUT` it has consumed (R42). -/
  taken : Nat
  /-- The host's: what its last register read returned (R131). -/
  hostVal : Word
  /-- The host's moves still to come, the next one first (R385). -/
  script : List HostMove
  deriving DecidableEq, Repr

/-- The state after hardware reset (R50, R370), with no host move pending. `A0` to `A2`, `RET0`, `RET1` and `WIN`, which R50 leaves
unspecified, are named zero (log entry 2, DESIGN CHOICE); the tables, which reset does not touch, are the block's own (R50). -/
def State.reset : State where
  a0 := 0#32
  a1 := 0#32
  a2 := 0#32
  ret0 := 0#32
  ret1 := 0#32
  pos := 0#32
  bitpos := 0#4
  win := 0#16
  w16 := false
  le := false
  len := 0#28
  fault := 0#32
  quantQ := 0#6
  dctTab := false
  qt4 := []
  qt8 := []
  frame := 0#32
  cur := 0
  valid := 0#6
  qv := false
  mvpv := false
  pmcv := false
  framev := false
  planes := []
  era := 0
  mvp := []
  alsave := ⟨0#16, 0#16⟩
  pmc := []
  out := []
  outcnt := 0#32
  rom := Config.rom
  source := []
  draws := 0
  taken := 0
  hostVal := 0#32
  script := []

end Sys2Proof.Machine
end

