-- ==== Sys2Proof/Machine/Ops.lean ====
section
/-! DEFINITION. The named operations over memory and registers: reading and writing bytes, the plane store, the output stream,
running a command body, and raising a fault (R340, R341, R342), written once for every command. -/

namespace Sys2Proof.Machine

/-- The canonical form of a memory: addresses strictly rising. -/
def Memory.wf : Memory → Bool
  | [] => true
  | [_] => true
  | c :: d :: m => decide (c.1 < d.1) && Memory.wf (d :: m)

/-- The byte listed at an address, if any. -/
def Memory.read : Memory → Nat → Option Byte
  | [], _ => none
  | (k, v) :: m, a => if k = a then some v else Memory.read m a

/-- Write one byte, keeping the canonical form. -/
def Memory.write : Memory → Nat → Byte → Memory
  | [], a, b => [(a, b)]
  | (k, v) :: m, a, b =>
    if a < k then (a, b) :: (k, v) :: m
    else if a = k then (a, b) :: m
    else (k, v) :: Memory.write m a b

/-- `S[a]` (R40): what the host placed there, else a byte of the host's the model knows nothing of (log entry 3, DESIGN CHOICE). -/
def State.sourceByte (s : State) (a : Nat) : Byte :=
  (Memory.read s.source a).getD (Config.sourceByte a)

/-- The key of `P[slot][plane][y][x]` in the plane memory (log entry 22, DESIGN CHOICE). -/
def planeAddr (slot plane y x : Nat) : Nat := ((slot * 3 + plane) * 65536 + y) * 65536 + x

/-- The plane byte under a key: what was written there, else a free value (R43, U3; log entry 4, DEDUCED). -/
def State.planeByte (s : State) (a : Nat) : Byte :=
  (Memory.read s.planes a).getD (Config.planeByte s.era a)

/-- `P[slot][plane][y][x]` (R43). -/
def State.pixel (s : State) (slot plane y x : Nat) : Byte := s.planeByte (planeAddr slot plane y x)

/-- The positions (row, column) of a `w × h` block in the order the commands write them. -/
def blockCells (w h : Nat) : List (Nat × Nat) :=
  (List.range h).flatMap fun j => (List.range w).map fun i => (j, i)

/-- Write the byte `f j i` at row `y + j`, column `x + i` of a plane, for every cell of a list. -/
def writeCells (m : Memory) (slot plane x y : Nat) (f : Nat → Nat → Byte) (cells : List (Nat × Nat)) : Memory :=
  cells.foldl (fun m c => Memory.write m (planeAddr slot plane (y + c.1) (x + c.2)) (f c.1 c.2)) m

/-- Write a `w × h` block of slot `RING.CUR`, the only slot any command writes (R43). -/
def State.writeBlock (s : State) (plane x y w h : Nat) (f : Nat → Nat → Byte) : State :=
  { s with planes := writeCells s.planes s.cur.val plane x y f (blockCells w h) }

/-- `OUT.append(bytes)`: the bytes at the end of `OUT` and their number into `OUTCNT`, modulo 2^32 (R35, R42). -/
def State.appendOut (s : State) (bs : List Byte) : State :=
  { s with out := s.out ++ bs, outcnt := s.outcnt + BitVec.ofNat 32 bs.length }

/-- `STATUS.FAULTED` (R25). -/
def State.faulted (s : State) : Bool := s.fault != 0#32

/-- The fault codes of R331. -/
def FaultKind.code : FaultKind → BitVec 8
  | .unsupportedFormat => 1#8
  | .unsupportedCodec => 2#8
  | .malformedChunk => 3#8
  | .malformedPacket => 4#8
  | .truncatedStream => 5#8
  | .malformedVlc => 6#8
  | .illegalCommand => 16#8
  | .badOperand => 17#8
  | .quantRange => 18#8
  | .coefOverrun => 19#8
  | .refInvalid => 20#8
  | .planeBounds => 21#8
  | .notImplemented => 22#8
  | .golombRange => 23#8
  | .notInitialised => 24#8
  | .badAudioData => 25#8

/-- `code(F) | (info mod 2^24) << 8` (R340); a negative info is taken modulo 2^24 too (R213; log entry 23, DEDUCED). -/
def faultWord (f : FaultKind) (info : Int) : Word := BitVec.ofInt 24 info ++ f.code

/-- `raise F(info)`, before the command has changed anything: `FAULT` is written and nothing else (R340, R341 a). The register is
sticky (R26): a raise while faulted changes nothing (R345). -/
def State.raise (s : State) (f : FaultKind) (info : Int) : State :=
  if s.faulted then s else { s with fault := faultWord f info }

/-- The bits of `WIN` that a window of this width holds: with an 8-bit window bits 15:8 are 0 (R31). -/
def windowBits (w16 : Bool) (v : BitVec 16) : BitVec 16 := if w16 then v else v &&& 0x00FF#16

/-- `W`, the window width (R27). -/
def windowWidth (w16 : Bool) : Nat := if w16 then 16 else 8

/-- What R341 leaves of the state after a fault raised past a command's first state change: the pieces it names take values
nothing is known of, within the bounds R30 and R31 set; every plane byte becomes unspecified (log entry 5, DEDUCED). -/
def State.scramble (s : State) : State :=
  let r := Config.residue s.draws
  { s with
    pos := r.pos
    bitpos := BitVec.ofNat 4 (r.bitpos % windowWidth s.w16)
    win := windowBits s.w16 r.win
    ret0 := r.ret0
    ret1 := r.ret1
    quantQ := r.quantQ
    dctTab := r.dctTab
    qt4 := r.qt4
    qt8 := r.qt8
    mvp := r.mvp
    alsave := r.alsave
    pmc := r.pmc
    planes := []
    era := s.era + 1
    draws := s.draws + 1 }

/-- `raise F(info)` past the command's first state change (R340, R341). -/
def State.raiseLate (s : State) (f : FaultKind) (info : Int) : State :=
  if s.faulted then s else { s.scramble with fault := faultWord f info }

/-- A command accepted or refused: while faulted the word changes nothing at all (R342, R111 test 1); else the command's body
runs to completion as one step (R100). Every command always ends in a next state (log entries 15, 17, DEDUCED). -/
def perform (s : State) (body : State → State) : Host.Outcome State Fault Refusal :=
  .next (if s.faulted then s else body s)

/-- Everything R50 lists at its reset value; the host's bytes of `S`, the tables and the host's own side are not MBD state and
stay (R50, R345). The counters of free values go on, so that what is unspecified after this reset is not what was unspecified
before it (log entry 16, DEDUCED). -/
def State.toReset (s : State) : State :=
  { State.reset with
    rom := s.rom
    source := s.source
    era := s.era + 1
    draws := s.draws
    hostVal := s.hostVal
    script := s.script }

end Sys2Proof.Machine
end

