-- ==== Sys2Proof/Machine/Operands.lean ====
section
/-! DEFINITION. The operand forms: sign extension, clamps, median and shifts (R11 to R14), the packed operand registers (R103),
the frame geometry (R33, R79) and the checks of a block against its plane (R79). -/

namespace Sys2Proof.Machine

/-- `sext_32` of a register (R11). -/
def sext32 (w : Word) : Int := w.toInt

/-- `v >> k`, the arithmetic right shift: `floor(v / 2^k)` (R12). -/
def shiftRight (v : Int) (k : Nat) : Int := v / (2 ^ k : Nat)

/-- `clamp(v, lo, hi)` (R13). -/
def clamp (v lo hi : Int) : Int := if v < lo then lo else if hi < v then hi else v

/-- `clamp255`, as a byte (R13). -/
def clamp255 (v : Int) : Byte := BitVec.ofInt 8 (clamp v 0 255)

/-- `clamp16` (R13). -/
def clamp16 (v : Int) : Int := clamp v (-32768) 32767

/-- `median3` (R14). -/
def median3 (a b c : Int) : Int := a + b + c - min (min a b) c - max (max a b) c

/-- `u32` of an integer, as a register value (R11). -/
def u32 (v : Int) : Word := BitVec.ofInt 32 v

/-- The low half of a packed operand register, unsigned (R103). -/
def lowHalf (w : Word) : Nat := (w.extractLsb' 0 16).toNat

/-- The high half of a packed operand register, unsigned (R103). -/
def highHalf (w : Word) : Nat := (w.extractLsb' 16 16).toNat

/-- A packed vector register: `dx` low, `dy` high (R103). -/
def mvOf (w : Word) : Mv := ⟨w.extractLsb' 0 16, w.extractLsb' 16 16⟩

/-- `x` of `XY` (R103). -/
def State.blockX (s : State) : Nat := lowHalf s.a0

/-- `y` of `XY` (R103). -/
def State.blockY (s : State) : Nat := highHalf s.a0

/-- `w` of `WH` (R103). -/
def State.blockW (s : State) : Nat := lowHalf s.a1

/-- `h` of `WH` (R103). -/
def State.blockH (s : State) : Nat := highHalf s.a1

/-- `FRAME.WIDTH` (R33). -/
def State.width (s : State) : Nat := lowHalf s.frame

/-- `FRAME.HEIGHT` (R33). -/
def State.height (s : State) : Nat := highHalf s.frame

/-- `MBW` (R33). -/
def State.mbw (s : State) : Nat := s.width / 16

/-- A `FRAME` value is legal when both dimensions are nonzero multiples of 16 (R33). -/
def frameLegal (v : Word) : Bool :=
  decide (lowHalf v ≠ 0) && decide (lowHalf v % 16 = 0) && decide (highHalf v ≠ 0) && decide (highHalf v % 16 = 0)

/-- `PW` of a plane (R79). -/
def State.planeW (s : State) (plane : Nat) : Nat := if plane = 0 then s.width else s.width / 2

/-- `PH` of a plane (R79). -/
def State.planeH (s : State) (plane : Nat) : Nat := if plane = 0 then s.height else s.height / 2

/-- The `w × h` block at column `x`, row `y` lies inside the plane (R79). -/
def State.inside (s : State) (plane x y w h : Nat) : Bool :=
  decide (x + w ≤ s.planeW plane) && decide (y + h ≤ s.planeH plane)

/-- A block side the IPU knows (R250, R251). -/
def intraSide (n : Nat) : Bool := n == 4 || n == 8 || n == 16

/-- A block side the MCU knows (R271). -/
def motionSide (n : Nat) : Bool := n == 2 || n == 4 || n == 8 || n == 16

/-- An arrangement of `rest` made by picking, `k` times, the element at index `choice k` (modulo what is left) and taking it out.
Every arrangement of a list is some choice's, and choosing 0 throughout leaves the order as it stands (log entries 11, 19, DESIGN CHOICE). -/
def pickOrder (choice : Nat → Nat) : Nat → List Nat → List Nat
  | 0, _ => []
  | k + 1, rest =>
    rest.getD (choice k % rest.length) 0 :: pickOrder choice k (rest.eraseIdx (choice k % rest.length))

/-- `RING.VALID[slot]` (R34). -/
def State.slotValid (s : State) (slot : Nat) : Bool := s.valid.getLsbD slot

end Sys2Proof.Machine
end

