-- ==== Sys2Proof/Machine/Flags.lean ====
section
/-! DEFINITION. The derived status bits and the register views the host reads (R25 to R38). MBD has no arithmetic condition codes
(R25, R140): no command computes a flag, so what stands here is the three derived bits and the packing of fields into words. -/

namespace Sys2Proof.Machine

/-- `STATUS.EOS` (R25). -/
def State.eos (s : State) : Bool := decide (s.len.toNat ≤ s.pos.toNat)

/-- `STATUS.ALIGNED` (R25). -/
def State.aligned (s : State) : Bool := s.bitpos == 0#4

/-- One bit as a word. -/
def bitAt (k : Nat) (b : Bool) : Word := if b then BitVec.ofNat 32 (2 ^ k) else 0#32

/-- `STATUS` (R25). -/
def State.statusWord (s : State) : Word := bitAt 0 s.faulted ||| bitAt 1 s.eos ||| bitAt 2 s.aligned

/-- `CFG` as read (R27). -/
def State.cfgWord (s : State) : Word := bitAt 0 s.w16 ||| bitAt 1 s.le

/-- `QUANT` as read (R32). -/
def State.quantWord (s : State) : Word := s.quantQ.setWidth 32 ||| bitAt 8 s.dctTab

/-- `RING` as read: `CUR` in bits 2:0, `VALID` in bits 13:8 (R34). -/
def State.ringWord (s : State) : Word := BitVec.ofNat 32 s.cur.val ||| (s.valid.setWidth 32 <<< 8)

/-- `INIT` as read (R36). -/
def State.initWord (s : State) : Word := bitAt 0 s.qv ||| bitAt 1 s.mvpv ||| bitAt 2 s.pmcv ||| bitAt 3 s.framev

/-- A register as an aligned word read gives it (R38): `CMD` and every offset not in the map read 0 (R37, V6). -/
def State.regWord (s : State) (offset : Nat) : Word :=
  match offset with
  | 0x04 => s.statusWord
  | 0x08 => s.fault
  | 0x0C => s.cfgWord
  | 0x10 => s.pos
  | 0x14 => s.len.setWidth 32
  | 0x18 => s.bitpos.setWidth 32
  | 0x1C => s.win.setWidth 32
  | 0x20 => s.a0
  | 0x24 => s.a1
  | 0x28 => s.a2
  | 0x30 => s.ret0
  | 0x34 => s.ret1
  | 0x40 => s.quantWord
  | 0x44 => s.frame
  | 0x48 => s.ringWord
  | 0x4C => s.outcnt
  | 0x50 => s.initWord
  | _ => 0#32

/-- A host read: an aligned word access gives the register, any other access reads 0 (R78). No side effect (R82). -/
def State.regRead (s : State) (width : AccessWidth) (offset : Nat) : Word :=
  match width with
  | .word => s.regWord offset
  | _ => 0#32

end Sys2Proof.Machine
end

