-- ==== Sys2Proof/Machine/Micro.lean ====
section
/-! DEFINITION. The BSU micro-operations (R160): each once, as a function from the BSU state (`POS`, `BITPOS`, `WIN`), with `S`, `LEN`
and `CFG` as parameters, to a fault or a value and a new BSU state; and how a command runs one. -/

namespace Sys2Proof.Machine

/-- The BSU state (R160). -/
structure Bsu where
  pos : Word
  bitpos : BitVec 4
  win : BitVec 16
  deriving DecidableEq, Repr

/-- The parameters of a micro-operation: the byte source, its length and the window mode (R160). -/
structure Src where
  byte : Nat → Byte
  len : Nat
  w16 : Bool
  le : Bool

/-- What a micro-operation ends in: a value, or a fault with its info; the BSU state it leaves either way. -/
inductive MicroResult (α : Type) where
  | ok (a : α) (b : Bsu)
  | fault (f : FaultKind) (info : Int) (b : Bsu)
  deriving DecidableEq, Repr

/-- A micro-operation (R160). -/
abbrev Micro (α : Type) := Bsu → MicroResult α

/-- Give a value and change nothing. -/
def microPure {α : Type} (a : α) : Micro α := fun b => .ok a b

/-- Raise a fault: the whole command is abandoned (R160). -/
def microFault {α : Type} (f : FaultKind) (info : Int) : Micro α := fun b => .fault f info b

/-- One micro-operation and then another. -/
def microBind {α β : Type} (m : Micro α) (k : α → Micro β) : Micro β := fun b =>
  match m b with
  | .ok a b' => k a b'
  | .fault f info b' => .fault f info b'

/-- `fetch(n)` (R141): all or nothing; `fetch(0)` never faults, also past the end (log entry 13, DEDUCED). -/
def fetch (src : Src) (n : Nat) : Micro (List Byte) := fun b =>
  if n ≠ 0 ∧ src.len < b.pos.toNat + n then .fault .truncatedStream (b.pos.toNat % 2 ^ 24 : Nat) b
  else .ok ((List.range n).map fun i => src.byte (b.pos.toNat + i)) { b with pos := b.pos + BitVec.ofNat 32 n }

/-- The window made of the bytes a refill fetched (R161, R73). -/
def windowOf (src : Src) (bs : List Byte) : BitVec 16 :=
  if src.w16 then
    if src.le then bs.getD 1 0#8 ++ bs.getD 0 0#8 else bs.getD 0 0#8 ++ bs.getD 1 0#8
  else (bs.getD 0 0#8).setWidth 16

/-- `refill()` (R161). -/
def refill (src : Src) : Micro Unit :=
  microBind (fetch src (windowWidth src.w16 / 8)) fun bs b => .ok () { b with win := windowOf src bs }

/-- Take the bit of the current window that is next (R71, R162). -/
def takeBit (src : Src) : Micro Bool := fun b =>
  .ok (b.win.getLsbD (windowWidth src.w16 - 1 - b.bitpos.toNat))
    { b with bitpos := BitVec.ofNat 4 ((b.bitpos.toNat + 1) % windowWidth src.w16) }

/-- `pop_bit()` (R162). -/
def popBit (src : Src) : Micro Bool := fun b =>
  if b.bitpos = 0#4 then microBind (refill src) (fun _ => takeBit src) b else takeBit src b

/-- The loop of `pop_int`: `n` more bits onto the value so far (R164). -/
def popIntFrom (src : Src) : Nat → Nat → Micro Nat
  | 0, v => microPure v
  | n + 1, v => microBind (popBit src) fun bit => popIntFrom src n (2 * v + bit.toNat)

/-- `pop_int(n)`, most significant bit first (R164). -/
def popInt (src : Src) (n : Nat) : Micro Nat := popIntFrom src n 0

/-- `pop_signed_int(n)`, two's complement (R166, R167). -/
def popSint (src : Src) (n : Nat) : Micro Int :=
  microBind (popBit src) fun sign =>
    microBind (popInt src (n - 1)) fun m => microPure ((m : Int) - (sign.toNat : Int) * (2 ^ (n - 1) : Nat))

/-- How many bits can still be popped: those left in the window and those of the whole windows left in the source (R161). -/
def bitsLeft (src : Src) (b : Bsu) : Nat :=
  (if b.bitpos = 0#4 then 0 else windowWidth src.w16 - b.bitpos.toNat)
    + windowWidth src.w16 * ((src.len - b.pos.toNat) / (windowWidth src.w16 / 8))

/-- The loop of `pop_length`: `z` zero bits seen, at most `fuel` more pops after this one (R169). -/
def popLengthFrom (src : Src) : Nat → Nat → Micro Nat
  | 0, z => microBind (popBit src) fun _ => microPure (z + 1)
  | fuel + 1, z => microBind (popBit src) fun bit =>
      if bit then microPure (z + 1) else popLengthFrom src fuel (z + 1)

/-- `pop_length()` (R169): the loop ends at the latest at the end of the source, so the bits left bound it. -/
def popLength (src : Src) : Micro Nat := fun b => popLengthFrom src (bitsLeft src b) 0 b

/-- `pop_exp_golomb()` (R171). The info of `GolombRange` is the length, of which the fault register keeps the low 24 bits (R331, R340).
R171's pseudocode has `min(len, 2^24-1)`, which differs for a prefix of 2^24 or more: there the fault table wins, "being the one place
`info` values are listed" (90_conflicts.md C13; log entry 31, DEDUCED). -/
def popUe (src : Src) : Micro Nat :=
  microBind (popLength src) fun len =>
    if 32 < len then microFault .golombRange len
    else microBind (popInt src (len - 1)) fun suffix => microPure (suffix + 2 ^ (len - 1) - 1)

/-- The zig-zag unmap (R117, R174). -/
def zigzag (k : Nat) : Int := if k % 2 = 0 then -((k / 2 : Nat) : Int) else ((k + 1) / 2 : Nat)

/-- `pop_signed_exp_golomb()` (R174). -/
def popSe (src : Src) : Micro Int := microBind (popUe src) fun k => microPure (zigzag k)

/-- A symbol of table `t`: those of the coefficient tables 0 and 1 have bits 31:19 zero (R193). -/
def tableSymbol (t : BitVec 8) (symbol : Word) : Word := if t.toNat < 2 then symbol &&& 0x0007FFFF#32 else symbol

/-- `TAB[t]` at a key: the first row of the table with it; keys below 2 are no keys (R190). -/
def tableLookup (vlc : List VlcRow) (t : BitVec 8) (key : Nat) : Option Word :=
  if key < 2 then none
  else (vlc.find? fun r => r.table == t && r.key.toNat == key).map fun r => tableSymbol t r.symbol

/-- `DEPTH[t]`: the longest code of the table, 0 when it is empty (R191). -/
def tableDepth (vlc : List VlcRow) (t : BitVec 8) : Nat :=
  vlc.foldl (fun d r => if r.table == t && decide (2 ≤ r.key.toNat) then max d (Nat.log2 r.key.toNat) else d) 0

/-- The walk of `pop_vlc`: `depth` more bits may be popped onto this key (R194). Gives the key met and its symbol. -/
def popVlcFrom (src : Src) (vlc : List VlcRow) (t : BitVec 8) : Nat → Nat → Micro (Nat × Word)
  | 0, _ => microFault .malformedVlc t.toNat
  | depth + 1, key => microBind (popBit src) fun bit =>
      match tableLookup vlc t (2 * key + bit.toNat) with
      | some sym => microPure (2 * key + bit.toNat, sym)
      | none => popVlcFrom src vlc t depth (2 * key + bit.toNat)

/-- `pop_vlc(t)` with the key it met: the key starts at 1 and at most `DEPTH[t]` bits are popped (R194). -/
def popVlcKey (src : Src) (vlc : List VlcRow) (t : BitVec 8) : Micro (Nat × Word) :=
  popVlcFrom src vlc t (tableDepth vlc t) 1

/-- `pop_vlc(t)` (R194). -/
def popVlc (src : Src) (vlc : List VlcRow) (t : BitVec 8) : Micro Word :=
  microBind (popVlcKey src vlc t) fun entry => microPure entry.2

/-- The loop of `popCode`: these bits popped so far, at most `fuel` more after the next, whose pop then runs out of bits. -/
def popCodeFrom {α : Type} (src : Src) (code : List Bool → CodeStep α) : Nat → List Bool → Micro α
  | 0, bits =>
    match code bits with
    | .done a => microPure a
    | .malformed t => microFault .malformedVlc t.toNat
    | .more => microBind (popBit src) fun _ => microFault .malformedVlc 0
  | fuel + 1, bits =>
    match code bits with
    | .done a => microPure a
    | .malformed t => microFault .malformedVlc t.toNat
    | .more => microBind (popBit src) fun bit => popCodeFrom src code fuel (bits ++ [bit])

/-- Read a code bit by bit (R216, R257). A code that never ends runs out of bits at the latest at the end of the source, so the bits
left bound it. -/
def popCode {α : Type} (src : Src) (code : List Bool → CodeStep α) : Micro α :=
  fun b => popCodeFrom src code (bitsLeft src b) [] b

/-- The BSU part of the state. -/
def State.bsu (s : State) : Bsu := ⟨s.pos, s.bitpos, s.win⟩

/-- Put a BSU state back. -/
def State.setBsu (s : State) (b : Bsu) : State := { s with pos := b.pos, bitpos := b.bitpos, win := b.win }

/-- The parameters a command's micro-operations run with. -/
def State.src (s : State) : Src := ⟨s.sourceByte, s.len.toNat, s.w16, s.le⟩

/-- A command runs a micro-operation and goes on with its value. A fault abandons the command (R160): raised before any bit or byte
was taken it leaves everything but `FAULT` (R341 a), later it leaves nothing to rely on (R341; log entry 6, DEDUCED). -/
def runMicro {α : Type} (s : State) (m : Micro α) (k : α → State → State) : State :=
  match m s.bsu with
  | .ok a b => k a (s.setBsu b)
  | .fault f info b => if b = s.bsu then s.raise f info else s.raiseLate f info

end Sys2Proof.Machine
end

