-- ==== Sys2Proof/Machine/Apu.lean ====
section
/-! DEFINITION. The audio decoders (46_apu_adpcm.md): raw PCM16, IMA-ADPCM and DSP/GC-ADPCM as functions of the payload, their OPEN
details as arguments, and the command `ADEC`. -/

namespace Sys2Proof.Machine

/-- A sample as two bytes, low byte first (R302, R75). -/
def sampleBytes (v : Int) : List Byte :=
  [(BitVec.ofInt 16 v).extractLsb' 0 8, (BitVec.ofInt 16 v).extractLsb' 8 8]

/-- The output format: sample by sample, inside a sample channel by channel (R302). Every channel has `count` samples. -/
def interleave (x : List (List Int)) (count : Nat) : List Byte :=
  (List.range count).flatMap fun i => x.flatMap fun ch => sampleBytes (ch.getD i 0)

/-- Two bytes as a signed 16-bit value of either byte order (R309, R313). -/
def int16Of (bigEndian : Bool) (first second : Byte) : Int :=
  if bigEndian then (first ++ second).toInt else (second ++ first).toInt

/-- The two nibbles of a byte in the order they are decoded (R309, R314). -/
def nibblesOf (lowFirst : Bool) (b : Byte) : List Nat :=
  if lowFirst then [b.toNat % 16, b.toNat / 16] else [b.toNat / 16, b.toNat % 16]

/-- What a codec ends in: the bytes for `OUT` and the samples per channel, or a fault (R301). -/
abbrev AudioResult := Except FaultKind (List Byte × Nat)

/-- Raw PCM16: the identity; the count is rounded down (R304). -/
def decodePcm (payload : List Byte) (chans : Nat) : AudioResult := .ok (payload, payload.length / (2 * chans))

/-- `STEP[i] = floor(7.464 × 1.1^i + 0.08)`, in exact arithmetic (R306). -/
def stepSize (i : Nat) : Nat := (7464 * 11 ^ i + 80 * 10 ^ i) / (1000 * 10 ^ i)

/-- The predictor and step index of an IMA channel (R305). -/
structure ImaChan where
  pred : Int
  idx : Int
  deriving DecidableEq, Repr

/-- One IMA nibble: predictor and index updated, both clamped (R305, R307, R308). -/
def imaStep (k : ImaParams) (c : ImaChan) (nib : Nat) : ImaChan :=
  ⟨clamp16 (c.pred + k.diff nib (stepSize c.idx.toNat)), clamp (c.idx + k.index (nib % 8)) 0 88⟩

/-- A channel's nibbles in order: the samples, and the channel after them (R305). -/
def imaRun (k : ImaParams) : ImaChan → List Nat → List Int × ImaChan
  | c, [] => ([], c)
  | c, nib :: nibs =>
    ((imaStep k c nib).pred :: (imaRun k (imaStep k c nib) nibs).1, (imaRun k (imaStep k c nib) nibs).2)

/-- Bytes in an order picked by a choice (R305, R311; log entry 11, DESIGN CHOICE). -/
def arranged (choice : Nat → Nat) (payload : List Byte) : List Byte :=
  (pickOrder choice payload.length (List.range payload.length)).map fun i => payload.getD i 0#8

/-- Header number `c` of a payload (R305): bytes past the end are a truncated stream, an index outside 0..88 is bad audio data. -/
def imaHeader (k : ImaParams) (payload : List Byte) (c : Nat) : Except FaultKind ImaChan :=
  match payload[4 * c]?, payload[4 * c + 1]?, payload[4 * c + 2]?, payload[4 * c + 3]? with
  | some b0, some b1, some b2, some b3 =>
    let idx := int16Of k.bigEndian b2 b3
    if idx < 0 ∨ 88 < idx then .error .badAudioData else .ok ⟨int16Of k.bigEndian b0 b1, idx⟩
  | _, _, _, _ => .error .truncatedStream

/-- The headers with these numbers, one after the other (R305). -/
def imaHeaders (k : ImaParams) (payload : List Byte) : List Nat → Except FaultKind (List ImaChan)
  | [] => .ok []
  | c :: cs =>
    match imaHeader k payload c with
    | .error f => .error f
    | .ok h =>
      match imaHeaders k payload cs with
      | .error f => .error f
      | .ok hs => .ok (h :: hs)

/-- The nibbles of channel `c` in the subframe at `off` (R305). -/
def imaSubNibbles (k : ImaParams) (payload : List Byte) (off c : Nat) : List Nat :=
  (List.range 128).flatMap fun b => nibblesOf k.nibbleLowFirst (payload.getD (off + 128 * c + b) 0#8)

/-- One subframe, channel by channel from channel `c` on: each channel's samples and what it becomes (R305). -/
def imaSubframe (k : ImaParams) (payload : List Byte) (off : Nat) : Nat → List ImaChan → List (List Int × ImaChan)
  | _, [] => []
  | c, h :: hs => imaRun k h (imaSubNibbles k payload off c) :: imaSubframe k payload off (c + 1) hs

/-- The subframes from `off` on (R305): at most `fuel` of them, each at least 128 bytes, so the payload's length is fuel enough. Gives
each channel's samples. -/
def imaLoop (k : ImaParams) (payload : List Byte) (chans : Nat) : Nat → Nat → List ImaChan → Except FaultKind (List (List Int))
  | 0, _, hs => .ok (hs.map fun _ => [])
  | fuel + 1, off, hs =>
    if payload.length ≤ off then .ok (hs.map fun _ => [])
    else if payload.length < off + 128 * chans then .error .truncatedStream
    else
      let sub := imaSubframe k payload off 0 hs
      match imaLoop k payload chans fuel (off + 128 * chans) (sub.map (·.2)) with
      | .error f => .error f
      | .ok rest => .ok (List.zipWith (fun now later => now ++ later) (sub.map (·.1)) rest)

/-- Blocks of `size` bytes, each in an order picked by the choice of its number; `n` of them from number `f` on, the rest as it is. -/
def arrangedBlocks (choice : Nat → Nat → Nat) (size : Nat) : Nat → Nat → List Byte → List Byte
  | 0, _, bs => bs
  | n + 1, f, bs => arranged (choice f) (bs.take size) ++ arrangedBlocks choice size n (f + 1) (bs.drop size)

/-- Which of the headers, which come first in the payload, is each channel's (`IMA_LAYOUT`, R305; log entry 11, DESIGN CHOICE). -/
def imaHeaderOrder (k : ImaParams) (chans : Nat) : List Nat := pickOrder (k.headerChoice chans) chans (List.range chans)

/-- The payload with the bytes of each whole subframe in the order of the default layout (`IMA_LAYOUT`, R305; log entry 11, DESIGN
CHOICE); one channel's as it stands. -/
def imaArranged (k : ImaParams) (payload : List Byte) (chans : Nat) : List Byte :=
  if chans = 1 then payload
  else payload.take (4 * chans) ++ arrangedBlocks (k.bodyChoice chans payload.length) (128 * chans)
    ((payload.length - 4 * chans) / (128 * chans)) 0 (payload.drop (4 * chans))

/-- IMA-ADPCM on a payload so arranged (R305): the headers, channel 0's first, then the subframes. Gives each channel's samples. -/
def imaChannels (k : ImaParams) (payload : List Byte) (chans : Nat) : Except FaultKind (List (List Int)) :=
  match imaHeaders k payload (imaHeaderOrder k chans) with
  | .error f => .error f
  | .ok hs => imaLoop k payload chans payload.length (4 * chans) hs

/-- The output of decoded channels: as many samples of each as channel 0 has (R302, R305, R312). -/
def decoded : Except FaultKind (List (List Int)) → AudioResult
  | .error f => .error f
  | .ok x => .ok (interleave x (x.getD 0 []).length, (x.getD 0 []).length)

/-- IMA-ADPCM (R305). -/
def decodeIma (k : ImaParams) (payload : List Byte) (chans : Nat) : AudioResult :=
  decoded (imaChannels k (imaArranged k payload chans) chans)

/-- The running state of a DSP channel (R312). -/
structure DspChan where
  scale : Nat
  c1 : Int
  c2 : Int
  h1 : Int
  h2 : Int
  deriving DecidableEq, Repr

/-- A nibble as a signed 4-bit number: `(nib ^ 8) - 8` (R312). -/
def signedNibble (nib : Nat) : Int := ((nib ^^^ 8 : Nat) : Int) - 8

/-- One DSP sample (R312). -/
def dspSample (c : DspChan) (nib : Nat) : Int :=
  clamp16 (shiftRight (1024 + c.c1 * c.h1 + c.c2 * c.h2) 11 + signedNibble nib * c.scale)

/-- The channel after a sample: the history moves on (R312). -/
def DspChan.push (c : DspChan) (v : Int) : DspChan := { c with h2 := c.h1, h1 := v }

/-- A channel's nibbles in order (R312). -/
def dspNibbles : DspChan → List Nat → List Int × DspChan
  | c, [] => ([], c)
  | c, nib :: nibs =>
    (dspSample c nib :: (dspNibbles (c.push (dspSample c nib)) nibs).1, (dspNibbles (c.push (dspSample c nib)) nibs).2)

/-- The body bytes in order, from body byte `i` on (R312): every eighth selects scale and coefficient pair, a pair index of 8 or more
is bad audio data (R315), the others give two samples each. -/
def dspBody (k : DspParams) (coef : Nat → Int) : DspChan → Nat → List Byte → Except FaultKind (List Int)
  | _, _, [] => .ok []
  | c, i, b :: bs =>
    if i % 8 = 0 then
      if 8 ≤ b.toNat / 16 then .error .badAudioData
      else
        dspBody k coef
          { c with scale := 2 ^ (b.toNat % 16), c1 := coef (2 * (b.toNat / 16)), c2 := coef (2 * (b.toNat / 16) + 1) }
          (i + 1) bs
    else
      let now := dspNibbles c (nibblesOf (!k.nibbleHighFirst) b)
      match dspBody k coef now.2 (i + 1) bs with
      | .error f => .error f
      | .ok ys => .ok (now.1 ++ ys)

/-- Header value `i` of a DSP channel part (R311, R313). -/
def dspHeader (k : DspParams) (part : List Byte) (i : Nat) : Int :=
  int16Of k.bigEndian (part.getD (2 * i) 0#8) (part.getD (2 * i + 1) 0#8)

/-- One DSP channel (R312): header, body, the first 32 samples dropped. -/
def dspChannel (k : DspParams) (part : List Byte) : Except FaultKind (List Int) :=
  if part.length < 38 then .error .truncatedStream
  else
    match dspBody k (dspHeader k part) ⟨1, 0, 0, dspHeader k part 17, dspHeader k part 18⟩ 0 (part.drop 38) with
    | .error f => .error f
    | .ok y => .ok (y.drop 32)

/-- Bytes cut into parts: each channel but the last takes its size, or what is left when that is less; the last takes the rest. -/
def splitParts (size : Nat → Nat) : Nat → Nat → List Byte → List (List Byte)
  | 0, _, _ => []
  | 1, _, bs => [bs]
  | n + 2, c, bs => bs.take (size c) :: splitParts size (n + 1) (c + 1) (bs.drop (size c))

/-- The channels' parts of a payload, channel 0 first (R311): of one channel the payload itself, of more a split of the payload's
bytes among them (log entry 11, DESIGN CHOICE). -/
def dspParts (k : DspParams) (payload : List Byte) (chans : Nat) : List (List Byte) :=
  if chans = 1 then [payload]
  else splitParts (k.partSize chans payload.length) chans 0 (arranged (k.layoutChoice chans payload.length) payload)

/-- The channels of these parts (R312). Where two parts would fault, channel 0's fault comes first, of which R312 says nothing (log entry
33, DESIGN CHOICE). -/
def dspChannels (k : DspParams) : List (List Byte) → Except FaultKind (List (List Int))
  | [] => .ok []
  | part :: parts =>
    match dspChannel k part with
    | .error f => .error f
    | .ok x =>
      match dspChannels k parts with
      | .error f => .error f
      | .ok xs => .ok (x :: xs)

/-- Every channel with as many samples as channel 0: one shorter than it goes on with values the spec does not state (R312; log
entry 32, DESIGN CHOICE). -/
def levelled (missing : Nat → Nat → Int) (x : List (List Int)) : List (List Int) :=
  x.mapIdx fun c ch => ch ++ (List.range' ch.length ((x.getD 0 []).length - ch.length)).map (missing c)

/-- DSP/GC-ADPCM (R311, R312): a payload not divisible among the channels is bad audio data. -/
def decodeDsp (k : DspParams) (payload : List Byte) (chans : Nat) : AudioResult :=
  if payload.length % chans ≠ 0 then .error .badAudioData
  else decoded ((dspChannels k (dspParts k payload chans)).map (levelled (k.missing payload)))

/-- `decode_codec` for the three implemented codecs (R303). -/
def decodeCodec (ki : ImaParams) (kd : DspParams) (codec : BitVec 4) (payload : List Byte) (chans : Nat) : AudioResult :=
  if codec = 0#4 then decodePcm payload chans
  else if codec = 1#4 then decodeIma ki payload chans
  else decodeDsp kd payload chans

/-- The payload of `ADEC`, the bytes from `POS` to `LEN - 1` (R300); with `POS` past `LEN` there are none (log entry 12, DEDUCED). -/
def State.payload (s : State) : List Byte := (List.range (s.len.toNat - s.pos.toNat)).map fun i => s.sourceByte (s.pos.toNat + i)

/-- The payload taken: `POS` is `LEN` (R301). -/
def State.afterPayload (s : State) : State := { s with pos := s.len.setWidth 32 }

/-- The `info` of a fault of the audio decoders: `POS` for a truncated stream, 0 for bad audio data (R301, R331;
log entry 14, DEDUCED). -/
def audioInfo (f : FaultKind) (s : State) : Int := if f = .truncatedStream then ((s.pos.toNat % 2 ^ 24 : Nat) : Int) else 0

/-- The effect of a decoded payload: the bytes appended and the count written; or the fault, with nothing appended (R301;
log entry 26, DEDUCED). -/
def finishAudio (r : AudioResult) (s : State) : State :=
  match r with
  | .ok (pcm, count) => { s.appendOut pcm with ret0 := BitVec.ofNat 32 count }
  | .error f => s.raiseLate f (audioInfo f s)

/-- `ADEC` with these parameters (R301). -/
def adecBody (ki : ImaParams) (kd : DspParams) (codec : BitVec 4) (chan : BitVec 8) (s : State) : State :=
  if ¬ (codec = 0#4 ∨ codec = 1#4 ∨ codec = 2#4 ∨ codec = 4#4) then s.raise .unsupportedCodec codec.toNat
  else if codec = 4#4 then s.raise .notImplemented 4
  else if chan = 0#8 then s.raise .badOperand 0
  else finishAudio (decodeCodec ki kd codec s.payload chan.toNat) s.afterPayload

/-- `ADEC` (R301). -/
def execAdec (codec : BitVec 4) (chan : BitVec 8) (s : State) : Host.Outcome State Fault Refusal :=
  perform s fun s => adecBody Config.ima Config.dsp codec chan s

end Sys2Proof.Machine
end

