-- ==== Sys2Proof/Machine/BsuBits.lean ====
section
/-! DEFINITION. The bit-level, exp-Golomb and VLC commands of the BSU (41_bsu_bits.md, 42_bsu_vlc.md): each is a micro-operation and
the write of its value to `RET0` (R160). -/

namespace Sys2Proof.Machine

/-- Run a micro-operation and write its value, a natural number, to `RET0`, zero-extended (R176). -/
def popToRet0 (s : State) (m : Micro Nat) : State :=
  runMicro s m fun v s => { s with ret0 := BitVec.ofNat 32 v }

/-- Run a micro-operation and write its value, an integer, to `RET0` as two's complement (R176). -/
def popToRet0Signed (s : State) (m : Micro Int) : State :=
  runMicro s m fun v s => { s with ret0 := u32 v }

/-- `POP_BIT` (R162). -/
def execPopBit (s : State) : Host.Outcome State Fault Refusal :=
  perform s fun s => popToRet0 s (microBind (popBit s.src) fun bit => microPure bit.toNat)

/-- `POP_INT n` (R164); `n > 32` is `BadOperand` before any bit is popped (R111 test 4). -/
def execPopInt (n : BitVec 6) (s : State) : Host.Outcome State Fault Refusal :=
  perform s fun s => if 32 < n.toNat then s.raise .badOperand 0 else popToRet0 s (popInt s.src n.toNat)

/-- `POP_SINT n` (R167); `n = 0` and `n > 32` are `BadOperand` (R111 test 4). -/
def execPopSint (n : BitVec 6) (s : State) : Host.Outcome State Fault Refusal :=
  perform s fun s =>
    if n.toNat = 0 ∨ 32 < n.toNat then s.raise .badOperand 0 else popToRet0Signed s (popSint s.src n.toNat)

/-- `POP_LENGTH` (R169). -/
def execPopLength (s : State) : Host.Outcome State Fault Refusal :=
  perform s fun s => popToRet0 s (popLength s.src)

/-- `POP_UE` (R171). -/
def execPopUe (s : State) : Host.Outcome State Fault Refusal :=
  perform s fun s => popToRet0 s (popUe s.src)

/-- `POP_SE` (R174). -/
def execPopSe (s : State) : Host.Outcome State Fault Refusal :=
  perform s fun s => popToRet0Signed s (popSe s.src)

/-- `POP_VLC t` (R194). -/
def execPopVlc (t : BitVec 8) (s : State) : Host.Outcome State Fault Refusal :=
  perform s fun s => runMicro s (popVlc s.src s.rom.vlc t) fun sym s => { s with ret0 := sym }

end Sys2Proof.Machine
end

