-- ==== Sys2Proof/Machine/BsuByte.lean ====
section
/-! DEFINITION. The byte-level commands of the BSU (40_bsu_byte.md). -/

namespace Sys2Proof.Machine

/-- `READ_U8` (R143). -/
def execReadU8 (s : State) : Host.Outcome State Fault Refusal :=
  perform s fun s => runMicro s (fetch s.src 1) fun bs s => { s with ret0 := (bs.getD 0 0#8).setWidth 32 }

/-- `READ_BYTES cnt` (R144). -/
def execReadBytes (cnt : BitVec 24) (s : State) : Host.Outcome State Fault Refusal :=
  perform s fun s => runMicro s (fetch s.src cnt.toNat) fun bs s => s.appendOut bs

/-- `RESET_BITS` (R145). -/
def execResetBits (s : State) : Host.Outcome State Fault Refusal :=
  perform s fun s => { s with bitpos := 0#4 }

/-- `SEEK` (R146). -/
def execSeek (s : State) : Host.Outcome State Fault Refusal :=
  perform s fun s => { s with pos := s.a0, bitpos := 0#4 }

end Sys2Proof.Machine
end

