-- ==== Sys2Proof/Machine/Ipu.lean ====
section
/-! DEFINITION. The intra-prediction unit (44_ipu_intra.md). The pixel formulas and the mode predictor are OPEN; what their rules fix
(causality, the 128 block at the origin, mode and entry ranges, the covered cache entries) holds by construction. -/

namespace Sys2Proof.Machine

/-- The pixels `IntraPredict` may read for the `n × n` block at `(x, y)`: those of the plane strictly above or left (R252 a). Elsewhere
it is shown 0, whatever the plane holds (log entry 25, DESIGN CHOICE). -/
def State.causalPixel (s : State) (plane x y n : Nat) (r c : Nat) : Byte :=
  if (r < y ∨ (c < x ∧ r < y + n)) ∧ r < s.planeH plane ∧ c < s.planeW plane then s.pixel s.cur.val plane r c else 0#8

/-- `IntraPredict(mode, n, x, y, plane)` (R252): OPEN, but for mode 3 at the frame's origin, which is 128 throughout (R254). -/
def State.intraBlock (s : State) (mode plane n x y : Nat) : Nat → Nat → Byte :=
  if mode = 3 ∧ x = 0 ∧ y = 0 then fun _ _ => 128#8
  else Config.intraPredict ⟨mode, n, x, y, s.planeW plane, s.planeH plane⟩ (s.causalPixel plane x y n)

/-- Fill the block named by `XY` and `WH` with a mode's prediction (R251, R258). -/
def State.fillIntra (s : State) (mode plane : Nat) : State :=
  s.writeBlock plane s.blockX s.blockY s.blockW s.blockW (s.intraBlock mode plane s.blockW s.blockX s.blockY)

/-- The operand check of `IPRED` and `IPRED_P` after that of `sel` (R251, R258). -/
def State.intraOperandsBad (s : State) (plane : BitVec 2) : Bool :=
  plane == 3#2 || s.blockW != s.blockH || !intraSide s.blockW

/-- `IPRED` (R251). -/
def execIpred (sel : BitVec 4) (plane : BitVec 2) (s : State) : Host.Outcome State Fault Refusal :=
  perform s fun s =>
    if s.framev = false then s.raise .notInitialised 0
    else if 8 < sel.toNat ∨ s.intraOperandsBad plane = true then s.raise .badOperand 0
    else if s.inside plane.toNat s.blockX s.blockY s.blockW s.blockW = false then s.raise .planeBounds 0
    else s.fillIntra sel.toNat plane.toNat

/-- `PMODE_RESET` (R256): every entry of the cache the value 9. -/
def execPmodeReset (s : State) : Host.Outcome State Fault Refusal :=
  perform s fun s =>
    if s.framev = false then s.raise .notInitialised 0
    else { s with pmc := List.replicate (Config.modeCacheSize s.width s.height) 9, pmcv := true }

/-- What `ModeSelect` makes of the cache (R257 b): the entries the block covers hold the mode, the others are OPEN; no entry is
added or lost (log entry 20, DESIGN CHOICE). -/
def updateCache (pmc : List (Fin 10)) (plane x y n : Nat) (leaf : ModeLeaf) : List (Fin 10) :=
  (List.range pmc.length).map fun i =>
    if i ∈ Config.modeCover plane x y n then leaf.mode.castSucc
    else (Config.modeUpdate pmc plane x y n leaf).getD i 9

/-- The code `ModeSelect` reads (R257): the one listed for the context the cache and the block select, else the OPEN one. -/
def modeCode (rom : Rom) (pmc : List (Fin 10)) (plane x y n : Nat) : List Bool → CodeStep ModeLeaf :=
  ((rom.modeCodes[Config.modeContext pmc plane x y n]?).map BitTree.step).getD (Config.modeCode pmc plane x y n)

/-- `IPRED_P` (R258). -/
def execIpredP (sel : BitVec 4) (plane : BitVec 2) (s : State) : Host.Outcome State Fault Refusal :=
  perform s fun s =>
    if s.framev = false ∨ s.pmcv = false then s.raise .notInitialised 0
    else if sel ≠ 0#4 ∨ s.intraOperandsBad plane = true then s.raise .badOperand 0
    else if s.inside plane.toNat s.blockX s.blockY s.blockW s.blockW = false then s.raise .planeBounds 0
    else
      runMicro s (popCode s.src (modeCode s.rom s.pmc plane.toNat s.blockX s.blockY s.blockW)) fun leaf s =>
        { s.fillIntra leaf.mode.val plane.toNat with
          pmc := updateCache s.pmc plane.toNat s.blockX s.blockY s.blockW leaf
          ret0 := BitVec.ofNat 32 leaf.mode.val }

end Sys2Proof.Machine
end

