-- ==== Sys2Proof/Machine/Mcu.lean ====
section
/-! DEFINITION. The motion-compensation unit (45_mcu_motion.md): the reference ring, half-pixel interpolation, frame output, the
motion-vector predictor and the median. -/

namespace Sys2Proof.Machine

/-- The slot reference index `k` names: the frame completed `k` frames ago (R274). -/
def refSlot (cur : Fin 6) (k : Nat) : Nat := (cur.val + 6 - k) % 6

/-- The half-pixel bit of a vector component (R272). -/
def halfBit (v : BitVec 16) : Nat := if v.getLsbD 0 then 1 else 0

/-- The whole-pixel displacement of a vector component (R272). -/
def wholePart (v : BitVec 16) : Int := shiftRight v.toInt 1

/-- One predicted pixel from the reference pixels at the whole displacement and right, below and both (R273). -/
def interpolate (round ex ey : Nat) (a b c d : Byte) : Byte :=
  if ex = 0 then
    if ey = 0 then a else BitVec.ofNat 8 ((a.toNat + c.toNat + round) / 2)
  else
    if ey = 0 then BitVec.ofNat 8 ((a.toNat + b.toNat + round) / 2)
    else BitVec.ofNat 8 ((a.toNat + b.toNat + c.toNat + d.toNat + 2 * round) / 4)

/-- `MC_ROUND` as a number (R273). -/
def roundBias : Nat := if Config.mcRound then 1 else 0

/-- The predicted pixel `(i, j)` of a block whose source starts at column `sx`, row `sy` of a slot's plane (R273). -/
def State.predicted (s : State) (round slot plane sx sy ex ey j i : Nat) : Byte :=
  interpolate round ex ey (s.pixel slot plane (sy + j) (sx + i)) (s.pixel slot plane (sy + j) (sx + i + 1))
    (s.pixel slot plane (sy + j + 1) (sx + i)) (s.pixel slot plane (sy + j + 1) (sx + i + 1))

/-- The source block, widened where it interpolates, lies inside the reference plane (R271). -/
def State.sourceInside (s : State) (plane : Nat) (sx sy : Int) (w h ex ey : Nat) : Bool :=
  decide (0 ≤ sx) && decide (0 ≤ sy) && decide (sx + w + ex ≤ s.planeW plane) && decide (sy + h + ey ≤ s.planeH plane)

/-- `MC` with this rounding bias (R271). -/
def mcBody (round : Nat) (sel : BitVec 4) (plane : BitVec 2) (s : State) : State :=
  let mv := mvOf s.a2
  let sx : Int := s.blockX + wholePart mv.dx
  let sy : Int := s.blockY + wholePart mv.dy
  if s.framev = false then s.raise .notInitialised 0
  else if sel.toNat = 0 ∨ 5 < sel.toNat ∨ plane = 3#2 ∨ motionSide s.blockW = false ∨ motionSide s.blockH = false then
    s.raise .badOperand 0
  else if s.slotValid (refSlot s.cur sel.toNat) = false then s.raise .refInvalid sel.toNat
  else if s.inside plane.toNat s.blockX s.blockY s.blockW s.blockH = false then s.raise .planeBounds 0
  else if s.sourceInside plane.toNat sx sy s.blockW s.blockH (halfBit mv.dx) (halfBit mv.dy) = false then
    s.raise .planeBounds 0
  else
    s.writeBlock plane.toNat s.blockX s.blockY s.blockW s.blockH fun j i =>
      s.predicted round (refSlot s.cur sel.toNat) plane.toNat sx.toNat sy.toNat (halfBit mv.dx) (halfBit mv.dy) j i

/-- `MC` (R271). -/
def execMc (sel : BitVec 4) (plane : BitVec 2) (s : State) : Host.Outcome State Fault Refusal :=
  perform s fun s => mcBody roundBias sel plane s

/-- The slot after a slot of the ring (R279). -/
def nextSlot (cur : Fin 6) : Fin 6 := ⟨(cur.val + 1) % 6, Nat.mod_lt _ (by decide)⟩

/-- One bit of the six of `VALID` (R34). -/
def slotBit (slot : Nat) : BitVec 6 := 1#6 <<< slot

/-- `ROTATE` (R279). -/
def execRotate (s : State) : Host.Outcome State Fault Refusal :=
  perform s fun s =>
    if s.framev = false then s.raise .notInitialised 0
    else { s with
      cur := nextSlot s.cur
      valid := (s.valid ||| slotBit s.cur.val) &&& ~~~(slotBit (nextSlot s.cur).val) }

/-- The bytes of one plane of a slot, rows top to bottom, left to right (R280). -/
def State.planeBytes (s : State) (slot plane : Nat) : List Byte :=
  (List.range (s.planeH plane)).flatMap fun y => (List.range (s.planeW plane)).map fun x => s.pixel slot plane y x

/-- The planar frame: Y, then U, then V (R280). -/
def State.frameBytes (s : State) (slot : Nat) : List Byte :=
  s.planeBytes slot 0 ++ s.planeBytes slot 1 ++ s.planeBytes slot 2

/-- `EMIT_FRAME` (R280). -/
def execEmitFrame (s : State) : Host.Outcome State Fault Refusal :=
  perform s fun s =>
    if s.framev = false then s.raise .notInitialised 0
    else if s.slotValid (refSlot s.cur 1) = false then s.raise .refInvalid 1
    else s.appendOut (s.frameBytes (refSlot s.cur 1))

/-- The vector (0, 0). -/
def zeroMv : Mv := ⟨0#16, 0#16⟩

/-- `MVP_RESET` (R282). -/
def execMvpReset (s : State) : Host.Outcome State Fault Refusal :=
  perform s fun s =>
    if s.framev = false then s.raise .notInitialised 0
    else { s with mvp := List.replicate (s.mbw + 1) zeroMv, alsave := zeroMv, mvpv := true }

/-- The median of three vectors, per component (R283). -/
def medianMv (l a u : Mv) : Mv :=
  ⟨BitVec.ofInt 16 (median3 l.dx.toInt a.dx.toInt u.dx.toInt), BitVec.ofInt 16 (median3 l.dy.toInt a.dy.toInt u.dy.toInt)⟩

/-- The refreshed predictor of a column: the median of its left, above-left and above neighbours (R283). -/
def State.refreshed (s : State) (c : Nat) : Mv :=
  medianMv (s.mvp.getD c zeroMv) (if c = 0 then zeroMv else s.alsave) (s.mvp.getD (c + 1) zeroMv)

/-- `MVP_REFRESH` (R283). -/
def execMvpRefresh (s : State) : Host.Outcome State Fault Refusal :=
  perform s fun s =>
    if s.mvpv = false then s.raise .notInitialised 0
    else if s.mbw ≤ s.a0.toNat then s.raise .badOperand 0
    else
      let p := s.refreshed s.a0.toNat
      { s with
        alsave := s.mvp.getD (s.a0.toNat + 1) zeroMv
        mvp := s.mvp.set (s.a0.toNat + 1) p
        ret0 := p.dx.signExtend 32
        ret1 := p.dy.signExtend 32 }

/-- `MVP_SET` (R284). -/
def execMvpSet (s : State) : Host.Outcome State Fault Refusal :=
  perform s fun s =>
    if s.mvpv = false then s.raise .notInitialised 0
    else if s.mbw ≤ s.a0.toNat then s.raise .badOperand 0
    else { s with mvp := s.mvp.set (s.a0.toNat + 1) (mvOf s.a1) }

/-- `MEDIAN3` (R285). -/
def execMedian3 (s : State) : Host.Outcome State Fault Refusal :=
  perform s fun s => { s with ret0 := u32 (median3 (sext32 s.a0) (sext32 s.a1) (sext32 s.a2)) }

end Sys2Proof.Machine
end

