-- ==== Sys2Proof/Machine/System.lean ====
section
/-! DEFINITION. The one system command (R345). -/

namespace Sys2Proof.Machine

/-- `RESET_UNIT` (R345): accepted in the faulted state too; every piece of state takes its reset value. -/
def execResetUnit (s : State) : Host.Outcome State Fault Refusal := .next s.toReset

end Sys2Proof.Machine
end

