-- ==== Sys2Proof/Machine/Tqu.lean ====
section
/-! DEFINITION. The inverse-transform and quantization engine (43_tqu_coef.md): the quantizer tables, the coefficient symbol, the
run/level loop, the inverse transform, the adder, and the four commands. -/

namespace Sys2Proof.Machine

/-- A scan order over `count` cells: position 0 is the DC cell and the rest is an arrangement of the other cells (R211 a, b). -/
def scanOrder (choice : Nat → Nat) (count : Nat) : List Nat :=
  0 :: pickOrder choice (count - 1) (List.range' 1 (count - 1))

/-- The table entry of a scan cell of an `n × n` block. -/
def scanEntry (n cell : Nat) (shift : BitVec 5) : QEntry := ⟨cell / n, cell % n, shift⟩

/-- The 4×4 table of `QTAB(q)` (R211). -/
def qtab4 (q : BitVec 6) : List QEntry :=
  (List.range 16).map fun i => scanEntry 4 ((scanOrder Config.scanChoice4 16).getD i 0) (Config.shift4 q i)

/-- The 8×8 table of `QTAB(q)` (R211). -/
def qtab8 (q : BitVec 6) : List QEntry :=
  (List.range 64).map fun i => scanEntry 8 ((scanOrder Config.scanChoice8 64).getD i 0) (Config.shift8 q i)

/-- `QUANT.Q <- q` and both tables rebuilt (R212, R213, R44). -/
def State.loadQuant (s : State) (q : BitVec 6) : State := { s with quantQ := q, qt4 := qtab4 q, qt8 := qtab8 q }

/-- `SET_QUANT q` (R212). -/
def execSetQuant (q : BitVec 6) (s : State) : Host.Outcome State Fault Refusal :=
  perform s fun s => { s.loadQuant q with qv := true }

/-- `ADD_QUANT` (R213). It sets `INIT.QV` when it succeeds (R36), which then already holds. -/
def execAddQuant (s : State) : Host.Outcome State Fault Refusal :=
  perform s fun s =>
    if s.qv = false then s.raise .notInitialised 0
    else if (s.quantQ.toNat : Int) + sext32 s.a0 < 0 ∨ 63 < (s.quantQ.toNat : Int) + sext32 s.a0 then
      s.raise .quantRange ((s.quantQ.toNat : Int) + sext32 s.a0)
    else { s.loadQuant (BitVec.ofInt 6 ((s.quantQ.toNat : Int) + sext32 s.a0)) with qv := true }

/-- `SET_DCTTAB b` (R214); above 1 is `BadOperand` (R111 test 4; log entry 27, DEDUCED). -/
def execSetDcttab (n : BitVec 6) (s : State) : Host.Outcome State Fault Refusal :=
  perform s fun s => if 1 < n.toNat then s.raise .badOperand 0 else { s with dctTab := n == 1#6 }

/-- A coefficient symbol: (last, run, level) (R216). -/
structure CoefSym where
  last : Bool
  run : Nat
  level : Int
  deriving DecidableEq, Repr

/-- What of `COEF` is OPEN: the transforms, `RES_SHIFT` and `ESC_F_ROLE` (R219, R221), and of `CoefSymbol` what the tables do not
list (R216). -/
structure CoefParams where
  it4 : List Word → List Word
  it8 : List Word → List Word
  resShift : BitVec 5
  role : EscFRole
  signCode : BitVec 8 → List VlcRow → Nat → List Bool → CodeStep Bool
  escapeCode : BitVec 8 → List VlcRow → Nat → List Bool → CodeStep EscapePath
  levelResidue : BitVec 8 → Nat → Bool → Int
  runResidue : BitVec 8 → Int → Bool → Int

/-- The block's own values of them. -/
def coefParams : CoefParams where
  it4 := Config.it4
  it8 := Config.it8
  resShift := Config.resShift
  role := Config.escFRole
  signCode := Config.signCode
  escapeCode := Config.escapeCode
  levelResidue := Config.levelResidue
  runResidue := Config.runResidue

/-- `level` of a coefficient symbol word, bits 11:0 (R193). -/
def symLevel (sym : Word) : Nat := (sym.extractLsb' 0 12).toNat

/-- `run` of a coefficient symbol word, bits 17:12 (R193). -/
def symRun (sym : Word) : Nat := (sym.extractLsb' 12 6).toNat

/-- `last` of a coefficient symbol word, bit 18 (R193). -/
def symLast (sym : Word) : Bool := sym.getLsbD 18

/-- What a list gives for an index, the first entry with it; `other` where it gives nothing. -/
def listedAt {α β : Type} [DecidableEq α] (table : List (α × β)) (index : α) (other : β) : β :=
  ((table.find? fun e => decide (e.1 = index)).map (·.2)).getD other

/-- The rows of one table of the store: what `CoefSymbol(tab)` knows as `TAB[tab]` (R216 d). -/
def tableRows (vlc : List VlcRow) (t : BitVec 8) : List VlcRow := vlc.filter fun r => r.table == t

/-- The code of a plain symbol's sign: the one listed for this table and key, else the OPEN one (R216). -/
def signCodeOf (k : CoefParams) (rom : Rom) (tab : BitVec 8) (key : Nat) : List Bool → CodeStep Bool :=
  listedAt (rom.signCodes.map fun c => (c.1, c.2.step)) (tab, key) (k.signCode tab (tableRows rom.vlc tab) key)

/-- The code that selects the escape path: the one listed for this table and key, else the OPEN one (R216, R217). -/
def escapeCodeOf (k : CoefParams) (rom : Rom) (tab : BitVec 8) (key : Nat) : List Bool → CodeStep EscapePath :=
  listedAt (rom.escapeCodes.map fun c => (c.1, c.2.step)) (tab, key) (k.escapeCode tab (tableRows rom.vlc tab) key)

/-- The residue of path A of a coefficient table (R217). -/
def levelResidueOf (k : CoefParams) (rom : Rom) (tab : BitVec 8) (run : Nat) (last : Bool) : Int :=
  listedAt rom.levelResidue (tab, run, last) (k.levelResidue tab run last)

/-- The residue of path B of a coefficient table (R217). -/
def runResidueOf (k : CoefParams) (rom : Rom) (tab : BitVec 8) (level : Int) (last : Bool) : Int :=
  listedAt rom.runResidue (tab, level, last) (k.runResidue tab level last)

/-- The raw 19-bit escape (R120, R219): one bit, a 6-bit run, a 12-bit signed level. With `ESC_F_ROLE = last` the bit is `last`;
with `sign` it negates the level and `last` is that of the VLC symbol that announced the escape (90_conflicts.md C2). -/
def rawEscape (src : Src) (role : EscFRole) (announced : Bool) : Micro CoefSym :=
  microBind (popBit src) fun f =>
    microBind (popInt src 6) fun run =>
      microBind (popSint src 12) fun level =>
        microPure (match role with
          | .last => ⟨f, run, level⟩
          | .sign => ⟨announced, run, if f then -level else level⟩)

/-- The escape of a symbol whose level is 0 and whose `last` is `announced`, along one of the three paths (R217, R219). A run is never
negative (R216). -/
def escapeSymbol (k : CoefParams) (src : Src) (rom : Rom) (tab : BitVec 8) (announced : Bool) : EscapePath → Micro CoefSym
  | .residueLevel last run base => microPure ⟨last, run, base + levelResidueOf k rom tab run last⟩
  | .residueRun last level base => microPure ⟨last, (base + runResidueOf k rom tab level last).toNat, level⟩
  | .raw => rawEscape src k.role announced

/-- `CoefSymbol(tab)` (R216): a VLC symbol of table `tab`; a nonzero level is a plain symbol whose sign a code of the table and key
gives, a zero level an escape. -/
def coefSymbol (k : CoefParams) (src : Src) (rom : Rom) (tab : BitVec 8) : Micro CoefSym :=
  microBind (popVlcKey src rom.vlc tab) fun entry =>
    if symLevel entry.2 ≠ 0 then
      microBind (popCode src (signCodeOf k rom tab entry.1)) fun negative =>
        microPure ⟨symLast entry.2, symRun entry.2,
          if negative then -(symLevel entry.2 : Int) else (symLevel entry.2 : Int)⟩
    else
      microBind (popCode src (escapeCodeOf k rom tab entry.1)) fun path => escapeSymbol k src rom tab (symLast entry.2) path

/-- Dequantisation: `wrap32(level * 2^shift)` (R220). -/
def dequant (level : Int) (shift : BitVec 5) : Word := BitVec.ofInt 32 (level * (2 ^ shift.toNat : Nat))

/-- The run/level loop of `COEF` (R215) over an `n × n` matrix stored row by row: at most `fuel` more symbols. Each symbol moves the
position on, so `n * n + 1` symbols always end it. Gives the matrix and the number of symbols. -/
def coefLoop (symbol : Micro CoefSym) (qt : List QEntry) (n : Nat) : Nat → Nat → Nat → List Word → Micro (List Word × Nat)
  | 0, pos, _, _ => microFault .coefOverrun pos
  | fuel + 1, pos, count, m => microBind symbol fun c =>
      if n * n ≤ pos + c.run then microFault .coefOverrun (pos + c.run : Nat)
      else
        let e := qt.getD (pos + c.run) default
        let placed := m.set (e.row * n + e.col) (dequant c.level e.shift)
        if c.last then microPure (placed, count + 1)
        else coefLoop symbol qt n fuel (pos + c.run + 1) (count + 1) placed

/-- The DC bias: `M[0][0] <- wrap32(M[0][0] + 32)` (R220). -/
def biasDc (m : List Word) : List Word := m.set 0 (m.getD 0 0#32 + 32#32)

/-- `M[r][c]` of an `n × n` matrix stored row by row. -/
def cell (n : Nat) (m : List Word) (r c : Nat) : Word := m.getD (r * n + c) 0#32

/-- One pass: the one-dimensional transform of every row (R222). -/
def rowPass (it : List Word → List Word) (n : Nat) (m : List Word) : List Word :=
  (List.range n).flatMap fun r =>
    let row := it ((List.range n).map fun c => cell n m r c)
    (List.range n).map fun c => row.getD c 0#32

/-- The transpose of an `n × n` matrix (R222). -/
def transpose (n : Nat) (m : List Word) : List Word :=
  (List.range n).flatMap fun r => (List.range n).map fun c => cell n m c r

/-- `IT2D_N`: row pass, transpose, column pass, shift right; `Res[j][i]` is element `[i][j]` of the last pass (R222). -/
def inverseTransform (it : List Word → List Word) (shift : BitVec 5) (n : Nat) (m : List Word) : List Word :=
  (transpose n (rowPass it n (transpose n (rowPass it n m)))).map fun v => v.sshiftRight shift.toNat

/-- The adder: `clamp255(old + Res)` (R223). -/
def addResidual (old : Byte) (res : Word) : Byte := clamp255 ((old.toNat : Int) + res.toInt)

/-- The coefficient table `QUANT.DCTTAB` names (R41, R216). -/
def State.coefTable (s : State) : BitVec 8 := if s.dctTab then 1#8 else 0#8

/-- The side of a `COEF` block (R215). -/
def coefSide (sel : BitVec 4) : Nat := if sel = 0#4 then 4 else 8

/-- The rest of `COEF` once its symbols are read: bias, transform, add, count (R215). -/
def coefReconstruct (k : CoefParams) (n plane : Nat) (m : List Word) (count : Nat) (s : State) : State :=
  let it := if n = 4 then k.it4 else k.it8
  let res := inverseTransform it k.resShift n (biasDc m)
  { s.writeBlock plane s.blockX s.blockY n n (fun j i =>
      addResidual (s.pixel s.cur.val plane (s.blockY + j) (s.blockX + i)) (cell n res j i)) with
    ret0 := BitVec.ofNat 32 count }

/-- `COEF` with these parameters (R215). -/
def coefBody (k : CoefParams) (sel : BitVec 4) (plane : BitVec 2) (s : State) : State :=
  if s.framev = false ∨ s.qv = false then s.raise .notInitialised 0
  else if 1 < sel.toNat ∨ plane = 3#2 then s.raise .badOperand 0
  else if s.inside plane.toNat s.blockX s.blockY (coefSide sel) (coefSide sel) = false then s.raise .planeBounds 0
  else
    let n := coefSide sel
    let qt := if n = 4 then s.qt4 else s.qt8
    runMicro s
      (coefLoop (coefSymbol k s.src s.rom s.coefTable) qt n (n * n + 1) 0 0 (List.replicate (n * n) 0#32))
      fun mc s => coefReconstruct k n plane.toNat mc.1 mc.2 s

/-- `COEF` (R215). -/
def execCoef (sel : BitVec 4) (plane : BitVec 2) (s : State) : Host.Outcome State Fault Refusal :=
  perform s fun s => coefBody coefParams sel plane s

end Sys2Proof.Machine
end

