-- ==== Sys2Proof/Machine/Dispatch.lean ====
section
/-! DEFINITION. One arm per command (R104): the meaning of each. -/

namespace Sys2Proof.Machine

/-- What a command does to a state (R100, R104). -/
def exec (i : Instr) (s : State) : Host.Outcome State Fault Refusal :=
  match i with
  | .readU8 => Sys2Proof.Machine.execReadU8 s
  | .readBytes cnt => Sys2Proof.Machine.execReadBytes cnt s
  | .resetBits => Sys2Proof.Machine.execResetBits s
  | .seek => Sys2Proof.Machine.execSeek s
  | .popBit => Sys2Proof.Machine.execPopBit s
  | .popInt n => Sys2Proof.Machine.execPopInt n s
  | .popSint n => Sys2Proof.Machine.execPopSint n s
  | .popLength => Sys2Proof.Machine.execPopLength s
  | .popUe => Sys2Proof.Machine.execPopUe s
  | .popSe => Sys2Proof.Machine.execPopSe s
  | .popVlc t => Sys2Proof.Machine.execPopVlc t s
  | .setQuant q => Sys2Proof.Machine.execSetQuant q s
  | .addQuant => Sys2Proof.Machine.execAddQuant s
  | .setDcttab n => Sys2Proof.Machine.execSetDcttab n s
  | .coef sel plane => Sys2Proof.Machine.execCoef sel plane s
  | .ipred sel plane => Sys2Proof.Machine.execIpred sel plane s
  | .pmodeReset => Sys2Proof.Machine.execPmodeReset s
  | .ipredP sel plane => Sys2Proof.Machine.execIpredP sel plane s
  | .mc sel plane => Sys2Proof.Machine.execMc sel plane s
  | .rotate => Sys2Proof.Machine.execRotate s
  | .emitFrame => Sys2Proof.Machine.execEmitFrame s
  | .mvpReset => Sys2Proof.Machine.execMvpReset s
  | .mvpRefresh => Sys2Proof.Machine.execMvpRefresh s
  | .mvpSet => Sys2Proof.Machine.execMvpSet s
  | .median3 => Sys2Proof.Machine.execMedian3 s
  | .adec codec chan => Sys2Proof.Machine.execAdec codec chan s
  | .resetUnit => Sys2Proof.Machine.execResetUnit s

end Sys2Proof.Machine
end

