-- ==== Sys2Proof/Machine/HostPort.lean ====
section
/-! DEFINITION. The host's side of the command port: a command word written to `CMD` (R100, R111), the register writes (R27, R29,
R33, R38) and the host's other moves (R385). -/

namespace Sys2Proof.Machine

/-- The fault a word that is no command raises (R110, R111 tests 2 and 3). While faulted it changes nothing (R342, R345). -/
def State.reject (s : State) : Reject → State
  | .illegalCommand op => s.raise .illegalCommand op.toNat
  | .badOperand => s.raise .badOperand 0

/-- A word written to `CMD` (R37, R100, R111): decoded, and the command executed to completion. -/
def command (w : Word) (s : State) : Host.Outcome State Fault Refusal :=
  match decode w with
  | .ok i => exec i s
  | .error r => .next (s.reject r)

/-- `LEN_MAX` (R7, R29). -/
def lenMax : Nat := 2 ^ 28 - 1

/-- A write of `CFG` (R27): bits 31:2 are dropped, `BITPOS` is cleared, and what `WIN` holds is unspecified (U2, log entry 7, DEDUCED). -/
def State.writeCfg (s : State) (v : Word) : State :=
  { s with
    w16 := v.getLsbD 0
    le := v.getLsbD 1
    bitpos := 0#4
    win := windowBits (v.getLsbD 0) ((Config.freeWord s.draws).setWidth 16)
    draws := s.draws + 1 }

/-- A write of `LEN`: a value above `LEN_MAX` stores `LEN_MAX` (R29). -/
def State.writeLen (s : State) (v : Word) : State :=
  { s with len := if lenMax < v.toNat then BitVec.ofNat 28 lenMax else v.setWidth 28 }

/-- A write of `FRAME` (R33): geometry, empty ring, predictor array and mode cache invalid, every plane byte unspecified. -/
def State.writeFrame (s : State) (v : Word) : State :=
  { s with
    frame := v
    valid := 0#6
    cur := 0
    mvpv := false
    pmcv := false
    framev := frameLegal v
    planes := []
    era := s.era + 1 }

/-- An aligned word write to a register other than `CMD` by a host that is not locked out (R38): read-only registers and offsets not
in the map ignore it (V5, V6). -/
def State.regWrite (s : State) (offset : Nat) (v : Word) : State :=
  match offset with
  | 0x0C => s.writeCfg v
  | 0x14 => s.writeLen v
  | 0x20 => { s with a0 := v }
  | 0x24 => { s with a1 := v }
  | 0x28 => { s with a2 := v }
  | 0x44 => s.writeFrame v
  | _ => s

/-- A host write (R38, R78): at offset 0 a command; elsewhere a register, ignored while faulted (R342). -/
def State.hostWrite (s : State) (width : AccessWidth) (offset : Nat) (v : Word) : Host.Outcome State Fault Refusal :=
  match width with
  | .word =>
    if offset = 0 then command v s
    else .next (if s.faulted then s else s.regWrite offset v)
  | _ => .next s

/-- One move of the host (R385). -/
def hostMove (m : HostMove) (s : State) : Host.Outcome State Fault Refusal :=
  match m with
  | .write width offset v => s.hostWrite width offset v
  | .read width offset => .next { s with hostVal := s.regRead width offset }
  | .place addr v => .next { s with source := Memory.write s.source addr.toNat v }
  | .consume n => .next { s with taken := min (s.taken + n) s.out.length }
  | .hardReset => .next s.toReset

/-- One step: the host's next move; with none pending MBD holds its state and does nothing (R356, R390). -/
def advance (s : State) : Host.Outcome State Fault Refusal :=
  match s.script with
  | [] => .next s
  | m :: rest => hostMove m { s with script := rest }

/-- The host's next move is to write this word to `CMD`. -/
def State.issue (s : State) (w : Word) : State := { s with script := .write .word 0 w :: s.script }

end Sys2Proof.Machine
end

