-- ==== Sys2Proof/Machine/Step.lean ====
section
/-! DEFINITION. One step of the machine, and how a command word is put before it (log entry 1, DESIGN CHOICE). -/

namespace Sys2Proof.Machine

/-- One step: the host's next move (R6, R385). -/
def step (s : State) : Host.Outcome State Fault Refusal := Sys2Proof.Machine.advance s

/-- The state in which the host's next move is to write this 32-bit command word to `CMD` (R100). -/
def State.withFetchWord (s : State) (_nbits w : Nat) : State := s.issue (BitVec.ofNat 32 w)

end Sys2Proof.Machine
end

