-- ==== Sys2Proof/Machine/HostSequences.lean ====
section
/-! DEFINITION. What the host does with several moves, as the spec writes it out: the pseudo-instructions (R132), the container and
frame headers it reads with MBD's commands (R121, R122, R123) and the halving of a chroma vector (R276). None of it is a step of
MBD: each is a function on states that makes the moves one after the other (log entry 28, DEDUCED). -/

namespace Sys2Proof.Machine

/-- One host move made now. -/
def hostDo (m : HostMove) (s : State) : State :=
  match hostMove m s with
  | .next t => t
  | .fault _ => s
  | .refused _ => s

/-- The host writes a command's word to `CMD`. -/
def hostCommand (i : Instr) (s : State) : State := hostDo (.write .word 0 (encode i)) s

/-- The host writes a register (R131). -/
def hostSet (offset : Nat) (v : Word) (s : State) : State := hostDo (.write .word offset v) s

/-- `SKIP_BITS n`: `n / 32` times `POP_INT 32`, then `POP_INT (n mod 32)` (R132). -/
def skipBits (n : Nat) (s : State) : State :=
  hostCommand (.popInt (BitVec.ofNat 6 (n % 32)))
    ((List.range (n / 32)).foldl (fun s _ => hostCommand (.popInt 32#6) s) s)

/-- `POP_LPINT`: `POP_LENGTH`, then `POP_INT` of the length, which must be at most 32 (R132). What the host does with a longer one is not
said: here it reads no further bits and keeps the length as the value (log entry 24, DESIGN CHOICE). -/
def popLpint (s : State) : State :=
  let s := hostCommand .popLength s
  if s.ret0.toNat ≤ 32 then hostCommand (.popInt (BitVec.ofNat 6 s.ret0.toNat)) s else s

/-- `POP_ESC19`: the state after it and the host's `f`, `run` and `level` (R132, R120). -/
def popEsc19 (s : State) : State × Word × Word × Int :=
  let s1 := hostCommand .popBit s
  let s2 := hostCommand (.popInt 6#6) s1
  let s3 := hostCommand (.popSint 12#6) s2
  (s3, s1.ret0, s2.ret0, sext32 s3.ret0)

/-- `ALIGN` (R132). -/
def align (s : State) : State := hostCommand .resetBits s

/-- `BIND len` (R132, R381). -/
def bindSource (len : Word) (s : State) : State := hostCommand .seek (hostSet 0x20 0#32 (hostSet 0x14 len s))

/-- `REWIND k` (R132). -/
def rewind (k : Word) (s : State) : State := hostCommand .seek (hostSet 0x20 (s.pos - k) s)

/-- `SET_MODE w16, le` (R132). -/
def setMode (w16 le : Bool) (s : State) : State := hostSet 0x0C (bitAt 0 w16 ||| bitAt 1 le) s

/-- One fragment record of the chunked container (R121): index, last flag, the discarded side-channel field of a last fragment, the
13-bit size, and the payload bytes from the next byte boundary. Gives the index and the last flag. After an index prefix above 32 it goes
on with the last flag as `popLpint` leaves it, the length for the index (log entry 24, DESIGN CHOICE). -/
def fragmentRecord (s : State) : State × Word × Bool :=
  let s1 := popLpint s
  let s2 := hostCommand .popBit s1
  let last := s2.ret0 == 1#32
  let s3 := if last then
      let t := hostCommand .popLength s2
      skipBits (2 * t.ret0.toNat + 26) t
    else s2
  let s4 := hostCommand (.popInt 13#6) s3
  (hostCommand (.readBytes (BitVec.ofNat 24 (s4.ret0.toNat + 1))) (align s4), s1.ret0, last)

/-- The I-frame header (R122): frame kind, variant flag, DCT-table index and quantizer; the last two go to MBD. -/
def iFrameHeader (s : State) : State × Word × Word :=
  let s1 := hostCommand .popBit s
  let s2 := hostCommand .popBit s1
  let s3 := hostCommand .popBit s2
  let s4 := hostCommand (.popInt 6#6) s3
  (hostCommand (.setQuant (BitVec.ofNat 6 s4.ret0.toNat)) (hostCommand (.setDcttab (BitVec.ofNat 6 s3.ret0.toNat)) s4),
    s1.ret0, s2.ret0)

/-- The frame is an I-frame: its leading bit has the value `IFRAME_BIT` (R122). -/
def isIFrame (kind : Word) : Bool := kind == (if Config.iframeBit then 1#32 else 0#32)

/-- The variant flag is set: it has the value `VARIANT_BIT` (R122). -/
def isVariant (flag : Word) : Bool := flag == (if Config.variantBit then 1#32 else 0#32)

/-- The P-frame header (R123): frame kind, signed quantizer delta, `ADD_QUANT`, `MVP_RESET`. -/
def pFrameHeader (s : State) : State × Word :=
  let s1 := hostCommand .popBit s
  let s2 := hostCommand .popSe s1
  (hostCommand .mvpReset (hostCommand .addQuant (hostSet 0x20 s2.ret0 s2)), s1.ret0)

/-- A luma vector for the chroma planes: each component shifted right by 1 (R276). -/
def chromaVector (mv : Mv) : Mv := ⟨mv.dx.sshiftRight 1, mv.dy.sshiftRight 1⟩

end Sys2Proof.Machine
end

