-- ==== Sys2Proof/Safety.lean ====
section
/-! DEFINITION. The terms claims use: a stuck and a finished run (R342, R390), the invariant of the machine, and the stream of unread
bits at the cursor, written from R71 to R73 and R161 without the micro-operations, so that what a command reads can be said. -/

namespace Sys2Proof.Machine

/-- A faulted machine is stuck: only reset leads on (R342, R390). -/
def Stuck (s : State) : Prop := s.faulted = true

/-- A run is finished when the host's moves are exhausted (R390). -/
def Finished (s : State) : Prop := s.script = []

/-- A host move that changes the bound source: its bytes, its length, or everything (R386). -/
def HostMove.rebinds : HostMove → Bool
  | .write .word 0 w => w == 0xF0000000#32
  | .write .word 0x14 _ => true
  | .place _ _ => true
  | .hardReset => true
  | _ => false

/-- The codes `FAULT` can hold: none, and those of R331 that MBD raises. -/
def faultCodes : List Nat := [0, 2, 5, 6, 16, 17, 18, 19, 20, 21, 22, 23, 24, 25]

/-- The invariant of the machine. What R341 leaves unspecified after a fault is claimed only of a machine that is not faulted. -/
structure Invariant (s : State) : Prop where
  /-- The plane store keeps the canonical form. -/
  planesWf : Memory.wf s.planes = true
  /-- So do the bytes of the source. -/
  sourceWf : Memory.wf s.source = true
  /-- "Always `BITPOS < W`" (R30). -/
  bitposLt : s.bitpos.toNat < windowWidth s.w16
  /-- With the 8-bit window, bits 15:8 of `WIN` are 0 (R31). -/
  winBits : s.w16 = false → s.win.toNat < 256
  /-- "`VALID[CUR]` is always 0" (R34). -/
  curInvalid : s.slotValid s.cur.val = false
  /-- No slot holds a frame without a legal geometry (R33, R279). -/
  validFrame : s.framev = false → s.valid = 0#6
  /-- `INIT.FRAMEV` says whether `FRAME` is legal (R33, R36). -/
  frameLegal : s.framev = Sys2Proof.Machine.frameLegal s.frame
  /-- The predictor array and the mode cache hold values only under a legal geometry (R36, R256, R282). -/
  mvpFrame : s.mvpv = true → s.framev = true
  /-- The same of the mode cache. -/
  pmcFrame : s.pmcv = true → s.framev = true
  /-- `OUTCNT` counts the bytes of `OUT` modulo 2^32 (R35). -/
  outCount : s.outcnt = BitVec.ofNat 32 s.out.length
  /-- The host consumes only what was appended (R42). -/
  takenLe : s.taken ≤ s.out.length
  /-- `FAULT` holds a code MBD raises (R331). -/
  faultCode : s.fault.toNat % 256 ∈ faultCodes
  /-- The tables are those of the quantizer (R44, R212). -/
  quantTables : s.faulted = false → s.qv = true → s.qt4 = qtab4 s.quantQ ∧ s.qt8 = qtab8 s.quantQ
  /-- The predictor array has `MBW + 1` entries and its left border is (0, 0) (R45). -/
  mvpShape : s.faulted = false → s.mvpv = true → s.mvp.length = s.mbw + 1 ∧ s.mvp.getD 0 zeroMv = zeroMv
  /-- The mode cache keeps its size (R46, R257). -/
  pmcShape : s.faulted = false → s.pmcv = true → s.pmc.length = Config.modeCacheSize s.width s.height

/-- How many unread bits the current window still holds (R30). -/
def windowLeft (src : Src) (b : Bsu) : Nat := if b.bitpos = 0#4 then 0 else windowWidth src.w16 - b.bitpos.toNat

/-- Bit `p`, counted in pop order, of the window whose first byte is at address `a` (R71, R73): the bytes in address order, each from
bit 7 down, but with the little-endian 16-bit window the second byte comes first. -/
def windowBitAt (src : Src) (a p : Nat) : Bool :=
  if src.w16 ∧ src.le then (src.byte (a + (1 - p / 8))).getLsbD (7 - p % 8)
  else (src.byte (a + p / 8)).getLsbD (7 - p % 8)

/-- The `k`-th unread bit at the cursor, in pop order: first what is left of the window, then window after window of the source. -/
def streamBit (src : Src) (b : Bsu) (k : Nat) : Bool :=
  if k < windowLeft src b then b.win.getLsbD (windowWidth src.w16 - 1 - (b.bitpos.toNat + k))
  else
    let j := k - windowLeft src b
    windowBitAt src (b.pos.toNat + (j / windowWidth src.w16) * (windowWidth src.w16 / 8)) (j % windowWidth src.w16)

/-- The next `n` unread bits as an unsigned number, first bit most significant (R72). -/
def streamValue (src : Src) (b : Bsu) : Nat → Nat
  | 0 => 0
  | n + 1 => 2 * streamValue src b n + (streamBit src b n).toNat

/-- How many refills popping `n` bits takes (R24, R161). -/
def refillsFor (src : Src) (b : Bsu) (n : Nat) : Nat :=
  (n - windowLeft src b + (windowWidth src.w16 - 1)) / windowWidth src.w16

/-- The cursor after popping `n` bits (R24): `POS` moved on by the windows refilled, `BITPOS` by `n` modulo `W`, and the window the last
one refilled. -/
def cursorAfter (src : Src) (b : Bsu) (n : Nat) : Bsu where
  pos := b.pos + BitVec.ofNat 32 (refillsFor src b n * (windowWidth src.w16 / 8))
  bitpos := BitVec.ofNat 4 ((b.bitpos.toNat + n) % windowWidth src.w16)
  win :=
    if refillsFor src b n = 0 then b.win
    else
      let a := b.pos.toNat + (refillsFor src b n - 1) * (windowWidth src.w16 / 8)
      windowOf src [src.byte a, src.byte (a + 1)]

/-- The state with the cursor `n` bits on. -/
def State.popped (s : State) (n : Nat) : State := s.setBsu (cursorAfter s.src s.bsu n)

/-- How many bits can still be popped (R161). -/
def State.unread (s : State) : Nat := bitsLeft s.src s.bsu

/-- The `k`-th unread bit (R71). -/
def State.nextBit (s : State) (k : Nat) : Bool := streamBit s.src s.bsu k

/-- The next `n` unread bits as an unsigned number (R72). -/
def State.nextBits (s : State) (n : Nat) : Nat := streamValue s.src s.bsu n

/-- What `FAULT` holds when a pop ran out of bits: the `POS` of the refill that failed (R141, R331). -/
def State.outOfBits (s : State) : Word := faultWord .truncatedStream ((s.popped s.unread).pos.toNat % 2 ^ 24 : Nat)

/-- The window a refill at address `a` assembles (R73, R161). -/
def State.windowAt (s : State) (a : Nat) : BitVec 16 :=
  if s.w16 then
    if s.le then s.sourceByte (a + 1) ++ s.sourceByte a else s.sourceByte a ++ s.sourceByte (a + 1)
  else (s.sourceByte a).setWidth 16

/-- A unary prefix is next: `z` zero bits and a 1 bit, all of them there (R115). -/
def State.unary (s : State) (z : Nat) : Prop := z < s.unread ∧ (∀ k < z, s.nextBit k = false) ∧ s.nextBit z = true

/-- No 1 bit is left (R169). -/
def State.onlyZeros (s : State) : Prop := ∀ k < s.unread, s.nextBit k = false

/-- The two's-complement value of an `n`-bit pattern (R11, R166). -/
def signedValue (n v : Nat) : Int := if v < 2 ^ (n - 1) then (v : Int) else (v : Int) - (2 ^ n : Nat)

/-- The value of an exp-Golomb code of `2 * z + 1` bits whose prefix is `z` zeros and a 1 (R116): suffix + 2^z - 1. -/
def State.golombValue (s : State) (z : Nat) : Nat := s.nextBits (2 * z + 1) % 2 ^ z + 2 ^ z - 1

/-- The signed value of an unsigned exp-Golomb value (R117). -/
def unmapped (k : Nat) : Int := if k % 2 = 0 then -((k : Int) / 2) else ((k : Int) + 1) / 2

/-- What the signed encoder makes of a value (R117). -/
def zigzagCode (v : Int) : Nat := if 0 < v then (2 * v - 1).toNat else (-2 * v).toNat

/-- Symbols read one after the other, none of them the last of its block (R215). -/
def readsOn (symbol : Micro CoefSym) : List CoefSym → Bsu → Bsu → Prop
  | [], b, b' => b' = b
  | c :: cs, b, b' => ∃ b1, symbol b = .ok c b1 ∧ c.last = false ∧ readsOn symbol cs b1 b'

/-- The scan position after symbols: each moves it by its run and one more (R215). -/
def scanAfter (cs : List CoefSym) : Nat := (cs.map fun c => c.run + 1).sum

/-- The matrix after placing symbols from a position on, each level scaled by its position's shift and wrapped to 32 bits (R215,
R220); nothing when one falls at or beyond the end of the block. -/
def placeSymbols (qt : List QEntry) (n : Nat) : Nat → List Word → List CoefSym → Option (List Word)
  | _, m, [] => some m
  | pos, m, c :: cs =>
    if n * n ≤ pos + c.run then none
    else
      let e := qt.getD (pos + c.run) default
      placeSymbols qt n (pos + c.run + 1) (m.set (e.row * n + e.col) (BitVec.ofInt 32 (c.level * 2 ^ e.shift.toNat))) cs

/-- A cell of a plane lies in the `w × h` block at column `x`, row `y`. -/
def inBlock (x y w h r c : Nat) : Prop := (y ≤ r ∧ r < y + h) ∧ (x ≤ c ∧ c < x + w)

/-- The addresses a plane byte can have: slots 0 to 5, planes 0 to 2, rows and columns of at most 16 bits (R33, R43). -/
def inStore (slot plane r c : Nat) : Prop := slot < 6 ∧ plane < 3 ∧ r < 65536 ∧ c < 65536

/-- `m` is the numeric median of three integers: one of them, with two at or below it and two at or above it (R14). -/
def isMedian (a b c m : Int) : Prop :=
  (m = a ∨ m = b ∨ m = c) ∧ ((a ≤ m ∧ b ≤ m) ∨ (a ≤ m ∧ c ≤ m) ∨ (b ≤ m ∧ c ≤ m)) ∧
    ((m ≤ a ∧ m ≤ b) ∨ (m ≤ a ∧ m ≤ c) ∨ (m ≤ b ∧ m ≤ c))

/-- The `w × h` block named by `XY` lies inside a plane (R79). -/
def State.fits (s : State) (plane w h : Nat) : Prop :=
  s.blockX + w ≤ s.planeW plane ∧ s.blockY + h ≤ s.planeH plane

/-- `WH` names a square block of side 4, 8 or 16 (R250). -/
def State.squareBlock (s : State) : Prop := s.blockW = s.blockH ∧ (s.blockW = 4 ∨ s.blockW = 8 ∨ s.blockW = 16)

/-- A side `MC` takes (R271). -/
def motionSize (n : Nat) : Prop := n = 2 ∨ n = 4 ∨ n = 8 ∨ n = 16

/-- Bytes that are the samples of `chans` channels, `count` each: sample by sample, inside a sample channel by channel, the low byte
of the two's-complement pattern first (R302). -/
def holdsSamples (pcm : List Byte) (chans count : Nat) (x : Nat → Nat → Int) : Prop :=
  pcm.length = 2 * chans * count ∧ ∀ i < count, ∀ c < chans,
    pcm[2 * (i * chans + c)]? = some (BitVec.ofInt 8 (x c i % 65536 % 256)) ∧
    pcm[2 * (i * chans + c) + 1]? = some (BitVec.ofInt 8 (x c i % 65536 / 256))

/-- The signed 16-bit number in two bytes, in either byte order (R309, R313). -/
def int16At (bigEndian : Bool) (bytes : List Byte) (offset : Nat) : Int :=
  let first := (bytes.getD offset 0#8).toNat
  let second := (bytes.getD (offset + 1) 0#8).toNat
  signedValue 16 (if bigEndian then 256 * first + second else first + 256 * second)

/-- The first and the second nibble of a byte (R309, R314). -/
def nibbleAt (lowFirst : Bool) (b : Byte) (i : Nat) : Nat :=
  if lowFirst = decide (i % 2 = 0) then b.toNat % 16 else b.toNat / 16

/-- The 89 step sizes as the spec prints them (R306). -/
def stepTable : List Nat :=
  [7, 8, 9, 10, 11, 12, 13, 14, 16, 17] ++ [19, 21, 23, 25, 28, 31, 34, 37, 41, 45] ++
  [50, 55, 60, 66, 73, 80, 89, 97, 107, 118] ++ [130, 143, 157, 173, 190, 209, 230, 253, 279, 307] ++
  [337, 371, 408, 449, 494, 544, 598, 658, 724, 796] ++ [876, 963, 1060, 1166, 1282, 1411, 1552, 1707, 1878, 2066] ++
  [2272, 2499, 2749, 3024, 3327, 3660, 4026, 4428, 4871, 5358] ++
  [5894, 6484, 7132, 7845, 8630, 9493, 10442, 11487, 12635, 13899] ++
  [15289, 16818, 18500, 20350, 22385, 24623, 27085, 29794, 32773]

/-- Nibble `i` of channel `c`, after `4 * C` header bytes and in subframes of 128 bytes a channel (R305, R309). -/
def imaNibble (k : ImaParams) (bytes : List Byte) (chans c i : Nat) : Nat :=
  nibbleAt k.nibbleLowFirst (bytes.getD (4 * chans + 128 * chans * (i / 256) + 128 * c + i % 256 / 2) 0#8) i

/-- The first `count` samples `x` of channel `c` and its step indices `idx` run as R305 says: from the predictor and index of header `h`
each nibble moves the predictor by `IMA_DIFF` of the nibble and the step, clamped to 16 bits, and the index by `IMA_INDEX` of its low
three bits, clamped to 0..88. -/
structure ImaSamples (k : ImaParams) (bytes : List Byte) (chans count c h : Nat) (x idx : Nat → Int) : Prop where
  start : idx 0 = int16At k.bigEndian bytes (4 * h + 2)
  sample : ∀ i < count, x i = max (-32768) (min 32767
    ((if i = 0 then int16At k.bigEndian bytes (4 * h) else x (i - 1)) +
      k.diff (imaNibble k bytes chans c i) (stepTable.getD (idx i).toNat 0)))
  index : ∀ i < count, idx (i + 1) = max 0 (min 88 (idx i + k.index (imaNibble k bytes chans c i % 8)))

/-- Header number `c` is there, and its step index is one of the table's (R305). -/
def imaHeaderGood (k : ImaParams) (bytes : List Byte) (c : Nat) : Prop :=
  4 * c + 4 ≤ bytes.length ∧ 0 ≤ int16At k.bigEndian bytes (4 * c + 2) ∧ int16At k.bigEndian bytes (4 * c + 2) ≤ 88

/-- How many samples a channel part decodes to before the warm-up is dropped (R316). -/
def dspCount (part : List Byte) : Nat := 14 * ((part.length - 38) / 8) + 2 * ((part.length - 38) % 8 - 1)

/-- A channel part with a whole header and group headers that name pairs 0 to 7 (R311, R315). -/
def dspPartGood (part : List Byte) : Prop :=
  38 ≤ part.length ∧ ∀ g b, part[38 + 8 * g]? = some b → b.toNat / 16 < 8

/-- The decoded samples `y` of a channel part follow R312, warm-up included: 14 of a group, each the prediction from the two samples
before it with the group's coefficient pair plus the signed nibble times the group's scale, clamped to 16 bits. -/
def dspSamples (k : DspParams) (part : List Byte) (y : Nat → Int) : Prop :=
  ∀ i < dspCount part,
    let head := (part.getD (38 + 8 * (i / 14)) 0#8).toNat
    let nib := nibbleAt (!k.nibbleHighFirst) (part.getD (38 + 8 * (i / 14) + 1 + i % 14 / 2) 0#8) i
    let h1 := if i = 0 then int16At k.bigEndian part 34 else y (i - 1)
    let h2 := if i = 0 then int16At k.bigEndian part 36 else if i = 1 then int16At k.bigEndian part 34 else y (i - 2)
    let c1 := int16At k.bigEndian part (4 * (head / 16))
    let c2 := int16At k.bigEndian part (4 * (head / 16) + 2)
    y i = max (-32768) (min 32767 ((1024 + c1 * h1 + c2 * h2) / 2048 + signedValue 4 nib * 2 ^ (head % 16)))

/-- The state with only `FAULT` changed (R340, R341 a). -/
def State.faultedWith (s : State) (f : FaultKind) (info : Int) : State := { s with fault := faultWord f info }

/-- The opcodes of the opcode map with the must-be-zero bits of their formats (R101, R104). -/
def opcodeMap : List (BitVec 8 × BitVec 24) :=
  [(0x01#8, 0xFFFFFF#24), (0x02#8, 0x000000#24), (0x03#8, 0xFFFFFF#24), (0x04#8, 0xFFFFFF#24), (0x10#8, 0xFFFFFF#24),
   (0x11#8, 0xFFFFC0#24), (0x12#8, 0xFFFFC0#24), (0x13#8, 0xFFFFFF#24), (0x14#8, 0xFFFFFF#24), (0x15#8, 0xFFFFFF#24),
   (0x18#8, 0xFFFF00#24), (0x20#8, 0xFFFFC0#24), (0x21#8, 0xFFFFFF#24), (0x22#8, 0xFFFFC0#24), (0x23#8, 0xFFFFC0#24),
   (0x30#8, 0xFFFFC0#24), (0x31#8, 0xFFFFFF#24), (0x32#8, 0xFFFFC0#24), (0x40#8, 0xFFFFC0#24), (0x41#8, 0xFFFFFF#24),
   (0x42#8, 0xFFFFFF#24), (0x43#8, 0xFFFFFF#24), (0x44#8, 0xFFFFFF#24), (0x45#8, 0xFFFFFF#24), (0x46#8, 0xFFFFFF#24),
   (0x50#8, 0xFFF000#24), (0xF0#8, 0xFFFFFF#24)]

/-- The rows of opcode_table.json as (mask, match) (R111). -/
def opcodeTable : List (Word × Word) :=
  opcodeMap.map fun r => (0xFF#8 ++ r.2, r.1 ++ 0#24)

/-- The faults each command can raise (R332), with test 4 of R111. -/
def faultsOf : Instr → List FaultKind
  | .readU8 => [.truncatedStream]
  | .readBytes _ => [.truncatedStream]
  | .resetBits => []
  | .seek => []
  | .popBit => [.truncatedStream]
  | .popInt _ => [.truncatedStream, .badOperand]
  | .popSint _ => [.truncatedStream, .badOperand]
  | .popLength => [.truncatedStream]
  | .popUe => [.truncatedStream, .golombRange]
  | .popSe => [.truncatedStream, .golombRange]
  | .popVlc _ => [.truncatedStream, .malformedVlc]
  | .setQuant _ => []
  | .addQuant => [.notInitialised, .quantRange]
  | .setDcttab _ => [.badOperand]
  | .coef _ _ => [.notInitialised, .badOperand, .planeBounds, .truncatedStream, .malformedVlc, .coefOverrun]
  | .ipred _ _ => [.notInitialised, .badOperand, .planeBounds]
  | .pmodeReset => [.notInitialised]
  | .ipredP _ _ => [.notInitialised, .badOperand, .planeBounds, .truncatedStream, .malformedVlc]
  | .mc _ _ => [.notInitialised, .badOperand, .refInvalid, .planeBounds]
  | .rotate => [.notInitialised]
  | .emitFrame => [.notInitialised, .refInvalid]
  | .mvpReset => [.notInitialised]
  | .mvpRefresh => [.notInitialised, .badOperand]
  | .mvpSet => [.notInitialised, .badOperand]
  | .median3 => []
  | .adec _ _ => [.unsupportedCodec, .notImplemented, .badOperand, .truncatedStream, .badAudioData]
  | .resetUnit => []

/-- The commands that read `A0` (R22). -/
def readsA0 : Instr → Bool
  | .seek | .addQuant | .coef _ _ | .ipred _ _ | .ipredP _ _ | .mc _ _ | .mvpRefresh | .mvpSet | .median3 => true
  | _ => false

/-- The commands that read `A1` (R22). -/
def readsA1 : Instr → Bool
  | .ipred _ _ | .ipredP _ _ | .mc _ _ | .mvpSet | .median3 => true
  | _ => false

/-- The commands that read `A2` (R22). -/
def readsA2 : Instr → Bool
  | .mc _ _ | .median3 => true
  | _ => false

/-- The commands that write `RET0` (R22). -/
def writesRet0 : Instr → Bool
  | .readU8 | .popBit | .popInt _ | .popSint _ | .popLength | .popUe | .popSe | .popVlc _ | .coef _ _ | .ipredP _ _ | .mvpRefresh
  | .median3 | .adec _ _ => true
  | _ => false

/-- The commands that can move `POS` (R24). -/
def movesPos : Instr → Bool
  | .readU8 | .readBytes _ | .seek | .popBit | .popInt _ | .popSint _ | .popLength | .popUe | .popSe | .popVlc _ | .coef _ _
  | .ipredP _ _ | .adec _ _ => true
  | _ => false

/-- The commands that pop bits, and so can move `BITPOS` and refill `WIN` (R24). -/
def popsBits : Instr → Bool
  | .popBit | .popInt _ | .popSint _ | .popLength | .popUe | .popSe | .popVlc _ | .coef _ _ | .ipredP _ _ => true
  | _ => false

/-- The commands that append to `OUT` (R42). -/
def appendsOut : Instr → Bool
  | .readBytes _ | .emitFrame | .adec _ _ => true
  | _ => false

/-- The commands that write plane bytes (R80). -/
def writesPlanes : Instr → Bool
  | .coef _ _ | .ipred _ _ | .ipredP _ _ | .mc _ _ => true
  | _ => false

/-- What R50 says of a state after reset: everything it gives a value. -/
structure AtReset (s : State) : Prop where
  cursor : s.pos = 0#32 ∧ s.bitpos = 0#4
  control : s.w16 = false ∧ s.le = false ∧ s.len = 0#28 ∧ s.frame = 0#32
  clear : s.fault = 0#32 ∧ s.outcnt = 0#32 ∧ s.out = []
  quant : s.quantQ = 0#6 ∧ s.dctTab = false
  ring : s.cur = 0 ∧ s.valid = 0#6
  init : s.qv = false ∧ s.mvpv = false ∧ s.pmcv = false ∧ s.framev = false
  status : s.regRead .word 0x04 = 6#32

end Sys2Proof.Machine
end

