-- ==== Sys2Proof/Certificates/Slice0/Obligations.lean ====
section
/-! DEFINITION. The statements for the provers, each a claim of the spec's rules about the machine. -/

open Sys2Proof Sys2Proof.Machine

/-- Words of every family, written out from the formats and the opcode map (R101, R104, R130), decode to their commands. -/
def Obligations.SpecWordsDecode : Prop :=
  decode 0x01000000#32 = .ok .readU8 ∧ decode 0x02000400#32 = .ok (.readBytes 1024#24) ∧ decode 0x04000000#32 = .ok .seek ∧
  decode 0x1100000D#32 = .ok (.popInt 13#6) ∧ decode 0x1200000C#32 = .ok (.popSint 12#6) ∧
  decode 0x18000007#32 = .ok (.popVlc 7#8) ∧ decode 0x20000014#32 = .ok (.setQuant 20#6) ∧
  decode 0x23000021#32 = .ok (.coef 1#4 2#2) ∧ decode 0x30000013#32 = .ok (.ipred 3#4 1#2) ∧
  decode 0x40000025#32 = .ok (.mc 5#4 2#2) ∧ decode 0x46000000#32 = .ok .median3 ∧
  decode 0x50000012#32 = .ok (.adec 2#4 1#8) ∧ decode 0x50000FF1#32 = .ok (.adec 1#4 255#8) ∧
  decode 0xF0000000#32 = .ok .resetUnit ∧ decode 0x00000000#32 = .error (.illegalCommand 0#8) ∧
  decode 0xF0000001#32 = .error .badOperand ∧ decode 0x11000040#32 = .error .badOperand

/-- Every command, with every immediate its fields admit, decodes from its own word (R101, R104, R130), so that no bit is dropped, and
from no other word. -/
def Obligations.DecodeEncodeAgree : Prop := ∀ (i : Instr) (w : Word), decode w = .ok i ↔ w = encode i

/-- A word decodes exactly when it selects a row of the opcode table by `(c & mask) == match`, and it selects at most one (R111). -/
def Obligations.DecodeSelectsRow : Prop :=
  (∀ w : Word, (∃ i, decode w = .ok i) ↔ ∃ r ∈ opcodeTable, w &&& r.1 = r.2) ∧
  (∀ w : Word, ∀ r ∈ opcodeTable, ∀ q ∈ opcodeTable, w &&& r.1 = r.2 → w &&& q.1 = q.2 → r = q)

/-- The order of the tests on a word written to `CMD` (R110, R111, R338): refusal while faulted, the opcode, the must-be-zero bits,
the range of a format N immediate, and then the command itself. -/
def Obligations.DecodingOrder : Prop :=
  ∀ (w : Word) (s : State),
    (s.faulted = true → opField w ≠ 0xF0#8 → command w s = .next s) ∧
    (s.faulted = false → (∀ r ∈ opcodeMap, r.1 ≠ opField w) →
      command w s = .next (s.faultedWith .illegalCommand (opField w).toNat)) ∧
    (∀ r ∈ opcodeMap, r.1 = opField w → immField w &&& r.2 ≠ 0#24 →
      command w s = .next (if s.faulted then s else s.faultedWith .badOperand 0)) ∧
    (∀ r ∈ opcodeMap, r.1 = opField w → immField w &&& r.2 = 0#24 → ∃ i, encode i = w ∧ command w s = exec i s) ∧
    (s.faulted = false → ∀ n : BitVec 6,
      (32 < n.toNat → exec (.popInt n) s = .next (s.faultedWith .badOperand 0)) ∧
      (n.toNat = 0 ∨ 32 < n.toNat → exec (.popSint n) s = .next (s.faultedWith .badOperand 0)) ∧
      (1 < n.toNat → exec (.setDcttab n) s = .next (s.faultedWith .badOperand 0)))

/-- The layout of `FAULT` after a fault (R26, R340) with the codes of R331. -/
def Obligations.FaultWordLayout : Prop :=
  ∀ (f : FaultKind) (info : Int),
    (faultWord f info).extractLsb' 0 8 = f.code ∧ (((faultWord f info).extractLsb' 8 24).toNat : Int) = info % 2 ^ 24 ∧
    (f, f.code.toNat) ∈ [(FaultKind.unsupportedFormat, 1), (.unsupportedCodec, 2), (.malformedChunk, 3), (.malformedPacket, 4),
      (.truncatedStream, 5), (.malformedVlc, 6), (.illegalCommand, 16), (.badOperand, 17), (.quantRange, 18), (.coefOverrun, 19),
      (.refInvalid, 20), (.planeBounds, 21), (.notImplemented, 22), (.golombRange, 23), (.notInitialised, 24), (.badAudioData, 25)]

/-- While faulted nothing but a reset changes the block (R342, R345, R346, R78): every word written to `CMD` but that of `RESET_UNIT`, one
of opcode 0xF0 with a must-be-zero bit set too, every register write and every write that is no aligned word change nothing at all;
reads work as always; placing a byte of the source and consuming output change only that, which is the host's; and the only moves
after which it is not faulted are `RESET_UNIT` and hardware reset. That what the host has consumed is a count beside `OUT`, and what it
read a variable, is the model's choice (log entry 18, DESIGN CHOICE), and so are the bytes of the source (log entry 3). -/
def Obligations.OnlyResetLeavesFault : Prop :=
  ∀ s : State, s.faulted = true →
    (∀ w, w ≠ 0xF0000000#32 → hostMove (.write .word 0 w) s = .next s) ∧
    (∀ width off v, width ≠ .word ∨ off ≠ 0 → hostMove (.write width off v) s = .next s) ∧
    (∀ width off, hostMove (.read width off) s = .next { s with hostVal := s.regRead width off }) ∧
    (∀ addr v, ∃ t, hostMove (.place addr v) s = .next t ∧ t = { s with source := t.source }) ∧
    (∀ n, ∃ t, hostMove (.consume n) s = .next t ∧ t = { s with taken := t.taken }) ∧
    (∀ m t, hostMove m s = .next t → t.faulted = false → m = .hardReset ∨ m = .write .word 0 0xF0000000#32) ∧
    (∀ m t, hostMove m s = .next t → t.faulted = true → t.fault = s.fault)

/-- A command that faults leaves in `FAULT` a fault its row of R332 lists (with test 4 of R111), and nothing else is raised. -/
def Obligations.FaultsPerCommand : Prop :=
  ∀ (i : Instr) (s t : State), s.faulted = false → exec i s = .next t →
    t.fault = 0#32 ∨ ∃ f ∈ faultsOf i, ∃ info, t.fault = faultWord f info

/-- One step with a command word as the host's next move is that command on the state without the move (R6, R100); the same said of
the word put there by `withFetchWord`. That the host's moves stand in a queue is the model's choice (log entry 1, DESIGN CHOICE). -/
def Obligations.StepRunsDecodedCommand : Prop :=
  ∀ (s : State) (w : Word) (rest : List HostMove) (i : Instr), decode w = .ok i →
    (s.script = .write .word 0 w :: rest → step s = exec i { s with script := rest }) ∧
    (∀ nbits, step (s.withFetchWord nbits w.toNat) = exec i s)

/-- `READ_U8` (R143): the byte at `POS` zero-extended into `RET0`, `POS` one on. `READ_BYTES cnt` (R144): the bytes in address order at the
end of `OUT`, `OUTCNT` and `POS` moved on by `cnt`; `cnt = 0` never faults. Nothing else changes; past the end nothing but the fault
(R141, R142). -/
def Obligations.ByteReads : Prop :=
  ∀ (cnt : BitVec 24) (s : State), s.faulted = false →
    (s.pos.toNat < s.len.toNat →
      exec .readU8 s = .next { s with ret0 := (s.sourceByte s.pos.toNat).setWidth 32, pos := s.pos + 1#32 }) ∧
    (s.len.toNat ≤ s.pos.toNat → exec .readU8 s = .next (s.faultedWith .truncatedStream (s.pos.toNat % 2 ^ 24 : Nat))) ∧
    (cnt = 0#24 ∨ s.pos.toNat + cnt.toNat ≤ s.len.toNat →
      exec (.readBytes cnt) s = .next { s with
        out := s.out ++ (List.range cnt.toNat).map fun i => s.sourceByte (s.pos.toNat + i)
        outcnt := s.outcnt + cnt.setWidth 32
        pos := s.pos + cnt.setWidth 32 }) ∧
    (cnt ≠ 0#24 → s.len.toNat < s.pos.toNat + cnt.toNat →
      exec (.readBytes cnt) s = .next (s.faultedWith .truncatedStream (s.pos.toNat % 2 ^ 24 : Nat)))

/-- `RESET_BITS` and `SEEK` (R145, R146): the cursor registers they write and nothing else; neither faults. That `WIN` too is unchanged is
the model's choice where U2 leaves it any value (log entry 7, DEDUCED). -/
def Obligations.RealignAndSeek : Prop :=
  ∀ s : State, s.faulted = false →
    exec .resetBits s = .next { s with bitpos := 0#4 } ∧ exec .seek s = .next { s with pos := s.a0, bitpos := 0#4 }

/-- `POP_BIT` (R162, R161): from a window that still holds bits; from an exhausted one with a refill, in each window mode; and the
truncated stream, where nothing moves. -/
def Obligations.PopBitResult : Prop :=
  ∀ s : State, s.faulted = false → s.bitpos.toNat < windowWidth s.w16 →
    (s.bitpos ≠ 0#4 → exec .popBit s = .next { s with
      bitpos := BitVec.ofNat 4 ((s.bitpos.toNat + 1) % windowWidth s.w16)
      ret0 := BitVec.ofNat 32 (s.win.getLsbD (windowWidth s.w16 - 1 - s.bitpos.toNat)).toNat }) ∧
    (s.bitpos = 0#4 → s.pos.toNat + windowWidth s.w16 / 8 ≤ s.len.toNat → exec .popBit s = .next { s with
      pos := s.pos + BitVec.ofNat 32 (windowWidth s.w16 / 8)
      bitpos := 1#4
      win := s.windowAt s.pos.toNat
      ret0 := BitVec.ofNat 32 ((s.windowAt s.pos.toNat).getLsbD (windowWidth s.w16 - 1)).toNat }) ∧
    (s.bitpos = 0#4 → s.len.toNat < s.pos.toNat + windowWidth s.w16 / 8 →
      exec .popBit s = .next (s.faultedWith .truncatedStream (s.pos.toNat % 2 ^ 24 : Nat)))

/-- `POP_INT n` (R164, R71, R72): the next `n` bits as an unsigned number, most significant first, the cursor `n` bits on, nothing else;
`n > 32` is `BadOperand`; too few bits is `TruncatedStream` with the `POS` of the refill that failed. -/
def Obligations.PopIntResult : Prop :=
  ∀ (n : BitVec 6) (s : State), s.faulted = false → s.bitpos.toNat < windowWidth s.w16 →
    (n.toNat ≤ 32 → n.toNat ≤ s.unread →
      exec (.popInt n) s = .next { s.popped n.toNat with ret0 := BitVec.ofNat 32 (s.nextBits n.toNat) }) ∧
    (32 < n.toNat → exec (.popInt n) s = .next (s.faultedWith .badOperand 0)) ∧
    (n.toNat ≤ 32 → s.unread < n.toNat → ∃ t, exec (.popInt n) s = .next t ∧ t.fault = s.outOfBits)

/-- The concatenation law (R165): one field of `a + c` bits is two of `a` and `c`, value, cursor and faults alike; and `SKIP_BITS n`
moves the cursor exactly `n` bits on. -/
def Obligations.ConcatenationLaw : Prop :=
  (∀ (src : Src) (a c : Nat), popInt src (a + c) =
    microBind (popInt src a) fun hi => microBind (popInt src c) fun lo => microPure (hi * 2 ^ c + lo)) ∧
  (∀ (n : Nat) (s : State), s.faulted = false → s.bitpos.toNat < windowWidth s.w16 → n ≤ s.unread →
    ∃ v, skipBits n s = { s.popped n with ret0 := v })

/-- `POP_SINT n` (R166, R167): the next `n` bits as a two's-complement number, sign-extended into `RET0`. -/
def Obligations.PopSintResult : Prop :=
  ∀ (n : BitVec 6) (s : State), s.faulted = false → s.bitpos.toNat < windowWidth s.w16 →
    (1 ≤ n.toNat → n.toNat ≤ 32 → n.toNat ≤ s.unread →
      exec (.popSint n) s = .next { s.popped n.toNat with ret0 := BitVec.ofInt 32 (signedValue n.toNat (s.nextBits n.toNat)) }) ∧
    (n.toNat = 0 ∨ 32 < n.toNat → exec (.popSint n) s = .next (s.faultedWith .badOperand 0)) ∧
    (1 ≤ n.toNat → n.toNat ≤ 32 → s.unread < n.toNat → ∃ t, exec (.popSint n) s = .next t ∧ t.fault = s.outOfBits)

/-- `POP_LENGTH` (R169): one more than the zeros before the next 1 bit, which is consumed; no 1 bit left is `TruncatedStream`. -/
def Obligations.PopLengthResult : Prop :=
  ∀ s : State, s.faulted = false → s.bitpos.toNat < windowWidth s.w16 →
    (∀ z, s.unary z → exec .popLength s = .next { s.popped (z + 1) with ret0 := BitVec.ofNat 32 (z + 1) }) ∧
    (s.onlyZeros → ∃ t, exec .popLength s = .next t ∧ t.fault = s.outOfBits)

/-- `POP_UE` (R171, R116): `suffix + 2^(len-1) - 1` from a prefix of length `len = z + 1` and `z` suffix bits; a prefix longer than 32 is
`GolombRange`; bits that run out are `TruncatedStream`. That the info of `GolombRange` is the length's low 24 bits for a prefix of 2^24
or more too is R331, which the model follows over R171's pseudocode (log entry 31, DEDUCED). -/
def Obligations.PopUeResult : Prop :=
  ∀ s : State, s.faulted = false → s.bitpos.toNat < windowWidth s.w16 →
    (∀ z, s.unary z → z < 32 → 2 * z + 1 ≤ s.unread →
      exec .popUe s = .next { s.popped (2 * z + 1) with ret0 := BitVec.ofNat 32 (s.golombValue z) }) ∧
    (∀ z, s.unary z → 32 ≤ z →
      ∃ t, exec .popUe s = .next t ∧ t.fault = faultWord .golombRange ((z + 1) % 2 ^ 24 : Nat)) ∧
    (∀ z, s.unary z → z < 32 → s.unread < 2 * z + 1 → ∃ t, exec .popUe s = .next t ∧ t.fault = s.outOfBits) ∧
    (s.onlyZeros → ∃ t, exec .popUe s = .next t ∧ t.fault = s.outOfBits)

/-- `POP_UE` undoes the canonical encoder (R172, R116): `x + 1` in `m` bits without leading zeros, after `m - 1` zeros, decodes to `x`
and exactly `2 * m - 1` bits are consumed, for every `x` up to 2^32 - 2. -/
def Obligations.PopUeUndoesEncoder : Prop :=
  ∀ (s : State) (x m : Nat), s.faulted = false → s.bitpos.toNat < windowWidth s.w16 → x ≤ 2 ^ 32 - 2 → 1 ≤ m →
    2 ^ (m - 1) ≤ x + 1 → x + 1 < 2 ^ m → 2 * m - 1 ≤ s.unread → s.nextBits (2 * m - 1) = x + 1 →
    exec .popUe s = .next { s.popped (2 * m - 1) with ret0 := BitVec.ofNat 32 x }

/-- `POP_SE` (R174, R117): the unsigned value unmapped, odd to the positive and even to the negative half; faults as `POP_UE`, the info of
`GolombRange` by R331 too (log entry 31, DEDUCED). -/
def Obligations.PopSeResult : Prop :=
  ∀ s : State, s.faulted = false → s.bitpos.toNat < windowWidth s.w16 →
    (∀ z, s.unary z → z < 32 → 2 * z + 1 ≤ s.unread →
      exec .popSe s = .next { s.popped (2 * z + 1) with ret0 := BitVec.ofInt 32 (unmapped (s.golombValue z)) }) ∧
    (∀ z, s.unary z → 32 ≤ z →
      ∃ t, exec .popSe s = .next t ∧ t.fault = faultWord .golombRange ((z + 1) % 2 ^ 24 : Nat)) ∧
    (∀ z, s.unary z → z < 32 → s.unread < 2 * z + 1 → ∃ t, exec .popSe s = .next t ∧ t.fault = s.outOfBits) ∧
    (s.onlyZeros → ∃ t, exec .popSe s = .next t ∧ t.fault = s.outOfBits)

/-- `POP_SE` undoes the signed encoder (R175, R117): `k = 2v - 1` for `v > 0`, `k = -2v` otherwise, and then the canonical encoder, for
every `v` from -(2^31 - 1) to 2^31 - 1. -/
def Obligations.PopSeUndoesEncoder : Prop :=
  ∀ (s : State) (v : Int) (m : Nat), s.faulted = false → s.bitpos.toNat < windowWidth s.w16 → -(2 ^ 31 - 1) ≤ v → v ≤ 2 ^ 31 - 1 →
    1 ≤ m → 2 ^ (m - 1) ≤ zigzagCode v + 1 → zigzagCode v + 1 < 2 ^ m → 2 * m - 1 ≤ s.unread →
    s.nextBits (2 * m - 1) = zigzagCode v + 1 →
    exec .popSe s = .next { s.popped (2 * m - 1) with ret0 := BitVec.ofInt 32 v }

/-- `POP_VLC t` (R194, R196): the symbol at `2^d + c` for the least `d` up to the table's depth whose first `d` bits `c` make a key, with
exactly `d` bits consumed; no key to the depth is `MalformedVLC`, for an empty table before any bit is popped, with nothing else
changed (R341 a); bits that run out first are `TruncatedStream`. -/
def Obligations.PopVlcResult : Prop :=
  ∀ (t : BitVec 8) (s : State), s.faulted = false → s.bitpos.toNat < windowWidth s.w16 →
    (∀ d sym, 1 ≤ d → d ≤ tableDepth s.rom.vlc t → d ≤ s.unread →
      tableLookup s.rom.vlc t (2 ^ d + s.nextBits d) = some sym →
      (∀ e, 1 ≤ e → e < d → tableLookup s.rom.vlc t (2 ^ e + s.nextBits e) = none) →
      exec (.popVlc t) s = .next { s.popped d with ret0 := sym }) ∧
    ((∀ e, 1 ≤ e → e ≤ tableDepth s.rom.vlc t → e ≤ s.unread → tableLookup s.rom.vlc t (2 ^ e + s.nextBits e) = none) →
      ∃ u, exec (.popVlc t) s = .next u ∧
        u.fault = if tableDepth s.rom.vlc t ≤ s.unread then faultWord .malformedVlc t.toNat else s.outOfBits) ∧
    (tableDepth s.rom.vlc t = 0 → exec (.popVlc t) s = .next (s.faultedWith .malformedVlc t.toNat))

/-- `SET_QUANT q` and `SET_DCTTAB b` (R212, R214): what they write, and nothing else. -/
def Obligations.SetQuantAndDcttab : Prop :=
  ∀ s : State, s.faulted = false →
    (∀ q, exec (.setQuant q) s = .next { s with quantQ := q, qt4 := qtab4 q, qt8 := qtab8 q, qv := true }) ∧
    exec (.setDcttab 0#6) s = .next { s with dctTab := false } ∧ exec (.setDcttab 1#6) s = .next { s with dctTab := true } ∧
    (∀ n : BitVec 6, 1 < n.toNat → exec (.setDcttab n) s = .next (s.faultedWith .badOperand 0))

/-- `ADD_QUANT` (R213): without a quantizer `NotInitialised`; a sum inside 0 to 63 is the new quantizer with its tables; a sum outside
is `QuantRange` with the low 24 bits of the sum, and nothing else changes. -/
def Obligations.AddQuantResult : Prop :=
  ∀ s : State, s.faulted = false →
    (s.qv = false → exec .addQuant s = .next (s.faultedWith .notInitialised 0)) ∧
    (∀ q : BitVec 6, s.qv = true → (q.toNat : Int) = s.quantQ.toNat + s.a0.toInt →
      exec .addQuant s = .next { s with quantQ := q, qt4 := qtab4 q, qt8 := qtab8 q }) ∧
    (s.qv = true → (s.quantQ.toNat : Int) + s.a0.toInt < 0 ∨ 63 < (s.quantQ.toNat : Int) + s.a0.toInt →
      exec .addQuant s = .next (s.faultedWith .quantRange (s.quantQ.toNat + s.a0.toInt)))

/-- What a model may rely on of `QTAB` (R211), whatever its contents: both tables have one entry per cell of the block, every cell is
some position's, position 0 is the DC cell, and the cells do not depend on the quantizer. -/
def Obligations.ScanIsBijection : Prop :=
  ∀ q p : BitVec 6,
    ((qtab4 q).length = 16 ∧ (∀ e ∈ qtab4 q, e.row < 4 ∧ e.col < 4) ∧
      (∀ r c, r < 4 → c < 4 → ∃ e ∈ qtab4 q, e.row = r ∧ e.col = c) ∧
      (∃ sh, (qtab4 q)[0]? = some ⟨0, 0, sh⟩) ∧
      (qtab4 q).map (fun e => (e.row, e.col)) = (qtab4 p).map (fun e => (e.row, e.col))) ∧
    ((qtab8 q).length = 64 ∧ (∀ e ∈ qtab8 q, e.row < 8 ∧ e.col < 8) ∧
      (∀ r c, r < 8 → c < 8 → ∃ e ∈ qtab8 q, e.row = r ∧ e.col = c) ∧
      (∃ sh, (qtab8 q)[0]? = some ⟨0, 0, sh⟩) ∧
      (qtab8 q).map (fun e => (e.row, e.col)) = (qtab8 p).map (fun e => (e.row, e.col)))

/-- A coefficient symbol (R216, R217, R193): `COEF` walks the table `DCTTAB` names, and a fault of that walk is its own; a symbol of tables
0 and 1 has bits 31:19 zero, `level` in bits 11:0, `run` in 17:12, `last` in 18; a nonzero level is a plain symbol of these, whose sign
the OPEN code gives; a zero level is an escape along the path the OPEN code selects, the raw one with this `last` at hand (C2). Which
sign and which path is OPEN (log entries 9, 10); that the codes are read as bits after the symbol is their form there. -/
def Obligations.CoefSymbolFields : Prop :=
  (∀ (sel : BitVec 4) (plane : BitVec 2) (s : State), s.faulted = false → s.framev = true → s.qv = true → plane ≠ 3#2 →
    (sel = 0#4 ∧ s.fits plane.toNat 4 4 ∨ sel = 1#4 ∧ s.fits plane.toNat 8 8) →
    ∀ f info b, popVlc s.src s.rom.vlc (if s.dctTab then 1#8 else 0#8) s.bsu = .fault f info b →
      ∃ t, exec (.coef sel plane) s = .next t ∧ t.fault = faultWord f info) ∧
  (∀ (k : CoefParams) (src : Src) (rom : Rom) (tab : BitVec 8) (sym : Word) (b b1 : Bsu), tab.toNat < 2 →
    popVlc src rom.vlc tab b = .ok sym b1 →
    sym.toNat < 2 ^ 19 ∧
    ∃ key, tableLookup rom.vlc tab key = some sym ∧
      (sym.toNat % 2 ^ 12 ≠ 0 → ∀ negative b2, popCode src (signCodeOf k rom tab key) b1 = .ok negative b2 →
        coefSymbol k src rom tab b = .ok ⟨decide (sym.toNat / 2 ^ 18 = 1), sym.toNat / 2 ^ 12 % 2 ^ 6,
          if negative then -((sym.toNat % 2 ^ 12 : Nat) : Int) else (sym.toNat % 2 ^ 12 : Nat)⟩ b2) ∧
      (sym.toNat % 2 ^ 12 = 0 → ∀ path b2, popCode src (escapeCodeOf k rom tab key) b1 = .ok path b2 →
        coefSymbol k src rom tab b = match path with
          | .residueLevel last run base => .ok ⟨last, run, base + levelResidueOf k rom tab run last⟩ b2
          | .residueRun last level base => .ok ⟨last, (base + runResidueOf k rom tab level last).toNat, level⟩ b2
          | .raw => rawEscape src k.role (decide (sym.toNat / 2 ^ 18 = 1)) b2))

/-- `COEF` (R215, R220, R223) on a stream that gives symbols of which only the last is marked so and all fall inside the block: the
coefficients placed and shifted, the DC biased by 32, the inverse transform added to the block and clamped to a byte, the number
of symbols in `RET0`, the cursor after them; every other plane byte and all other state as before. -/
def Obligations.CoefResult : Prop :=
  ∀ (sel : BitVec 4) (plane : BitVec 2) (s : State) (n : Nat) (qt : List QEntry) (it : List Word → List Word)
    (first : List CoefSym) (final : CoefSym) (b b' : Bsu) (m : List Word),
    s.faulted = false → s.framev = true → s.qv = true → plane ≠ 3#2 →
    (sel = 0#4 ∧ n = 4 ∧ qt = s.qt4 ∧ it = Config.it4 ∨ sel = 1#4 ∧ n = 8 ∧ qt = s.qt8 ∧ it = Config.it8) →
    s.fits plane.toNat n n →
    readsOn (coefSymbol coefParams s.src s.rom (if s.dctTab then 1#8 else 0#8)) first s.bsu b →
    coefSymbol coefParams s.src s.rom (if s.dctTab then 1#8 else 0#8) b = .ok final b' → final.last = true →
    placeSymbols qt n 0 (List.replicate (n * n) 0#32) (first ++ [final]) = some m →
    ∃ t, exec (.coef sel plane) s = .next t ∧
      t = { s.setBsu b' with planes := t.planes, ret0 := BitVec.ofNat 32 (first.length + 1) } ∧
      ∀ slot p r c, inStore slot p r c →
        (slot = s.cur.val ∧ p = plane.toNat ∧ inBlock s.blockX s.blockY n n r c →
          ((t.pixel slot p r c).toNat : Int) = max 0 (min 255 ((s.pixel slot p r c).toNat +
            (cell n (inverseTransform it Config.resShift n (m.set 0 (m.getD 0 0#32 + 32#32)))
              (r - s.blockY) (c - s.blockX)).toInt))) ∧
        (¬ (slot = s.cur.val ∧ p = plane.toNat ∧ inBlock s.blockX s.blockY n n r c) → t.pixel slot p r c = s.pixel slot p r c)

/-- `COEF` on a stream that goes wrong (R215, R331): a symbol whose position is at or beyond the block is `CoefOverrun` with that
position; a fault of a symbol's pops is the command's. -/
def Obligations.CoefStreamFaults : Prop :=
  ∀ (sel : BitVec 4) (plane : BitVec 2) (s : State) (n : Nat) (qt : List QEntry) (first : List CoefSym) (b : Bsu) (m : List Word),
    s.faulted = false → s.framev = true → s.qv = true → plane ≠ 3#2 →
    (sel = 0#4 ∧ n = 4 ∧ qt = s.qt4 ∨ sel = 1#4 ∧ n = 8 ∧ qt = s.qt8) → s.fits plane.toNat n n →
    readsOn (coefSymbol coefParams s.src s.rom (if s.dctTab then 1#8 else 0#8)) first s.bsu b →
    placeSymbols qt n 0 (List.replicate (n * n) 0#32) first = some m →
    (∀ c b', coefSymbol coefParams s.src s.rom (if s.dctTab then 1#8 else 0#8) b = .ok c b' → n * n ≤ scanAfter first + c.run →
      ∃ t, exec (.coef sel plane) s = .next t ∧ t.fault = faultWord .coefOverrun (scanAfter first + c.run : Nat)) ∧
    (∀ f info b', coefSymbol coefParams s.src s.rom (if s.dctTab then 1#8 else 0#8) b = .fault f info b' →
      ∃ t, exec (.coef sel plane) s = .next t ∧ t.fault = faultWord f info)

/-- The raw 19-bit escape (R120, R219): bit 18 `f`, bits 17:12 the run, bits 11:0 the level as two's complement; `f` is `last`, or under
the other value of `ESC_F_ROLE` the level's sign, with `last` that of the VLC symbol that announced the escape (C2). -/
def Obligations.RawEscapeFields : Prop :=
  ∀ (src : Src) (b : Bsu) (announced : Bool), b.bitpos.toNat < windowWidth src.w16 → src.len < 2 ^ 28 → 19 ≤ bitsLeft src b →
    let field := streamValue src b 19
    let level := signedValue 12 (field % 2 ^ 12)
    rawEscape src .last announced b =
      .ok ⟨decide (field / 2 ^ 18 = 1), field / 2 ^ 12 % 2 ^ 6, level⟩ (cursorAfter src b 19) ∧
    rawEscape src .sign announced b =
      .ok ⟨announced, field / 2 ^ 12 % 2 ^ 6, if field / 2 ^ 18 = 1 then -level else level⟩ (cursorAfter src b 19)

/-- The two-dimensional inverse transform (R222), for any one-dimensional one: rows first, then columns, the element of column `i` at
row `j`, shifted right arithmetically. -/
def Obligations.InverseTransformOrder : Prop :=
  ∀ (it : List Word → List Word) (shift : BitVec 5) (n : Nat) (m : List Word) (j i : Nat), j < n → i < n →
    cell n (inverseTransform it shift n m) j i =
      ((it ((List.range n).map fun r => (it ((List.range n).map fun c => m.getD (r * n + c) 0#32)).getD i 0#32)).getD j
        0#32).sshiftRight shift.toNat

/-- `IPRED` (R251): the block in the current slot holds the mode's prediction; every other plane byte and all other state as before. -/
def Obligations.IpredResult : Prop :=
  ∀ (sel : BitVec 4) (plane : BitVec 2) (s : State), s.faulted = false → s.framev = true → sel.toNat ≤ 8 → plane ≠ 3#2 →
    s.squareBlock → s.fits plane.toNat s.blockW s.blockW →
    ∃ t, exec (.ipred sel plane) s = .next t ∧ t = { s with planes := t.planes } ∧
      ∀ slot p r c, inStore slot p r c →
        (slot = s.cur.val ∧ p = plane.toNat ∧ inBlock s.blockX s.blockY s.blockW s.blockW r c →
          t.pixel slot p r c =
            s.intraBlock sel.toNat plane.toNat s.blockW s.blockX s.blockY (r - s.blockY) (c - s.blockX)) ∧
        (¬ (slot = s.cur.val ∧ p = plane.toNat ∧ inBlock s.blockX s.blockY s.blockW s.blockW r c) →
          t.pixel slot p r c = s.pixel slot p r c)

/-- Intra mode 3 at the frame's origin fills the block with 128 (R254). -/
def Obligations.IpredDcOrigin : Prop :=
  ∀ (plane : BitVec 2) (s : State), s.faulted = false → s.framev = true → plane ≠ 3#2 → s.a0 = 0#32 → s.squareBlock →
    s.fits plane.toNat s.blockW s.blockW →
    ∃ t, exec (.ipred 3#4 plane) s = .next t ∧
      ∀ r c, r < s.blockW → c < s.blockW → t.pixel s.cur.val plane.toNat r c = 128#8

/-- The prediction of a block depends only on the mode, the geometry and the plane's pixels strictly above or left of it (R252 a). -/
def Obligations.IntraCausality : Prop :=
  ∀ (mode plane n x y : Nat) (s u : State), s.frame = u.frame →
    (∀ r c, r < y ∨ (c < x ∧ r < y + n) → r < s.planeH plane → c < s.planeW plane →
      s.pixel s.cur.val plane r c = u.pixel u.cur.val plane r c) →
    ∀ j i, s.intraBlock mode plane n x y j i = u.intraBlock mode plane n x y j i

/-- The checks of `COEF`, `IPRED` and `IPRED_P` before any bit is popped, in their order (R215, R251, R258, R338, R79); only `FAULT`
changes (R341 a). -/
def Obligations.BlockTraps : Prop :=
  ∀ (sel : BitVec 4) (plane : BitVec 2) (s : State), s.faulted = false →
    (s.framev = false ∨ s.qv = false → exec (.coef sel plane) s = .next (s.faultedWith .notInitialised 0)) ∧
    (s.framev = true → s.qv = true → 1 < sel.toNat ∨ plane = 3#2 → exec (.coef sel plane) s = .next (s.faultedWith .badOperand 0)) ∧
    (s.framev = true → s.qv = true → plane ≠ 3#2 → sel = 0#4 ∧ ¬ s.fits plane.toNat 4 4 ∨ sel = 1#4 ∧ ¬ s.fits plane.toNat 8 8 →
      exec (.coef sel plane) s = .next (s.faultedWith .planeBounds 0)) ∧
    (s.framev = false → exec (.ipred sel plane) s = .next (s.faultedWith .notInitialised 0)) ∧
    (s.framev = true → 8 < sel.toNat ∨ plane = 3#2 ∨ ¬ s.squareBlock →
      exec (.ipred sel plane) s = .next (s.faultedWith .badOperand 0)) ∧
    (s.framev = true → sel.toNat ≤ 8 → plane ≠ 3#2 → s.squareBlock → ¬ s.fits plane.toNat s.blockW s.blockW →
      exec (.ipred sel plane) s = .next (s.faultedWith .planeBounds 0)) ∧
    (s.framev = false ∨ s.pmcv = false → exec (.ipredP sel plane) s = .next (s.faultedWith .notInitialised 0)) ∧
    (s.framev = true → s.pmcv = true → sel ≠ 0#4 ∨ plane = 3#2 ∨ ¬ s.squareBlock →
      exec (.ipredP sel plane) s = .next (s.faultedWith .badOperand 0)) ∧
    (s.framev = true → s.pmcv = true → sel = 0#4 → plane ≠ 3#2 → s.squareBlock → ¬ s.fits plane.toNat s.blockW s.blockW →
      exec (.ipredP sel plane) s = .next (s.faultedWith .planeBounds 0))

/-- `PMODE_RESET` (R256): every entry of the mode cache 9, nothing else; without a geometry `NotInitialised`. That the cache has
`modeCacheSize` entries, a number fixed by width and height, is the model's choice (log entry 20, DESIGN CHOICE). -/
def Obligations.PmodeResetResult : Prop :=
  ∀ s : State, s.faulted = false →
    (s.framev = true → ∃ t, exec .pmodeReset s = .next t ∧ t = { s with pmc := t.pmc, pmcv := true } ∧
      t.pmc.length = Config.modeCacheSize s.width s.height ∧ ∀ e ∈ t.pmc, e = 9) ∧
    (s.framev = false → exec .pmodeReset s = .next (s.faultedWith .notInitialised 0))

/-- `IPRED_P` (R258, R257): the mode the OPEN code gives, in `RET0` and in the covered cache entries, and its prediction in the block; a
fault of the code's pops is the command's. That no cache entry is added or lost, and the form of the code, are the model's choice
(log entries 10, 20, DESIGN CHOICE). -/
def Obligations.IpredPResult : Prop :=
  ∀ (plane : BitVec 2) (s : State), s.faulted = false → s.framev = true → s.pmcv = true → plane ≠ 3#2 → s.squareBlock →
    s.fits plane.toNat s.blockW s.blockW →
    (∀ leaf b', popCode s.src (modeCode s.rom s.pmc plane.toNat s.blockX s.blockY s.blockW) s.bsu = .ok leaf b' →
      ∃ t, exec (.ipredP 0#4 plane) s = .next t ∧
        t = { s.setBsu b' with planes := t.planes, pmc := t.pmc, ret0 := BitVec.ofNat 32 leaf.mode.val } ∧
        t.pmc.length = s.pmc.length ∧
        (∀ k ∈ Config.modeCover plane.toNat s.blockX s.blockY s.blockW, k < s.pmc.length →
          t.pmc[k]? = some leaf.mode.castSucc) ∧
        ∀ slot p r c, inStore slot p r c →
          (slot = s.cur.val ∧ p = plane.toNat ∧ inBlock s.blockX s.blockY s.blockW s.blockW r c →
            t.pixel slot p r c =
              s.intraBlock leaf.mode.val plane.toNat s.blockW s.blockX s.blockY (r - s.blockY) (c - s.blockX)) ∧
          (¬ (slot = s.cur.val ∧ p = plane.toNat ∧ inBlock s.blockX s.blockY s.blockW s.blockW r c) →
            t.pixel slot p r c = s.pixel slot p r c)) ∧
    (∀ f info b', popCode s.src (modeCode s.rom s.pmc plane.toNat s.blockX s.blockY s.blockW) s.bsu = .fault f info b' →
      ∃ t, exec (.ipredP 0#4 plane) s = .next t ∧ t.fault = faultWord f info)

/-- `MC` (R271, R272, R273, R274): the block in the current slot holds the interpolation of the reference named, at the vector's whole
displacement, by its two half bits; every other plane byte and all other state as before. -/
def Obligations.McResult : Prop :=
  ∀ (k : BitVec 4) (plane : BitVec 2) (s : State) (dx dy : Int) (sx sy ex ey ref bias : Nat), s.faulted = false → s.framev = true →
    1 ≤ k.toNat → k.toNat ≤ 5 → plane ≠ 3#2 → motionSize s.blockW → motionSize s.blockH →
    ref = (s.cur.val + 6 - k.toNat) % 6 → s.valid.getLsbD ref = true → s.fits plane.toNat s.blockW s.blockH →
    dx = (s.a2.extractLsb' 0 16).toInt → dy = (s.a2.extractLsb' 16 16).toInt → (ex : Int) = dx % 2 → (ey : Int) = dy % 2 →
    (sx : Int) = s.blockX + dx / 2 → (sy : Int) = s.blockY + dy / 2 →
    sx + s.blockW + ex ≤ s.planeW plane.toNat → sy + s.blockH + ey ≤ s.planeH plane.toNat →
    bias = (if Config.mcRound then 1 else 0) →
    ∃ t, exec (.mc k plane) s = .next t ∧ t = { s with planes := t.planes } ∧
      ∀ slot p r c, inStore slot p r c →
        (slot = s.cur.val ∧ p = plane.toNat ∧ inBlock s.blockX s.blockY s.blockW s.blockH r c →
          let a := (s.pixel ref p (sy + (r - s.blockY)) (sx + (c - s.blockX))).toNat
          let b := (s.pixel ref p (sy + (r - s.blockY)) (sx + (c - s.blockX) + 1)).toNat
          let d := (s.pixel ref p (sy + (r - s.blockY) + 1) (sx + (c - s.blockX))).toNat
          let e := (s.pixel ref p (sy + (r - s.blockY) + 1) (sx + (c - s.blockX) + 1)).toNat
          (t.pixel slot p r c).toNat =
            if ex = 0 ∧ ey = 0 then a else if ey = 0 then (a + b + bias) / 2 else if ex = 0 then (a + d + bias) / 2
            else (a + b + d + e + 2 * bias) / 4) ∧
        (¬ (slot = s.cur.val ∧ p = plane.toNat ∧ inBlock s.blockX s.blockY s.blockW s.blockH r c) →
          t.pixel slot p r c = s.pixel slot p r c)

/-- Motion compensation with the zero vector and reference index 1 reproduces the newest completed frame's pixels (R271). -/
def Obligations.McZeroVectorCopies : Prop :=
  ∀ (plane : BitVec 2) (s : State), s.faulted = false → s.framev = true → plane ≠ 3#2 → motionSize s.blockW → motionSize s.blockH →
    s.valid.getLsbD ((s.cur.val + 5) % 6) = true → s.fits plane.toNat s.blockW s.blockH → s.a2 = 0#32 →
    ∃ t, exec (.mc 1#4 plane) s = .next t ∧
      ∀ r c, inBlock s.blockX s.blockY s.blockW s.blockH r c →
        t.pixel s.cur.val plane.toNat r c = s.pixel ((s.cur.val + 5) % 6) plane.toNat r c

/-- The checks of `MC`, in their order (R271, R274, R338, R79): all precede the first write, so only `FAULT` changes. -/
def Obligations.McTraps : Prop :=
  ∀ (k : BitVec 4) (plane : BitVec 2) (s : State) (dx dy sx sy : Int), s.faulted = false →
    dx = (s.a2.extractLsb' 0 16).toInt → dy = (s.a2.extractLsb' 16 16).toInt → sx = s.blockX + dx / 2 → sy = s.blockY + dy / 2 →
    (s.framev = false → exec (.mc k plane) s = .next (s.faultedWith .notInitialised 0)) ∧
    (s.framev = true → k.toNat = 0 ∨ 5 < k.toNat ∨ plane = 3#2 ∨ ¬ motionSize s.blockW ∨ ¬ motionSize s.blockH →
      exec (.mc k plane) s = .next (s.faultedWith .badOperand 0)) ∧
    (s.framev = true → 1 ≤ k.toNat → k.toNat ≤ 5 → plane ≠ 3#2 → motionSize s.blockW → motionSize s.blockH →
      (s.valid.getLsbD ((s.cur.val + 6 - k.toNat) % 6) = false →
        exec (.mc k plane) s = .next (s.faultedWith .refInvalid k.toNat)) ∧
      (s.valid.getLsbD ((s.cur.val + 6 - k.toNat) % 6) = true →
        ¬ s.fits plane.toNat s.blockW s.blockH ∨ sx < 0 ∨ sy < 0 ∨ s.planeW plane.toNat < sx + s.blockW + dx % 2 ∨
          s.planeH plane.toNat < sy + s.blockH + dy % 2 →
        exec (.mc k plane) s = .next (s.faultedWith .planeBounds 0)))

/-- `ROTATE` (R279): the current slot holds a completed frame, the next slot becomes current and holds none; nothing else changes;
without a geometry `NotInitialised`. That the plane bytes too are unchanged, those of the new current slot among them, is the model's
choice where U4 leaves them any value (log entry 4, DEDUCED). -/
def Obligations.RotateResult : Prop :=
  ∀ s : State, s.faulted = false →
    (s.framev = true → ∃ t, exec .rotate s = .next t ∧ t = { s with cur := t.cur, valid := t.valid } ∧
      t.cur.val = (s.cur.val + 1) % 6 ∧
      ∀ slot < 6, t.valid.getLsbD slot = ((slot == s.cur.val || s.valid.getLsbD slot) && slot != t.cur.val)) ∧
    (s.framev = false → exec .rotate s = .next (s.faultedWith .notInitialised 0))

/-- `EMIT_FRAME` (R280, R43): the newest completed frame at the end of `OUT`, `WIDTH * HEIGHT * 3 / 2` bytes, the Y plane then U then V,
each row by row; nothing else changes; no completed frame is `RefInvalid`, no geometry `NotInitialised`. -/
def Obligations.EmitFrameResult : Prop :=
  ∀ s : State, s.faulted = false →
    (s.framev = true → frameLegal s.frame = true → s.valid.getLsbD ((s.cur.val + 5) % 6) = true →
      ∃ frame : List Byte, exec .emitFrame s =
          .next { s with out := s.out ++ frame, outcnt := s.outcnt + BitVec.ofNat 32 frame.length } ∧
        frame.length = s.width * s.height * 3 / 2 ∧
        (∀ y x, y < s.height → x < s.width →
          frame[y * s.width + x]? = some (s.pixel ((s.cur.val + 5) % 6) 0 y x)) ∧
        (∀ y x, y < s.height / 2 → x < s.width / 2 →
          frame[s.width * s.height + y * (s.width / 2) + x]? = some (s.pixel ((s.cur.val + 5) % 6) 1 y x) ∧
          frame[s.width * s.height * 5 / 4 + y * (s.width / 2) + x]? = some (s.pixel ((s.cur.val + 5) % 6) 2 y x))) ∧
    (s.framev = true → s.valid.getLsbD ((s.cur.val + 5) % 6) = false →
      exec .emitFrame s = .next (s.faultedWith .refInvalid 1)) ∧
    (s.framev = false → exec .emitFrame s = .next (s.faultedWith .notInitialised 0))

/-- `MVP_RESET` (R282): `MBW + 1` zero vectors and a zero `ALSAVE`; `MVP_SET` (R284): the vector in `A1` at the column in `A0`, `dx` in
the low half; nothing else changes; the checks of both. -/
def Obligations.MvpResetAndSet : Prop :=
  ∀ s : State, s.faulted = false →
    (s.framev = true → exec .mvpReset s = .next { s with
      mvp := List.replicate (s.width / 16 + 1) ⟨0#16, 0#16⟩, alsave := ⟨0#16, 0#16⟩, mvpv := true }) ∧
    (s.framev = false → exec .mvpReset s = .next (s.faultedWith .notInitialised 0)) ∧
    (s.mvpv = true → s.a0.toNat < s.width / 16 → exec .mvpSet s = .next { s with
      mvp := s.mvp.set (s.a0.toNat + 1) ⟨s.a1.extractLsb' 0 16, s.a1.extractLsb' 16 16⟩ }) ∧
    (s.mvpv = false → exec .mvpSet s = .next (s.faultedWith .notInitialised 0)) ∧
    (s.mvpv = true → s.width / 16 ≤ s.a0.toNat → exec .mvpSet s = .next (s.faultedWith .badOperand 0))

/-- `MVP_REFRESH` (R283): per component the median of the left, above-left and above neighbours, stored at the column and returned
sign-extended; the old above vector saved; nothing else changes; the operand checks. -/
def Obligations.MvpRefreshResult : Prop :=
  ∀ s : State, s.faulted = false →
    (s.mvpv = true → s.mvp.length = s.width / 16 + 1 → s.a0.toNat < s.width / 16 →
      ∀ left above al : Mv, s.mvp[s.a0.toNat]? = some left → s.mvp[s.a0.toNat + 1]? = some above →
        al = (if s.a0.toNat = 0 then ⟨0#16, 0#16⟩ else s.alsave) →
        ∃ p : Mv, isMedian left.dx.toInt al.dx.toInt above.dx.toInt p.dx.toInt ∧
          isMedian left.dy.toInt al.dy.toInt above.dy.toInt p.dy.toInt ∧
          exec .mvpRefresh s = .next { s with
            alsave := above
            mvp := s.mvp.set (s.a0.toNat + 1) p
            ret0 := p.dx.signExtend 32
            ret1 := p.dy.signExtend 32 }) ∧
    (s.mvpv = false → exec .mvpRefresh s = .next (s.faultedWith .notInitialised 0)) ∧
    (s.mvpv = true → s.width / 16 ≤ s.a0.toNat → exec .mvpRefresh s = .next (s.faultedWith .badOperand 0))

/-- `MEDIAN3` (R285, R14): the numeric median of the three operands as signed numbers into `RET0`, nothing else. -/
def Obligations.Median3Result : Prop :=
  ∀ s : State, s.faulted = false →
    ∃ m : Word, isMedian s.a0.toInt s.a1.toInt s.a2.toInt m.toInt ∧ exec .median3 s = .next { s with ret0 := m }

/-- `ADEC` with raw PCM16 (R304, R301): the payload unchanged at the end of `OUT`, the count rounded down, `POS` at `LEN`; nothing
else. That the payload is empty with `POS` past `LEN` is the model's reading (log entry 12, DEDUCED). -/
def Obligations.AdecPcmResult : Prop :=
  ∀ (chan : BitVec 8) (s : State), s.faulted = false → chan ≠ 0#8 →
    exec (.adec 0#4 chan) s = .next { s with
      pos := s.len.setWidth 32
      out := s.out ++ s.payload
      outcnt := s.outcnt + BitVec.ofNat 32 s.payload.length
      ret0 := BitVec.ofNat 32 (s.payload.length / (2 * chan.toNat)) }

/-- What `ADEC` checks before it changes anything, in its order (R301, R303): the codec, the lattice codec, the channel count. -/
def Obligations.AdecSelection : Prop :=
  ∀ (codec : BitVec 4) (chan : BitVec 8) (s : State), s.faulted = false →
    (codec ∉ [0#4, 1#4, 2#4, 4#4] → exec (.adec codec chan) s = .next (s.faultedWith .unsupportedCodec codec.toNat)) ∧
    exec (.adec 4#4 chan) s = .next (s.faultedWith .notImplemented 4) ∧
    (codec ∈ [0#4, 1#4, 2#4] → exec (.adec codec 0#8) s = .next (s.faultedWith .badOperand 0))

/-- Range safety of IMA-ADPCM (R310), whatever the OPEN parameters and the nibbles: from a header the codec accepts, every sample is a
16-bit number and the step index stays in 0 to 88. -/
def Obligations.ImaRangeSafety : Prop :=
  ∀ (k : ImaParams) (payload : List Byte) (c : Nat) (nibs : List Nat) (h : ImaChan),
    imaHeader k payload c = .ok h →
    (∀ x ∈ (imaRun k h nibs).1, -32768 ≤ x ∧ x ≤ 32767) ∧ (imaRun k h nibs).1.length = nibs.length ∧
    (-32768 ≤ (imaRun k h nibs).2.pred ∧ (imaRun k h nibs).2.pred ≤ 32767) ∧
    (0 ≤ (imaRun k h nibs).2.idx ∧ (imaRun k h nibs).2.idx ≤ 88)

/-- `ADEC` with IMA-ADPCM (R305, R302, R306): headers first and then subframes. Which header is which channel's, and the order of the
bytes inside a subframe, are free with more than one channel (log entry 11, DESIGN CHOICE). With good headers and whole subframes: 256
samples per subframe and channel, each by the nibble update of R305 with the step table of R306, interleaved at the end of `OUT`; `POS`
at `LEN`; nothing else. A subframe cut short or a missing header is `TruncatedStream`, a step index outside 0..88 `BadAudioData`, the
first channel's fault first. With `POS` past `LEN` the payload is empty (log entry 12, DEDUCED). -/
def Obligations.AdecImaOutput : Prop :=
  ∀ (chan : BitVec 8) (s : State) (bytes : List Byte) (header : Nat → Nat), s.faulted = false → chan ≠ 0#8 →
    bytes = imaArranged Config.ima s.payload chan.toNat → header = (fun c => (imaHeaderOrder Config.ima chan.toNat).getD c 0) →
    ((List.range chan.toNat).map header).Perm (List.range chan.toNat) ∧ bytes.length = s.payload.length ∧
    bytes.take (4 * chan.toNat) = s.payload.take (4 * chan.toNat) ∧
    (∀ f, ((bytes.drop (4 * chan.toNat + 128 * chan.toNat * f)).take (128 * chan.toNat)).Perm
      ((s.payload.drop (4 * chan.toNat + 128 * chan.toNat * f)).take (128 * chan.toNat))) ∧
    (chan = 1#8 → bytes = s.payload) ∧
    (∀ frames rest, bytes.length = 4 * chan.toNat + 128 * chan.toNat * frames + rest → rest < 128 * chan.toNat →
      (∀ c < chan.toNat, imaHeaderGood Config.ima bytes (header c)) →
      (rest = 0 → ∃ (x idx : Nat → Nat → Int) (pcm : List Byte),
        exec (.adec 1#4 chan) s = .next { s with
          pos := s.len.setWidth 32
          out := s.out ++ pcm
          outcnt := s.outcnt + BitVec.ofNat 32 pcm.length
          ret0 := BitVec.ofNat 32 (256 * frames) } ∧
        holdsSamples pcm chan.toNat (256 * frames) x ∧
        ∀ c < chan.toNat, ImaSamples Config.ima bytes chan.toNat (256 * frames) c (header c) (x c) (idx c)) ∧
      (0 < rest → ∃ t, exec (.adec 1#4 chan) s = .next t ∧ t.fault = faultWord .truncatedStream (s.len.toNat % 2 ^ 24 : Nat))) ∧
    (∀ c < chan.toNat, (∀ d < c, imaHeaderGood Config.ima bytes (header d)) →
      (bytes.length < 4 * header c + 4 →
        ∃ t, exec (.adec 1#4 chan) s = .next t ∧ t.fault = faultWord .truncatedStream (s.len.toNat % 2 ^ 24 : Nat)) ∧
      (4 * header c + 4 ≤ bytes.length → ¬ imaHeaderGood Config.ima bytes (header c) →
        ∃ t, exec (.adec 1#4 chan) s = .next t ∧ t.fault = faultWord .badAudioData 0))

/-- `ADEC` with DSP-ADPCM (R311, R312, R302), on the split of the payload's bytes into a part per channel, which for one channel is the
payload itself (log entry 11, DESIGN CHOICE). With a length divisible by the channel count and good parts: the samples of each channel by the
formula of R312, the first 32 dropped, as many of each as channel 0 has, interleaved at the end of `OUT`; `POS` at `LEN`; nothing else.
What stands for a sample a shorter channel does not have is free (log entry 32, DESIGN CHOICE). A length not divisible is
`BadAudioData`; a part shorter than its header is `TruncatedStream`, a group of pair 8 or more `BadAudioData`, the first channel's fault
first (log entry 33, DESIGN CHOICE). With `POS` past `LEN` the payload is empty (log entry 12, DEDUCED). -/
def Obligations.AdecDspOutput : Prop :=
  ∀ (chan : BitVec 8) (s : State) (parts : List (List Byte)), s.faulted = false → chan ≠ 0#8 →
    parts = dspParts Config.dsp s.payload chan.toNat →
    parts.length = chan.toNat ∧ parts.flatten.Perm s.payload ∧ (chan = 1#8 → parts = [s.payload]) ∧
    (s.payload.length % chan.toNat ≠ 0 →
      ∃ t, exec (.adec 2#4 chan) s = .next t ∧ t.fault = faultWord .badAudioData 0) ∧
    (s.payload.length % chan.toNat = 0 → (∀ part ∈ parts, dspPartGood part) →
      ∃ (x : Nat → Nat → Int) (pcm : List Byte) (count : Nat),
        exec (.adec 2#4 chan) s = .next { s with
          pos := s.len.setWidth 32
          out := s.out ++ pcm
          outcnt := s.outcnt + BitVec.ofNat 32 pcm.length
          ret0 := BitVec.ofNat 32 count } ∧
        (∀ part : List Byte, parts[0]? = some part → count = dspCount part - 32) ∧
        holdsSamples pcm chan.toNat count (fun c i => x c (i + 32)) ∧
        ∀ (c : Nat) (part : List Byte), parts[c]? = some part → dspSamples Config.dsp part (x c)) ∧
    (s.payload.length % chan.toNat = 0 → ∀ (c : Nat) (part : List Byte), parts[c]? = some part →
      (∀ d < c, ∀ earlier : List Byte, parts[d]? = some earlier → dspPartGood earlier) →
      (part.length < 38 →
        ∃ t, exec (.adec 2#4 chan) s = .next t ∧ t.fault = faultWord .truncatedStream (s.len.toNat % 2 ^ 24 : Nat)) ∧
      (38 ≤ part.length → ¬ dspPartGood part →
        ∃ t, exec (.adec 2#4 chan) s = .next t ∧ t.fault = faultWord .badAudioData 0))

/-- Sample counts of DSP-ADPCM (R316, R312), whatever the OPEN parameters: a channel part whose group headers name pairs 0 to 7 decodes,
to `14 * (B / 8) + 2 * max(0, B mod 8 - 1)` samples less 32; one that names pair 8 or more is bad audio data, one shorter than a
header a truncated stream. -/
def Obligations.DspSampleCount : Prop :=
  ∀ (k : DspParams) (part : List Byte),
    (38 ≤ part.length → (∀ g b, part[38 + 8 * g]? = some b → b.toNat / 16 < 8) →
      ∃ y, dspChannel k part = .ok y ∧
        y.length = 14 * ((part.length - 38) / 8) + 2 * ((part.length - 38) % 8 - 1) - 32) ∧
    (∀ g b, part[38 + 8 * g]? = some b → 8 ≤ b.toNat / 16 → dspChannel k part = .error .badAudioData) ∧
    (part.length < 38 → dspChannel k part = .error .truncatedStream)

/-- The source's worked example (R317): `ADEC codec=2, chan=1` on 203 zero bytes gives 256 zero samples, whatever the OPEN parameters. -/
def Obligations.DspSilentPayload : Prop :=
  ∀ s : State, s.faulted = false → s.pos = 0#32 → s.len = 203#28 → (∀ a < 203, s.sourceByte a = 0#8) →
    exec (.adec 2#4 1#8) s = .next { s with
      pos := 203#32
      out := s.out ++ List.replicate 512 0#8
      outcnt := s.outcnt + 512#32
      ret0 := 256#32 }

/-- What reset leaves (R50, R370, R345): the machine at reset, after `RESET_UNIT` in any state, a faulted one too, and after hardware
reset has every value R50 gives; the bytes of the source and the tables are untouched. -/
def Obligations.ResetLeaves : Prop :=
  AtReset State.reset ∧
  ∀ s : State,
    (∃ t, exec .resetUnit s = .next t ∧ AtReset t ∧ t.source = s.source ∧ t.rom = s.rom) ∧
    (∃ t, hostMove .hardReset s = .next t ∧ AtReset t ∧ t.source = s.source ∧ t.rom = s.rom)

/-- The host's register writes to an unfaulted block (R21, R27, R29, R33, R38, R78): what each changes and nothing else; writes to
read-only registers and to offsets not in the map, and accesses that are no aligned word, change nothing. `WIN` after a `CFG` write is
free (log entry 7). -/
def Obligations.HostRegisterWrites : Prop :=
  ∀ (s : State) (v : Word), s.faulted = false →
    (hostMove (.write .word 0x20 v) s = .next { s with a0 := v } ∧ hostMove (.write .word 0x24 v) s = .next { s with a1 := v } ∧
      hostMove (.write .word 0x28 v) s = .next { s with a2 := v }) ∧
    (∃ t, hostMove (.write .word 0x0C v) s = .next t ∧ t = { s with
      w16 := v.getLsbD 0, le := v.getLsbD 1, bitpos := 0#4, win := t.win, draws := t.draws }) ∧
    (∃ t, hostMove (.write .word 0x14 v) s = .next t ∧ t = { s with len := t.len } ∧ t.len.toNat = min v.toNat (2 ^ 28 - 1)) ∧
    (∃ t, hostMove (.write .word 0x44 v) s = .next t ∧ t = { s with
        frame := v, valid := 0#6, cur := 0, mvpv := false, pmcv := false, framev := t.framev, planes := t.planes, era := t.era } ∧
      (t.framev = true ↔ (v.extractLsb' 0 16).toNat ≠ 0 ∧ 16 ∣ (v.extractLsb' 0 16).toNat ∧
        (v.extractLsb' 16 16).toNat ≠ 0 ∧ 16 ∣ (v.extractLsb' 16 16).toNat)) ∧
    (∀ off, off ∉ [0x00, 0x0C, 0x14, 0x20, 0x24, 0x28, 0x44] → hostMove (.write .word off v) s = .next s) ∧
    (∀ width off, width ≠ .word → hostMove (.write width off v) s = .next s)

/-- What the host reads at each offset (R25 to R38, R78, R82): the fields at the bits the map gives them, zero elsewhere; reading
changes nothing but the host's own variable. -/
def Obligations.HostRegisterReads : Prop :=
  ∀ s : State,
    (∀ width off, hostMove (.read width off) s = .next { s with hostVal := s.regRead width off }) ∧
    (s.regRead .word 0x04).toNat = (if s.fault = 0#32 then 0 else 1) + (if s.len.toNat ≤ s.pos.toNat then 2 else 0) +
      (if s.bitpos = 0#4 then 4 else 0) ∧
    s.regRead .word 0x08 = s.fault ∧ (s.regRead .word 0x0C).toNat = s.w16.toNat + 2 * s.le.toNat ∧
    s.regRead .word 0x10 = s.pos ∧ (s.regRead .word 0x14).toNat = s.len.toNat ∧ (s.regRead .word 0x18).toNat = s.bitpos.toNat ∧
    (s.regRead .word 0x1C).toNat = s.win.toNat ∧ s.regRead .word 0x20 = s.a0 ∧ s.regRead .word 0x24 = s.a1 ∧
    s.regRead .word 0x28 = s.a2 ∧ s.regRead .word 0x30 = s.ret0 ∧ s.regRead .word 0x34 = s.ret1 ∧
    (s.regRead .word 0x40).toNat = s.quantQ.toNat + 256 * s.dctTab.toNat ∧ s.regRead .word 0x44 = s.frame ∧
    (s.regRead .word 0x48).toNat = s.cur.val + 256 * s.valid.toNat ∧ s.regRead .word 0x4C = s.outcnt ∧
    (s.regRead .word 0x50).toNat = s.qv.toNat + 2 * s.mvpv.toNat + 4 * s.pmcv.toNat + 8 * s.framev.toNat ∧
    (∀ off, off ∉ [0x04, 0x08, 0x0C, 0x10, 0x14, 0x18, 0x1C, 0x20, 0x24, 0x28, 0x30, 0x34, 0x40, 0x44, 0x48, 0x4C, 0x50] →
      s.regRead .word off = 0#32) ∧
    (∀ width off, width ≠ .word → s.regRead width off = 0#32)

/-- Which commands can change the command interface and the cursor (R21, R22, R24), for a command that ends without a fault: no
command writes an operand register, `CFG`, `LEN` or `FRAME`; results and cursor only those the rules list. Of `WIN` the tables say
nothing: only pops refill it (R31), and that `RESET_BITS` and `SEEK` leave it is the model's choice against U2 (log entry 7, DEDUCED). -/
def Obligations.RegisterWriters : Prop :=
  ∀ (i : Instr) (s t : State), i ≠ .resetUnit → exec i s = .next t → t.fault = 0#32 →
    (t.a0 = s.a0 ∧ t.a1 = s.a1 ∧ t.a2 = s.a2) ∧ (t.w16 = s.w16 ∧ t.le = s.le ∧ t.len = s.len ∧ t.frame = s.frame) ∧
    (writesRet0 i = false → t.ret0 = s.ret0) ∧ (i ≠ .mvpRefresh → t.ret1 = s.ret1) ∧
    (movesPos i = false → t.pos = s.pos) ∧
    (popsBits i = false → t.win = s.win ∧ (i ≠ .resetBits → i ≠ .seek → t.bitpos = s.bitpos))

/-- Which commands can change the units' state (R32, R34, R36, R44, R45, R46), for a command that ends without a fault. -/
def Obligations.UnitStateWriters : Prop :=
  ∀ (i : Instr) (s t : State), i ≠ .resetUnit → exec i s = .next t → t.fault = 0#32 →
    ((∀ q, i ≠ .setQuant q) → i ≠ .addQuant → t.quantQ = s.quantQ ∧ t.qt4 = s.qt4 ∧ t.qt8 = s.qt8) ∧
    ((∀ n, i ≠ .setDcttab n) → t.dctTab = s.dctTab) ∧ ((∀ q, i ≠ .setQuant q) → t.qv = s.qv) ∧
    (i ≠ .rotate → t.cur = s.cur ∧ t.valid = s.valid) ∧ t.framev = s.framev ∧
    (i ≠ .mvpReset → t.mvpv = s.mvpv ∧ (i ≠ .mvpRefresh → t.alsave = s.alsave ∧ (i ≠ .mvpSet → t.mvp = s.mvp))) ∧
    (i ≠ .pmodeReset → t.pmcv = s.pmcv ∧ ((∀ sel plane, i ≠ .ipredP sel plane) → t.pmc = s.pmc))

/-- `OUT` is append-only (R42, R35, R341 b), whatever a command ends in: what stood there stays in front, `OUTCNT` counts what is added,
and only `READ_BYTES`, `EMIT_FRAME` and `ADEC` add anything. That a faulting command leaves both as they were is in part the model's
reading (log entry 5, DEDUCED). -/
def Obligations.OutIsAppendOnly : Prop :=
  ∀ (i : Instr) (s t : State), i ≠ .resetUnit → exec i s = .next t →
    ∃ bs, t.out = s.out ++ bs ∧ t.outcnt = s.outcnt + BitVec.ofNat 32 bs.length ∧ (appendsOut i = false → bs = [])

/-- Slot `RING.CUR` is the only slot any command writes (R43), and only `COEF`, `IPRED`, `IPRED_P` and `MC` write plane bytes (R80), for a
command that ends without a fault. That `ROTATE` keeps the bytes of the slot it makes current is the model's choice where U4 leaves them
any value (log entry 4, DEDUCED). -/
def Obligations.OnlyCurrentSlotWritten : Prop :=
  ∀ (i : Instr) (s t : State), i ≠ .resetUnit → exec i s = .next t → t.fault = 0#32 →
    (∀ slot p r c, inStore slot p r c → slot ≠ s.cur.val → t.pixel slot p r c = s.pixel slot p r c) ∧
    (writesPlanes i = false → ∀ slot p r c, t.pixel slot p r c = s.pixel slot p r c)

/-- A command not listed as reading an operand register does not depend on it (R22): where it ends without a fault, another value there
changes nothing but that register in the state after. -/
def Obligations.OperandReaders : Prop :=
  ∀ (i : Instr) (s t : State) (v : Word), i ≠ .resetUnit → exec i s = .next t → t.fault = 0#32 →
    (readsA0 i = false → exec i { s with a0 := v } = .next { t with a0 := v }) ∧
    (readsA1 i = false → exec i { s with a1 := v } = .next { t with a1 := v }) ∧
    (readsA2 i = false → exec i { s with a2 := v } = .next { t with a2 := v })

/-- The bound source changes only by a host move that changes it (R40, R82, R386): a `LEN` write, a byte placed, or a reset, which
clears `LEN`. Of `LEN` after a move that faults, which R341 leaves open, nothing is said. -/
def Obligations.SourceOnlyRebound : Prop :=
  ∀ (m : HostMove) (s t : State), m.rebinds = false → hostMove m s = .next t →
    t.source = s.source ∧ (t.fault = s.fault → t.len = s.len)

/-- The invariant holds at reset: R50's values, empty memories, and `WIN` within the 8-bit window (R31). R50 and U2 leave `WIN` any value
there: that clause rests on the zero the model names for it (log entry 2, DESIGN CHOICE), and those on memory on its form of the plane
store, the source and the host's count of consumed bytes (log entries 3, 18, 22, DESIGN CHOICE). -/
def Obligations.ResetInv : Prop := Invariant State.reset

/-- Every step keeps the invariant: the canonical form of both memories, `BITPOS` below the window width (R30), `WIN` within it (R31),
no completed frame in the current slot (R34), no valid slot without a geometry (R33), `OUTCNT` the count of `OUT` (R35), a legal code
in `FAULT` (R331), the tables those of the quantizer (R44), the predictor array's shape and zero border (R45), the cache's size. The
canonical form, the cache's size and the count of consumed bytes are the model's (log entries 18, 20, 22, DESIGN CHOICE), and so is
what is claimed of `RING`, `INIT`, `FRAME`, `CFG`, `OUT` and `OUTCNT` in a faulted state, which R341 and U8 leave open (log entry 5, DEDUCED). -/
def Obligations.InvKept : Prop := ∀ s t : State, Invariant s → step s = .next t → Invariant t
end

