-- ==== Sys2Proof/Laws/State.lean ====
section
/-! SUPPORT. What each named update of the state does to each field: one lemma per field and update, so that no proof unfolds a
record update; for `raise`, `raiseLate` and `toReset` the fields that matter to claims. -/

namespace Sys2Proof.Machine

section
variable (s : State)

@[simp] theorem State.setBsu_a0 (b : Bsu) : (s.setBsu b).a0 = s.a0 := rfl
@[simp] theorem State.setBsu_a1 (b : Bsu) : (s.setBsu b).a1 = s.a1 := rfl
@[simp] theorem State.setBsu_a2 (b : Bsu) : (s.setBsu b).a2 = s.a2 := rfl
@[simp] theorem State.setBsu_ret0 (b : Bsu) : (s.setBsu b).ret0 = s.ret0 := rfl
@[simp] theorem State.setBsu_ret1 (b : Bsu) : (s.setBsu b).ret1 = s.ret1 := rfl
@[simp] theorem State.setBsu_pos (b : Bsu) : (s.setBsu b).pos = b.pos := rfl
@[simp] theorem State.setBsu_bitpos (b : Bsu) : (s.setBsu b).bitpos = b.bitpos := rfl
@[simp] theorem State.setBsu_win (b : Bsu) : (s.setBsu b).win = b.win := rfl
@[simp] theorem State.setBsu_w16 (b : Bsu) : (s.setBsu b).w16 = s.w16 := rfl
@[simp] theorem State.setBsu_le (b : Bsu) : (s.setBsu b).le = s.le := rfl
@[simp] theorem State.setBsu_len (b : Bsu) : (s.setBsu b).len = s.len := rfl
@[simp] theorem State.setBsu_fault (b : Bsu) : (s.setBsu b).fault = s.fault := rfl
@[simp] theorem State.setBsu_quantQ (b : Bsu) : (s.setBsu b).quantQ = s.quantQ := rfl
@[simp] theorem State.setBsu_dctTab (b : Bsu) : (s.setBsu b).dctTab = s.dctTab := rfl
@[simp] theorem State.setBsu_qt4 (b : Bsu) : (s.setBsu b).qt4 = s.qt4 := rfl
@[simp] theorem State.setBsu_qt8 (b : Bsu) : (s.setBsu b).qt8 = s.qt8 := rfl
@[simp] theorem State.setBsu_frame (b : Bsu) : (s.setBsu b).frame = s.frame := rfl
@[simp] theorem State.setBsu_cur (b : Bsu) : (s.setBsu b).cur = s.cur := rfl
@[simp] theorem State.setBsu_valid (b : Bsu) : (s.setBsu b).valid = s.valid := rfl
@[simp] theorem State.setBsu_qv (b : Bsu) : (s.setBsu b).qv = s.qv := rfl
@[simp] theorem State.setBsu_mvpv (b : Bsu) : (s.setBsu b).mvpv = s.mvpv := rfl
@[simp] theorem State.setBsu_pmcv (b : Bsu) : (s.setBsu b).pmcv = s.pmcv := rfl
@[simp] theorem State.setBsu_framev (b : Bsu) : (s.setBsu b).framev = s.framev := rfl
@[simp] theorem State.setBsu_planes (b : Bsu) : (s.setBsu b).planes = s.planes := rfl
@[simp] theorem State.setBsu_era (b : Bsu) : (s.setBsu b).era = s.era := rfl
@[simp] theorem State.setBsu_mvp (b : Bsu) : (s.setBsu b).mvp = s.mvp := rfl
@[simp] theorem State.setBsu_alsave (b : Bsu) : (s.setBsu b).alsave = s.alsave := rfl
@[simp] theorem State.setBsu_pmc (b : Bsu) : (s.setBsu b).pmc = s.pmc := rfl
@[simp] theorem State.setBsu_out (b : Bsu) : (s.setBsu b).out = s.out := rfl
@[simp] theorem State.setBsu_outcnt (b : Bsu) : (s.setBsu b).outcnt = s.outcnt := rfl
@[simp] theorem State.setBsu_rom (b : Bsu) : (s.setBsu b).rom = s.rom := rfl
@[simp] theorem State.setBsu_source (b : Bsu) : (s.setBsu b).source = s.source := rfl
@[simp] theorem State.setBsu_draws (b : Bsu) : (s.setBsu b).draws = s.draws := rfl
@[simp] theorem State.setBsu_taken (b : Bsu) : (s.setBsu b).taken = s.taken := rfl
@[simp] theorem State.setBsu_hostVal (b : Bsu) : (s.setBsu b).hostVal = s.hostVal := rfl
@[simp] theorem State.setBsu_script (b : Bsu) : (s.setBsu b).script = s.script := rfl

@[simp] theorem State.appendOut_a0 (bs : List Byte) : (s.appendOut bs).a0 = s.a0 := rfl
@[simp] theorem State.appendOut_a1 (bs : List Byte) : (s.appendOut bs).a1 = s.a1 := rfl
@[simp] theorem State.appendOut_a2 (bs : List Byte) : (s.appendOut bs).a2 = s.a2 := rfl
@[simp] theorem State.appendOut_ret0 (bs : List Byte) : (s.appendOut bs).ret0 = s.ret0 := rfl
@[simp] theorem State.appendOut_ret1 (bs : List Byte) : (s.appendOut bs).ret1 = s.ret1 := rfl
@[simp] theorem State.appendOut_pos (bs : List Byte) : (s.appendOut bs).pos = s.pos := rfl
@[simp] theorem State.appendOut_bitpos (bs : List Byte) : (s.appendOut bs).bitpos = s.bitpos := rfl
@[simp] theorem State.appendOut_win (bs : List Byte) : (s.appendOut bs).win = s.win := rfl
@[simp] theorem State.appendOut_w16 (bs : List Byte) : (s.appendOut bs).w16 = s.w16 := rfl
@[simp] theorem State.appendOut_le (bs : List Byte) : (s.appendOut bs).le = s.le := rfl
@[simp] theorem State.appendOut_len (bs : List Byte) : (s.appendOut bs).len = s.len := rfl
@[simp] theorem State.appendOut_fault (bs : List Byte) : (s.appendOut bs).fault = s.fault := rfl
@[simp] theorem State.appendOut_quantQ (bs : List Byte) : (s.appendOut bs).quantQ = s.quantQ := rfl
@[simp] theorem State.appendOut_dctTab (bs : List Byte) : (s.appendOut bs).dctTab = s.dctTab := rfl
@[simp] theorem State.appendOut_qt4 (bs : List Byte) : (s.appendOut bs).qt4 = s.qt4 := rfl
@[simp] theorem State.appendOut_qt8 (bs : List Byte) : (s.appendOut bs).qt8 = s.qt8 := rfl
@[simp] theorem State.appendOut_frame (bs : List Byte) : (s.appendOut bs).frame = s.frame := rfl
@[simp] theorem State.appendOut_cur (bs : List Byte) : (s.appendOut bs).cur = s.cur := rfl
@[simp] theorem State.appendOut_valid (bs : List Byte) : (s.appendOut bs).valid = s.valid := rfl
@[simp] theorem State.appendOut_qv (bs : List Byte) : (s.appendOut bs).qv = s.qv := rfl
@[simp] theorem State.appendOut_mvpv (bs : List Byte) : (s.appendOut bs).mvpv = s.mvpv := rfl
@[simp] theorem State.appendOut_pmcv (bs : List Byte) : (s.appendOut bs).pmcv = s.pmcv := rfl
@[simp] theorem State.appendOut_framev (bs : List Byte) : (s.appendOut bs).framev = s.framev := rfl
@[simp] theorem State.appendOut_planes (bs : List Byte) : (s.appendOut bs).planes = s.planes := rfl
@[simp] theorem State.appendOut_era (bs : List Byte) : (s.appendOut bs).era = s.era := rfl
@[simp] theorem State.appendOut_mvp (bs : List Byte) : (s.appendOut bs).mvp = s.mvp := rfl
@[simp] theorem State.appendOut_alsave (bs : List Byte) : (s.appendOut bs).alsave = s.alsave := rfl
@[simp] theorem State.appendOut_pmc (bs : List Byte) : (s.appendOut bs).pmc = s.pmc := rfl
@[simp] theorem State.appendOut_out (bs : List Byte) : (s.appendOut bs).out = s.out ++ bs := rfl
@[simp] theorem State.appendOut_outcnt (bs : List Byte) : (s.appendOut bs).outcnt = s.outcnt + BitVec.ofNat 32 bs.length := rfl
@[simp] theorem State.appendOut_rom (bs : List Byte) : (s.appendOut bs).rom = s.rom := rfl
@[simp] theorem State.appendOut_source (bs : List Byte) : (s.appendOut bs).source = s.source := rfl
@[simp] theorem State.appendOut_draws (bs : List Byte) : (s.appendOut bs).draws = s.draws := rfl
@[simp] theorem State.appendOut_taken (bs : List Byte) : (s.appendOut bs).taken = s.taken := rfl
@[simp] theorem State.appendOut_hostVal (bs : List Byte) : (s.appendOut bs).hostVal = s.hostVal := rfl
@[simp] theorem State.appendOut_script (bs : List Byte) : (s.appendOut bs).script = s.script := rfl

@[simp] theorem State.writeBlock_a0 (p x y w h : Nat) (f : Nat → Nat → Byte) : (s.writeBlock p x y w h f).a0 = s.a0 := rfl
@[simp] theorem State.writeBlock_a1 (p x y w h : Nat) (f : Nat → Nat → Byte) : (s.writeBlock p x y w h f).a1 = s.a1 := rfl
@[simp] theorem State.writeBlock_a2 (p x y w h : Nat) (f : Nat → Nat → Byte) : (s.writeBlock p x y w h f).a2 = s.a2 := rfl
@[simp] theorem State.writeBlock_ret0 (p x y w h : Nat) (f : Nat → Nat → Byte) : (s.writeBlock p x y w h f).ret0 = s.ret0 := rfl
@[simp] theorem State.writeBlock_ret1 (p x y w h : Nat) (f : Nat → Nat → Byte) : (s.writeBlock p x y w h f).ret1 = s.ret1 := rfl
@[simp] theorem State.writeBlock_pos (p x y w h : Nat) (f : Nat → Nat → Byte) : (s.writeBlock p x y w h f).pos = s.pos := rfl
@[simp] theorem State.writeBlock_bitpos (p x y w h : Nat) (f : Nat → Nat → Byte) : (s.writeBlock p x y w h f).bitpos = s.bitpos := rfl
@[simp] theorem State.writeBlock_win (p x y w h : Nat) (f : Nat → Nat → Byte) : (s.writeBlock p x y w h f).win = s.win := rfl
@[simp] theorem State.writeBlock_w16 (p x y w h : Nat) (f : Nat → Nat → Byte) : (s.writeBlock p x y w h f).w16 = s.w16 := rfl
@[simp] theorem State.writeBlock_le (p x y w h : Nat) (f : Nat → Nat → Byte) : (s.writeBlock p x y w h f).le = s.le := rfl
@[simp] theorem State.writeBlock_len (p x y w h : Nat) (f : Nat → Nat → Byte) : (s.writeBlock p x y w h f).len = s.len := rfl
@[simp] theorem State.writeBlock_fault (p x y w h : Nat) (f : Nat → Nat → Byte) : (s.writeBlock p x y w h f).fault = s.fault := rfl
@[simp] theorem State.writeBlock_quantQ (p x y w h : Nat) (f : Nat → Nat → Byte) : (s.writeBlock p x y w h f).quantQ = s.quantQ := rfl
@[simp] theorem State.writeBlock_dctTab (p x y w h : Nat) (f : Nat → Nat → Byte) : (s.writeBlock p x y w h f).dctTab = s.dctTab := rfl
@[simp] theorem State.writeBlock_qt4 (p x y w h : Nat) (f : Nat → Nat → Byte) : (s.writeBlock p x y w h f).qt4 = s.qt4 := rfl
@[simp] theorem State.writeBlock_qt8 (p x y w h : Nat) (f : Nat → Nat → Byte) : (s.writeBlock p x y w h f).qt8 = s.qt8 := rfl
@[simp] theorem State.writeBlock_frame (p x y w h : Nat) (f : Nat → Nat → Byte) : (s.writeBlock p x y w h f).frame = s.frame := rfl
@[simp] theorem State.writeBlock_cur (p x y w h : Nat) (f : Nat → Nat → Byte) : (s.writeBlock p x y w h f).cur = s.cur := rfl
@[simp] theorem State.writeBlock_valid (p x y w h : Nat) (f : Nat → Nat → Byte) : (s.writeBlock p x y w h f).valid = s.valid := rfl
@[simp] theorem State.writeBlock_qv (p x y w h : Nat) (f : Nat → Nat → Byte) : (s.writeBlock p x y w h f).qv = s.qv := rfl
@[simp] theorem State.writeBlock_mvpv (p x y w h : Nat) (f : Nat → Nat → Byte) : (s.writeBlock p x y w h f).mvpv = s.mvpv := rfl
@[simp] theorem State.writeBlock_pmcv (p x y w h : Nat) (f : Nat → Nat → Byte) : (s.writeBlock p x y w h f).pmcv = s.pmcv := rfl
@[simp] theorem State.writeBlock_framev (p x y w h : Nat) (f : Nat → Nat → Byte) : (s.writeBlock p x y w h f).framev = s.framev := rfl
@[simp] theorem State.writeBlock_planes (p x y w h : Nat) (f : Nat → Nat → Byte) : (s.writeBlock p x y w h f).planes = writeCells s.planes s.cur.val p x y f (blockCells w h) := rfl
@[simp] theorem State.writeBlock_era (p x y w h : Nat) (f : Nat → Nat → Byte) : (s.writeBlock p x y w h f).era = s.era := rfl
@[simp] theorem State.writeBlock_mvp (p x y w h : Nat) (f : Nat → Nat → Byte) : (s.writeBlock p x y w h f).mvp = s.mvp := rfl
@[simp] theorem State.writeBlock_alsave (p x y w h : Nat) (f : Nat → Nat → Byte) : (s.writeBlock p x y w h f).alsave = s.alsave := rfl
@[simp] theorem State.writeBlock_pmc (p x y w h : Nat) (f : Nat → Nat → Byte) : (s.writeBlock p x y w h f).pmc = s.pmc := rfl
@[simp] theorem State.writeBlock_out (p x y w h : Nat) (f : Nat → Nat → Byte) : (s.writeBlock p x y w h f).out = s.out := rfl
@[simp] theorem State.writeBlock_outcnt (p x y w h : Nat) (f : Nat → Nat → Byte) : (s.writeBlock p x y w h f).outcnt = s.outcnt := rfl
@[simp] theorem State.writeBlock_rom (p x y w h : Nat) (f : Nat → Nat → Byte) : (s.writeBlock p x y w h f).rom = s.rom := rfl
@[simp] theorem State.writeBlock_source (p x y w h : Nat) (f : Nat → Nat → Byte) : (s.writeBlock p x y w h f).source = s.source := rfl
@[simp] theorem State.writeBlock_draws (p x y w h : Nat) (f : Nat → Nat → Byte) : (s.writeBlock p x y w h f).draws = s.draws := rfl
@[simp] theorem State.writeBlock_taken (p x y w h : Nat) (f : Nat → Nat → Byte) : (s.writeBlock p x y w h f).taken = s.taken := rfl
@[simp] theorem State.writeBlock_hostVal (p x y w h : Nat) (f : Nat → Nat → Byte) : (s.writeBlock p x y w h f).hostVal = s.hostVal := rfl
@[simp] theorem State.writeBlock_script (p x y w h : Nat) (f : Nat → Nat → Byte) : (s.writeBlock p x y w h f).script = s.script := rfl

@[simp] theorem State.loadQuant_a0 (q : BitVec 6) : (s.loadQuant q).a0 = s.a0 := rfl
@[simp] theorem State.loadQuant_a1 (q : BitVec 6) : (s.loadQuant q).a1 = s.a1 := rfl
@[simp] theorem State.loadQuant_a2 (q : BitVec 6) : (s.loadQuant q).a2 = s.a2 := rfl
@[simp] theorem State.loadQuant_ret0 (q : BitVec 6) : (s.loadQuant q).ret0 = s.ret0 := rfl
@[simp] theorem State.loadQuant_ret1 (q : BitVec 6) : (s.loadQuant q).ret1 = s.ret1 := rfl
@[simp] theorem State.loadQuant_pos (q : BitVec 6) : (s.loadQuant q).pos = s.pos := rfl
@[simp] theorem State.loadQuant_bitpos (q : BitVec 6) : (s.loadQuant q).bitpos = s.bitpos := rfl
@[simp] theorem State.loadQuant_win (q : BitVec 6) : (s.loadQuant q).win = s.win := rfl
@[simp] theorem State.loadQuant_w16 (q : BitVec 6) : (s.loadQuant q).w16 = s.w16 := rfl
@[simp] theorem State.loadQuant_le (q : BitVec 6) : (s.loadQuant q).le = s.le := rfl
@[simp] theorem State.loadQuant_len (q : BitVec 6) : (s.loadQuant q).len = s.len := rfl
@[simp] theorem State.loadQuant_fault (q : BitVec 6) : (s.loadQuant q).fault = s.fault := rfl
@[simp] theorem State.loadQuant_quantQ (q : BitVec 6) : (s.loadQuant q).quantQ = q := rfl
@[simp] theorem State.loadQuant_dctTab (q : BitVec 6) : (s.loadQuant q).dctTab = s.dctTab := rfl
@[simp] theorem State.loadQuant_qt4 (q : BitVec 6) : (s.loadQuant q).qt4 = qtab4 q := rfl
@[simp] theorem State.loadQuant_qt8 (q : BitVec 6) : (s.loadQuant q).qt8 = qtab8 q := rfl
@[simp] theorem State.loadQuant_frame (q : BitVec 6) : (s.loadQuant q).frame = s.frame := rfl
@[simp] theorem State.loadQuant_cur (q : BitVec 6) : (s.loadQuant q).cur = s.cur := rfl
@[simp] theorem State.loadQuant_valid (q : BitVec 6) : (s.loadQuant q).valid = s.valid := rfl
@[simp] theorem State.loadQuant_qv (q : BitVec 6) : (s.loadQuant q).qv = s.qv := rfl
@[simp] theorem State.loadQuant_mvpv (q : BitVec 6) : (s.loadQuant q).mvpv = s.mvpv := rfl
@[simp] theorem State.loadQuant_pmcv (q : BitVec 6) : (s.loadQuant q).pmcv = s.pmcv := rfl
@[simp] theorem State.loadQuant_framev (q : BitVec 6) : (s.loadQuant q).framev = s.framev := rfl
@[simp] theorem State.loadQuant_planes (q : BitVec 6) : (s.loadQuant q).planes = s.planes := rfl
@[simp] theorem State.loadQuant_era (q : BitVec 6) : (s.loadQuant q).era = s.era := rfl
@[simp] theorem State.loadQuant_mvp (q : BitVec 6) : (s.loadQuant q).mvp = s.mvp := rfl
@[simp] theorem State.loadQuant_alsave (q : BitVec 6) : (s.loadQuant q).alsave = s.alsave := rfl
@[simp] theorem State.loadQuant_pmc (q : BitVec 6) : (s.loadQuant q).pmc = s.pmc := rfl
@[simp] theorem State.loadQuant_out (q : BitVec 6) : (s.loadQuant q).out = s.out := rfl
@[simp] theorem State.loadQuant_outcnt (q : BitVec 6) : (s.loadQuant q).outcnt = s.outcnt := rfl
@[simp] theorem State.loadQuant_rom (q : BitVec 6) : (s.loadQuant q).rom = s.rom := rfl
@[simp] theorem State.loadQuant_source (q : BitVec 6) : (s.loadQuant q).source = s.source := rfl
@[simp] theorem State.loadQuant_draws (q : BitVec 6) : (s.loadQuant q).draws = s.draws := rfl
@[simp] theorem State.loadQuant_taken (q : BitVec 6) : (s.loadQuant q).taken = s.taken := rfl
@[simp] theorem State.loadQuant_hostVal (q : BitVec 6) : (s.loadQuant q).hostVal = s.hostVal := rfl
@[simp] theorem State.loadQuant_script (q : BitVec 6) : (s.loadQuant q).script = s.script := rfl

@[simp] theorem State.writeLen_a0 (v : Word) : (s.writeLen v).a0 = s.a0 := rfl
@[simp] theorem State.writeLen_a1 (v : Word) : (s.writeLen v).a1 = s.a1 := rfl
@[simp] theorem State.writeLen_a2 (v : Word) : (s.writeLen v).a2 = s.a2 := rfl
@[simp] theorem State.writeLen_ret0 (v : Word) : (s.writeLen v).ret0 = s.ret0 := rfl
@[simp] theorem State.writeLen_ret1 (v : Word) : (s.writeLen v).ret1 = s.ret1 := rfl
@[simp] theorem State.writeLen_pos (v : Word) : (s.writeLen v).pos = s.pos := rfl
@[simp] theorem State.writeLen_bitpos (v : Word) : (s.writeLen v).bitpos = s.bitpos := rfl
@[simp] theorem State.writeLen_win (v : Word) : (s.writeLen v).win = s.win := rfl
@[simp] theorem State.writeLen_w16 (v : Word) : (s.writeLen v).w16 = s.w16 := rfl
@[simp] theorem State.writeLen_le (v : Word) : (s.writeLen v).le = s.le := rfl
@[simp] theorem State.writeLen_len (v : Word) : (s.writeLen v).len = (if lenMax < v.toNat then BitVec.ofNat 28 lenMax else v.setWidth 28) := rfl
@[simp] theorem State.writeLen_fault (v : Word) : (s.writeLen v).fault = s.fault := rfl
@[simp] theorem State.writeLen_quantQ (v : Word) : (s.writeLen v).quantQ = s.quantQ := rfl
@[simp] theorem State.writeLen_dctTab (v : Word) : (s.writeLen v).dctTab = s.dctTab := rfl
@[simp] theorem State.writeLen_qt4 (v : Word) : (s.writeLen v).qt4 = s.qt4 := rfl
@[simp] theorem State.writeLen_qt8 (v : Word) : (s.writeLen v).qt8 = s.qt8 := rfl
@[simp] theorem State.writeLen_frame (v : Word) : (s.writeLen v).frame = s.frame := rfl
@[simp] theorem State.writeLen_cur (v : Word) : (s.writeLen v).cur = s.cur := rfl
@[simp] theorem State.writeLen_valid (v : Word) : (s.writeLen v).valid = s.valid := rfl
@[simp] theorem State.writeLen_qv (v : Word) : (s.writeLen v).qv = s.qv := rfl
@[simp] theorem State.writeLen_mvpv (v : Word) : (s.writeLen v).mvpv = s.mvpv := rfl
@[simp] theorem State.writeLen_pmcv (v : Word) : (s.writeLen v).pmcv = s.pmcv := rfl
@[simp] theorem State.writeLen_framev (v : Word) : (s.writeLen v).framev = s.framev := rfl
@[simp] theorem State.writeLen_planes (v : Word) : (s.writeLen v).planes = s.planes := rfl
@[simp] theorem State.writeLen_era (v : Word) : (s.writeLen v).era = s.era := rfl
@[simp] theorem State.writeLen_mvp (v : Word) : (s.writeLen v).mvp = s.mvp := rfl
@[simp] theorem State.writeLen_alsave (v : Word) : (s.writeLen v).alsave = s.alsave := rfl
@[simp] theorem State.writeLen_pmc (v : Word) : (s.writeLen v).pmc = s.pmc := rfl
@[simp] theorem State.writeLen_out (v : Word) : (s.writeLen v).out = s.out := rfl
@[simp] theorem State.writeLen_outcnt (v : Word) : (s.writeLen v).outcnt = s.outcnt := rfl
@[simp] theorem State.writeLen_rom (v : Word) : (s.writeLen v).rom = s.rom := rfl
@[simp] theorem State.writeLen_source (v : Word) : (s.writeLen v).source = s.source := rfl
@[simp] theorem State.writeLen_draws (v : Word) : (s.writeLen v).draws = s.draws := rfl
@[simp] theorem State.writeLen_taken (v : Word) : (s.writeLen v).taken = s.taken := rfl
@[simp] theorem State.writeLen_hostVal (v : Word) : (s.writeLen v).hostVal = s.hostVal := rfl
@[simp] theorem State.writeLen_script (v : Word) : (s.writeLen v).script = s.script := rfl

@[simp] theorem State.writeCfg_a0 (v : Word) : (s.writeCfg v).a0 = s.a0 := rfl
@[simp] theorem State.writeCfg_a1 (v : Word) : (s.writeCfg v).a1 = s.a1 := rfl
@[simp] theorem State.writeCfg_a2 (v : Word) : (s.writeCfg v).a2 = s.a2 := rfl
@[simp] theorem State.writeCfg_ret0 (v : Word) : (s.writeCfg v).ret0 = s.ret0 := rfl
@[simp] theorem State.writeCfg_ret1 (v : Word) : (s.writeCfg v).ret1 = s.ret1 := rfl
@[simp] theorem State.writeCfg_pos (v : Word) : (s.writeCfg v).pos = s.pos := rfl
@[simp] theorem State.writeCfg_bitpos (v : Word) : (s.writeCfg v).bitpos = 0#4 := rfl
@[simp] theorem State.writeCfg_win (v : Word) : (s.writeCfg v).win = windowBits (v.getLsbD 0) ((Config.freeWord s.draws).setWidth 16) := rfl
@[simp] theorem State.writeCfg_w16 (v : Word) : (s.writeCfg v).w16 = v.getLsbD 0 := rfl
@[simp] theorem State.writeCfg_le (v : Word) : (s.writeCfg v).le = v.getLsbD 1 := rfl
@[simp] theorem State.writeCfg_len (v : Word) : (s.writeCfg v).len = s.len := rfl
@[simp] theorem State.writeCfg_fault (v : Word) : (s.writeCfg v).fault = s.fault := rfl
@[simp] theorem State.writeCfg_quantQ (v : Word) : (s.writeCfg v).quantQ = s.quantQ := rfl
@[simp] theorem State.writeCfg_dctTab (v : Word) : (s.writeCfg v).dctTab = s.dctTab := rfl
@[simp] theorem State.writeCfg_qt4 (v : Word) : (s.writeCfg v).qt4 = s.qt4 := rfl
@[simp] theorem State.writeCfg_qt8 (v : Word) : (s.writeCfg v).qt8 = s.qt8 := rfl
@[simp] theorem State.writeCfg_frame (v : Word) : (s.writeCfg v).frame = s.frame := rfl
@[simp] theorem State.writeCfg_cur (v : Word) : (s.writeCfg v).cur = s.cur := rfl
@[simp] theorem State.writeCfg_valid (v : Word) : (s.writeCfg v).valid = s.valid := rfl
@[simp] theorem State.writeCfg_qv (v : Word) : (s.writeCfg v).qv = s.qv := rfl
@[simp] theorem State.writeCfg_mvpv (v : Word) : (s.writeCfg v).mvpv = s.mvpv := rfl
@[simp] theorem State.writeCfg_pmcv (v : Word) : (s.writeCfg v).pmcv = s.pmcv := rfl
@[simp] theorem State.writeCfg_framev (v : Word) : (s.writeCfg v).framev = s.framev := rfl
@[simp] theorem State.writeCfg_planes (v : Word) : (s.writeCfg v).planes = s.planes := rfl
@[simp] theorem State.writeCfg_era (v : Word) : (s.writeCfg v).era = s.era := rfl
@[simp] theorem State.writeCfg_mvp (v : Word) : (s.writeCfg v).mvp = s.mvp := rfl
@[simp] theorem State.writeCfg_alsave (v : Word) : (s.writeCfg v).alsave = s.alsave := rfl
@[simp] theorem State.writeCfg_pmc (v : Word) : (s.writeCfg v).pmc = s.pmc := rfl
@[simp] theorem State.writeCfg_out (v : Word) : (s.writeCfg v).out = s.out := rfl
@[simp] theorem State.writeCfg_outcnt (v : Word) : (s.writeCfg v).outcnt = s.outcnt := rfl
@[simp] theorem State.writeCfg_rom (v : Word) : (s.writeCfg v).rom = s.rom := rfl
@[simp] theorem State.writeCfg_source (v : Word) : (s.writeCfg v).source = s.source := rfl
@[simp] theorem State.writeCfg_draws (v : Word) : (s.writeCfg v).draws = s.draws + 1 := rfl
@[simp] theorem State.writeCfg_taken (v : Word) : (s.writeCfg v).taken = s.taken := rfl
@[simp] theorem State.writeCfg_hostVal (v : Word) : (s.writeCfg v).hostVal = s.hostVal := rfl
@[simp] theorem State.writeCfg_script (v : Word) : (s.writeCfg v).script = s.script := rfl

@[simp] theorem State.writeFrame_a0 (v : Word) : (s.writeFrame v).a0 = s.a0 := rfl
@[simp] theorem State.writeFrame_a1 (v : Word) : (s.writeFrame v).a1 = s.a1 := rfl
@[simp] theorem State.writeFrame_a2 (v : Word) : (s.writeFrame v).a2 = s.a2 := rfl
@[simp] theorem State.writeFrame_ret0 (v : Word) : (s.writeFrame v).ret0 = s.ret0 := rfl
@[simp] theorem State.writeFrame_ret1 (v : Word) : (s.writeFrame v).ret1 = s.ret1 := rfl
@[simp] theorem State.writeFrame_pos (v : Word) : (s.writeFrame v).pos = s.pos := rfl
@[simp] theorem State.writeFrame_bitpos (v : Word) : (s.writeFrame v).bitpos = s.bitpos := rfl
@[simp] theorem State.writeFrame_win (v : Word) : (s.writeFrame v).win = s.win := rfl
@[simp] theorem State.writeFrame_w16 (v : Word) : (s.writeFrame v).w16 = s.w16 := rfl
@[simp] theorem State.writeFrame_le (v : Word) : (s.writeFrame v).le = s.le := rfl
@[simp] theorem State.writeFrame_len (v : Word) : (s.writeFrame v).len = s.len := rfl
@[simp] theorem State.writeFrame_fault (v : Word) : (s.writeFrame v).fault = s.fault := rfl
@[simp] theorem State.writeFrame_quantQ (v : Word) : (s.writeFrame v).quantQ = s.quantQ := rfl
@[simp] theorem State.writeFrame_dctTab (v : Word) : (s.writeFrame v).dctTab = s.dctTab := rfl
@[simp] theorem State.writeFrame_qt4 (v : Word) : (s.writeFrame v).qt4 = s.qt4 := rfl
@[simp] theorem State.writeFrame_qt8 (v : Word) : (s.writeFrame v).qt8 = s.qt8 := rfl
@[simp] theorem State.writeFrame_frame (v : Word) : (s.writeFrame v).frame = v := rfl
@[simp] theorem State.writeFrame_cur (v : Word) : (s.writeFrame v).cur = 0 := rfl
@[simp] theorem State.writeFrame_valid (v : Word) : (s.writeFrame v).valid = 0#6 := rfl
@[simp] theorem State.writeFrame_qv (v : Word) : (s.writeFrame v).qv = s.qv := rfl
@[simp] theorem State.writeFrame_mvpv (v : Word) : (s.writeFrame v).mvpv = false := rfl
@[simp] theorem State.writeFrame_pmcv (v : Word) : (s.writeFrame v).pmcv = false := rfl
@[simp] theorem State.writeFrame_framev (v : Word) : (s.writeFrame v).framev = frameLegal v := rfl
@[simp] theorem State.writeFrame_planes (v : Word) : (s.writeFrame v).planes = [] := rfl
@[simp] theorem State.writeFrame_era (v : Word) : (s.writeFrame v).era = s.era + 1 := rfl
@[simp] theorem State.writeFrame_mvp (v : Word) : (s.writeFrame v).mvp = s.mvp := rfl
@[simp] theorem State.writeFrame_alsave (v : Word) : (s.writeFrame v).alsave = s.alsave := rfl
@[simp] theorem State.writeFrame_pmc (v : Word) : (s.writeFrame v).pmc = s.pmc := rfl
@[simp] theorem State.writeFrame_out (v : Word) : (s.writeFrame v).out = s.out := rfl
@[simp] theorem State.writeFrame_outcnt (v : Word) : (s.writeFrame v).outcnt = s.outcnt := rfl
@[simp] theorem State.writeFrame_rom (v : Word) : (s.writeFrame v).rom = s.rom := rfl
@[simp] theorem State.writeFrame_source (v : Word) : (s.writeFrame v).source = s.source := rfl
@[simp] theorem State.writeFrame_draws (v : Word) : (s.writeFrame v).draws = s.draws := rfl
@[simp] theorem State.writeFrame_taken (v : Word) : (s.writeFrame v).taken = s.taken := rfl
@[simp] theorem State.writeFrame_hostVal (v : Word) : (s.writeFrame v).hostVal = s.hostVal := rfl
@[simp] theorem State.writeFrame_script (v : Word) : (s.writeFrame v).script = s.script := rfl

@[simp] theorem State.issue_a0 (w : Word) : (s.issue w).a0 = s.a0 := rfl
@[simp] theorem State.issue_a1 (w : Word) : (s.issue w).a1 = s.a1 := rfl
@[simp] theorem State.issue_a2 (w : Word) : (s.issue w).a2 = s.a2 := rfl
@[simp] theorem State.issue_ret0 (w : Word) : (s.issue w).ret0 = s.ret0 := rfl
@[simp] theorem State.issue_ret1 (w : Word) : (s.issue w).ret1 = s.ret1 := rfl
@[simp] theorem State.issue_pos (w : Word) : (s.issue w).pos = s.pos := rfl
@[simp] theorem State.issue_bitpos (w : Word) : (s.issue w).bitpos = s.bitpos := rfl
@[simp] theorem State.issue_win (w : Word) : (s.issue w).win = s.win := rfl
@[simp] theorem State.issue_w16 (w : Word) : (s.issue w).w16 = s.w16 := rfl
@[simp] theorem State.issue_le (w : Word) : (s.issue w).le = s.le := rfl
@[simp] theorem State.issue_len (w : Word) : (s.issue w).len = s.len := rfl
@[simp] theorem State.issue_fault (w : Word) : (s.issue w).fault = s.fault := rfl
@[simp] theorem State.issue_quantQ (w : Word) : (s.issue w).quantQ = s.quantQ := rfl
@[simp] theorem State.issue_dctTab (w : Word) : (s.issue w).dctTab = s.dctTab := rfl
@[simp] theorem State.issue_qt4 (w : Word) : (s.issue w).qt4 = s.qt4 := rfl
@[simp] theorem State.issue_qt8 (w : Word) : (s.issue w).qt8 = s.qt8 := rfl
@[simp] theorem State.issue_frame (w : Word) : (s.issue w).frame = s.frame := rfl
@[simp] theorem State.issue_cur (w : Word) : (s.issue w).cur = s.cur := rfl
@[simp] theorem State.issue_valid (w : Word) : (s.issue w).valid = s.valid := rfl
@[simp] theorem State.issue_qv (w : Word) : (s.issue w).qv = s.qv := rfl
@[simp] theorem State.issue_mvpv (w : Word) : (s.issue w).mvpv = s.mvpv := rfl
@[simp] theorem State.issue_pmcv (w : Word) : (s.issue w).pmcv = s.pmcv := rfl
@[simp] theorem State.issue_framev (w : Word) : (s.issue w).framev = s.framev := rfl
@[simp] theorem State.issue_planes (w : Word) : (s.issue w).planes = s.planes := rfl
@[simp] theorem State.issue_era (w : Word) : (s.issue w).era = s.era := rfl
@[simp] theorem State.issue_mvp (w : Word) : (s.issue w).mvp = s.mvp := rfl
@[simp] theorem State.issue_alsave (w : Word) : (s.issue w).alsave = s.alsave := rfl
@[simp] theorem State.issue_pmc (w : Word) : (s.issue w).pmc = s.pmc := rfl
@[simp] theorem State.issue_out (w : Word) : (s.issue w).out = s.out := rfl
@[simp] theorem State.issue_outcnt (w : Word) : (s.issue w).outcnt = s.outcnt := rfl
@[simp] theorem State.issue_rom (w : Word) : (s.issue w).rom = s.rom := rfl
@[simp] theorem State.issue_source (w : Word) : (s.issue w).source = s.source := rfl
@[simp] theorem State.issue_draws (w : Word) : (s.issue w).draws = s.draws := rfl
@[simp] theorem State.issue_taken (w : Word) : (s.issue w).taken = s.taken := rfl
@[simp] theorem State.issue_hostVal (w : Word) : (s.issue w).hostVal = s.hostVal := rfl
@[simp] theorem State.issue_script (w : Word) : (s.issue w).script = .write .word 0 w :: s.script := rfl

@[simp] theorem State.scramble_a0 : s.scramble.a0 = s.a0 := rfl
@[simp] theorem State.scramble_a1 : s.scramble.a1 = s.a1 := rfl
@[simp] theorem State.scramble_a2 : s.scramble.a2 = s.a2 := rfl
@[simp] theorem State.scramble_w16 : s.scramble.w16 = s.w16 := rfl
@[simp] theorem State.scramble_le : s.scramble.le = s.le := rfl
@[simp] theorem State.scramble_len : s.scramble.len = s.len := rfl
@[simp] theorem State.scramble_fault : s.scramble.fault = s.fault := rfl
@[simp] theorem State.scramble_frame : s.scramble.frame = s.frame := rfl
@[simp] theorem State.scramble_cur : s.scramble.cur = s.cur := rfl
@[simp] theorem State.scramble_valid : s.scramble.valid = s.valid := rfl
@[simp] theorem State.scramble_qv : s.scramble.qv = s.qv := rfl
@[simp] theorem State.scramble_mvpv : s.scramble.mvpv = s.mvpv := rfl
@[simp] theorem State.scramble_pmcv : s.scramble.pmcv = s.pmcv := rfl
@[simp] theorem State.scramble_framev : s.scramble.framev = s.framev := rfl
@[simp] theorem State.scramble_out : s.scramble.out = s.out := rfl
@[simp] theorem State.scramble_outcnt : s.scramble.outcnt = s.outcnt := rfl
@[simp] theorem State.scramble_rom : s.scramble.rom = s.rom := rfl
@[simp] theorem State.scramble_source : s.scramble.source = s.source := rfl
@[simp] theorem State.scramble_taken : s.scramble.taken = s.taken := rfl
@[simp] theorem State.scramble_hostVal : s.scramble.hostVal = s.hostVal := rfl
@[simp] theorem State.scramble_script : s.scramble.script = s.script := rfl
@[simp] theorem State.scramble_planes : s.scramble.planes = [] := rfl
@[simp] theorem State.scramble_era : s.scramble.era = s.era + 1 := rfl
@[simp] theorem State.scramble_draws : s.scramble.draws = s.draws + 1 := rfl

@[simp] theorem State.raise_a0 (f : FaultKind) (i : Int) : (s.raise f i).a0 = s.a0 := by
  unfold State.raise; split <;> rfl
@[simp] theorem State.raise_a1 (f : FaultKind) (i : Int) : (s.raise f i).a1 = s.a1 := by
  unfold State.raise; split <;> rfl
@[simp] theorem State.raise_a2 (f : FaultKind) (i : Int) : (s.raise f i).a2 = s.a2 := by
  unfold State.raise; split <;> rfl
@[simp] theorem State.raise_ret0 (f : FaultKind) (i : Int) : (s.raise f i).ret0 = s.ret0 := by
  unfold State.raise; split <;> rfl
@[simp] theorem State.raise_ret1 (f : FaultKind) (i : Int) : (s.raise f i).ret1 = s.ret1 := by
  unfold State.raise; split <;> rfl
@[simp] theorem State.raise_pos (f : FaultKind) (i : Int) : (s.raise f i).pos = s.pos := by
  unfold State.raise; split <;> rfl
@[simp] theorem State.raise_bitpos (f : FaultKind) (i : Int) : (s.raise f i).bitpos = s.bitpos := by
  unfold State.raise; split <;> rfl
@[simp] theorem State.raise_win (f : FaultKind) (i : Int) : (s.raise f i).win = s.win := by
  unfold State.raise; split <;> rfl
@[simp] theorem State.raise_w16 (f : FaultKind) (i : Int) : (s.raise f i).w16 = s.w16 := by
  unfold State.raise; split <;> rfl
@[simp] theorem State.raise_le (f : FaultKind) (i : Int) : (s.raise f i).le = s.le := by
  unfold State.raise; split <;> rfl
@[simp] theorem State.raise_len (f : FaultKind) (i : Int) : (s.raise f i).len = s.len := by
  unfold State.raise; split <;> rfl
@[simp] theorem State.raise_quantQ (f : FaultKind) (i : Int) : (s.raise f i).quantQ = s.quantQ := by
  unfold State.raise; split <;> rfl
@[simp] theorem State.raise_dctTab (f : FaultKind) (i : Int) : (s.raise f i).dctTab = s.dctTab := by
  unfold State.raise; split <;> rfl
@[simp] theorem State.raise_qt4 (f : FaultKind) (i : Int) : (s.raise f i).qt4 = s.qt4 := by
  unfold State.raise; split <;> rfl
@[simp] theorem State.raise_qt8 (f : FaultKind) (i : Int) : (s.raise f i).qt8 = s.qt8 := by
  unfold State.raise; split <;> rfl
@[simp] theorem State.raise_frame (f : FaultKind) (i : Int) : (s.raise f i).frame = s.frame := by
  unfold State.raise; split <;> rfl
@[simp] theorem State.raise_cur (f : FaultKind) (i : Int) : (s.raise f i).cur = s.cur := by
  unfold State.raise; split <;> rfl
@[simp] theorem State.raise_valid (f : FaultKind) (i : Int) : (s.raise f i).valid = s.valid := by
  unfold State.raise; split <;> rfl
@[simp] theorem State.raise_qv (f : FaultKind) (i : Int) : (s.raise f i).qv = s.qv := by
  unfold State.raise; split <;> rfl
@[simp] theorem State.raise_mvpv (f : FaultKind) (i : Int) : (s.raise f i).mvpv = s.mvpv := by
  unfold State.raise; split <;> rfl
@[simp] theorem State.raise_pmcv (f : FaultKind) (i : Int) : (s.raise f i).pmcv = s.pmcv := by
  unfold State.raise; split <;> rfl
@[simp] theorem State.raise_framev (f : FaultKind) (i : Int) : (s.raise f i).framev = s.framev := by
  unfold State.raise; split <;> rfl
@[simp] theorem State.raise_planes (f : FaultKind) (i : Int) : (s.raise f i).planes = s.planes := by
  unfold State.raise; split <;> rfl
@[simp] theorem State.raise_era (f : FaultKind) (i : Int) : (s.raise f i).era = s.era := by
  unfold State.raise; split <;> rfl
@[simp] theorem State.raise_mvp (f : FaultKind) (i : Int) : (s.raise f i).mvp = s.mvp := by
  unfold State.raise; split <;> rfl
@[simp] theorem State.raise_alsave (f : FaultKind) (i : Int) : (s.raise f i).alsave = s.alsave := by
  unfold State.raise; split <;> rfl
@[simp] theorem State.raise_pmc (f : FaultKind) (i : Int) : (s.raise f i).pmc = s.pmc := by
  unfold State.raise; split <;> rfl
@[simp] theorem State.raise_out (f : FaultKind) (i : Int) : (s.raise f i).out = s.out := by
  unfold State.raise; split <;> rfl
@[simp] theorem State.raise_outcnt (f : FaultKind) (i : Int) : (s.raise f i).outcnt = s.outcnt := by
  unfold State.raise; split <;> rfl
@[simp] theorem State.raise_rom (f : FaultKind) (i : Int) : (s.raise f i).rom = s.rom := by
  unfold State.raise; split <;> rfl
@[simp] theorem State.raise_source (f : FaultKind) (i : Int) : (s.raise f i).source = s.source := by
  unfold State.raise; split <;> rfl
@[simp] theorem State.raise_draws (f : FaultKind) (i : Int) : (s.raise f i).draws = s.draws := by
  unfold State.raise; split <;> rfl
@[simp] theorem State.raise_taken (f : FaultKind) (i : Int) : (s.raise f i).taken = s.taken := by
  unfold State.raise; split <;> rfl
@[simp] theorem State.raise_hostVal (f : FaultKind) (i : Int) : (s.raise f i).hostVal = s.hostVal := by
  unfold State.raise; split <;> rfl
@[simp] theorem State.raise_script (f : FaultKind) (i : Int) : (s.raise f i).script = s.script := by
  unfold State.raise; split <;> rfl

@[simp] theorem State.raiseLate_a0 (f : FaultKind) (i : Int) : (s.raiseLate f i).a0 = s.a0 := by
  unfold State.raiseLate; split <;> rfl
@[simp] theorem State.raiseLate_a1 (f : FaultKind) (i : Int) : (s.raiseLate f i).a1 = s.a1 := by
  unfold State.raiseLate; split <;> rfl
@[simp] theorem State.raiseLate_a2 (f : FaultKind) (i : Int) : (s.raiseLate f i).a2 = s.a2 := by
  unfold State.raiseLate; split <;> rfl
@[simp] theorem State.raiseLate_w16 (f : FaultKind) (i : Int) : (s.raiseLate f i).w16 = s.w16 := by
  unfold State.raiseLate; split <;> rfl
@[simp] theorem State.raiseLate_le (f : FaultKind) (i : Int) : (s.raiseLate f i).le = s.le := by
  unfold State.raiseLate; split <;> rfl
@[simp] theorem State.raiseLate_len (f : FaultKind) (i : Int) : (s.raiseLate f i).len = s.len := by
  unfold State.raiseLate; split <;> rfl
@[simp] theorem State.raiseLate_frame (f : FaultKind) (i : Int) : (s.raiseLate f i).frame = s.frame := by
  unfold State.raiseLate; split <;> rfl
@[simp] theorem State.raiseLate_cur (f : FaultKind) (i : Int) : (s.raiseLate f i).cur = s.cur := by
  unfold State.raiseLate; split <;> rfl
@[simp] theorem State.raiseLate_valid (f : FaultKind) (i : Int) : (s.raiseLate f i).valid = s.valid := by
  unfold State.raiseLate; split <;> rfl
@[simp] theorem State.raiseLate_qv (f : FaultKind) (i : Int) : (s.raiseLate f i).qv = s.qv := by
  unfold State.raiseLate; split <;> rfl
@[simp] theorem State.raiseLate_mvpv (f : FaultKind) (i : Int) : (s.raiseLate f i).mvpv = s.mvpv := by
  unfold State.raiseLate; split <;> rfl
@[simp] theorem State.raiseLate_pmcv (f : FaultKind) (i : Int) : (s.raiseLate f i).pmcv = s.pmcv := by
  unfold State.raiseLate; split <;> rfl
@[simp] theorem State.raiseLate_framev (f : FaultKind) (i : Int) : (s.raiseLate f i).framev = s.framev := by
  unfold State.raiseLate; split <;> rfl
@[simp] theorem State.raiseLate_out (f : FaultKind) (i : Int) : (s.raiseLate f i).out = s.out := by
  unfold State.raiseLate; split <;> rfl
@[simp] theorem State.raiseLate_outcnt (f : FaultKind) (i : Int) : (s.raiseLate f i).outcnt = s.outcnt := by
  unfold State.raiseLate; split <;> rfl
@[simp] theorem State.raiseLate_rom (f : FaultKind) (i : Int) : (s.raiseLate f i).rom = s.rom := by
  unfold State.raiseLate; split <;> rfl
@[simp] theorem State.raiseLate_source (f : FaultKind) (i : Int) : (s.raiseLate f i).source = s.source := by
  unfold State.raiseLate; split <;> rfl
@[simp] theorem State.raiseLate_taken (f : FaultKind) (i : Int) : (s.raiseLate f i).taken = s.taken := by
  unfold State.raiseLate; split <;> rfl
@[simp] theorem State.raiseLate_hostVal (f : FaultKind) (i : Int) : (s.raiseLate f i).hostVal = s.hostVal := by
  unfold State.raiseLate; split <;> rfl
@[simp] theorem State.raiseLate_script (f : FaultKind) (i : Int) : (s.raiseLate f i).script = s.script := by
  unfold State.raiseLate; split <;> rfl

@[simp] theorem State.toReset_a0 : s.toReset.a0 = 0#32 := rfl
@[simp] theorem State.toReset_a1 : s.toReset.a1 = 0#32 := rfl
@[simp] theorem State.toReset_a2 : s.toReset.a2 = 0#32 := rfl
@[simp] theorem State.toReset_ret0 : s.toReset.ret0 = 0#32 := rfl
@[simp] theorem State.toReset_ret1 : s.toReset.ret1 = 0#32 := rfl
@[simp] theorem State.toReset_pos : s.toReset.pos = 0#32 := rfl
@[simp] theorem State.toReset_bitpos : s.toReset.bitpos = 0#4 := rfl
@[simp] theorem State.toReset_win : s.toReset.win = 0#16 := rfl
@[simp] theorem State.toReset_w16 : s.toReset.w16 = false := rfl
@[simp] theorem State.toReset_le : s.toReset.le = false := rfl
@[simp] theorem State.toReset_len : s.toReset.len = 0#28 := rfl
@[simp] theorem State.toReset_fault : s.toReset.fault = 0#32 := rfl
@[simp] theorem State.toReset_quantQ : s.toReset.quantQ = 0#6 := rfl
@[simp] theorem State.toReset_dctTab : s.toReset.dctTab = false := rfl
@[simp] theorem State.toReset_qt4 : s.toReset.qt4 = [] := rfl
@[simp] theorem State.toReset_qt8 : s.toReset.qt8 = [] := rfl
@[simp] theorem State.toReset_frame : s.toReset.frame = 0#32 := rfl
@[simp] theorem State.toReset_cur : s.toReset.cur = 0 := rfl
@[simp] theorem State.toReset_valid : s.toReset.valid = 0#6 := rfl
@[simp] theorem State.toReset_qv : s.toReset.qv = false := rfl
@[simp] theorem State.toReset_mvpv : s.toReset.mvpv = false := rfl
@[simp] theorem State.toReset_pmcv : s.toReset.pmcv = false := rfl
@[simp] theorem State.toReset_framev : s.toReset.framev = false := rfl
@[simp] theorem State.toReset_planes : s.toReset.planes = [] := rfl
@[simp] theorem State.toReset_era : s.toReset.era = s.era + 1 := rfl
@[simp] theorem State.toReset_mvp : s.toReset.mvp = [] := rfl
@[simp] theorem State.toReset_alsave : s.toReset.alsave = zeroMv := rfl
@[simp] theorem State.toReset_pmc : s.toReset.pmc = [] := rfl
@[simp] theorem State.toReset_out : s.toReset.out = [] := rfl
@[simp] theorem State.toReset_outcnt : s.toReset.outcnt = 0#32 := rfl
@[simp] theorem State.toReset_rom : s.toReset.rom = s.rom := rfl
@[simp] theorem State.toReset_source : s.toReset.source = s.source := rfl
@[simp] theorem State.toReset_draws : s.toReset.draws = s.draws := rfl
@[simp] theorem State.toReset_taken : s.toReset.taken = 0 := rfl
@[simp] theorem State.toReset_hostVal : s.toReset.hostVal = s.hostVal := rfl
@[simp] theorem State.toReset_script : s.toReset.script = s.script := rfl

end

end Sys2Proof.Machine
end

