-- ==== Sys2Proof/Laws/Operands.lean ====
section
/-! SUPPORT. The operand forms: the arrangement a choice makes is one of the elements it is given, and the model's median is the
numeric one. -/

namespace Sys2Proof.Machine

/-- `pickOrder`, carried to the end, is an arrangement of the list it is given (R211 a; log entries 11, 19). -/
theorem pickOrder_perm (choice : Nat → Nat) (rest : List Nat) : (pickOrder choice rest.length rest).Perm rest := by
  generalize hk : rest.length = k
  induction k generalizing rest with
  | zero => rw [List.length_eq_zero_iff.mp hk]; exact .nil
  | succ k ih =>
    have hlt : choice k % rest.length < rest.length := Nat.mod_lt _ (by omega)
    have hd : rest.getD (choice k % rest.length) 0 = rest[choice k % rest.length] := by simp [hlt]
    rw [pickOrder, hd]
    refine ((ih _ ?_).cons _).trans (List.getElem_cons_eraseIdx_perm hlt)
    rw [List.length_eraseIdx_of_lt hlt, hk, Nat.add_sub_cancel]

/-- The model's `median3` is the numeric median (R14). -/
theorem isMedian_median3 (a b c : Int) : isMedian a b c (median3 a b c) := by
  unfold isMedian median3
  omega

/-- There is one numeric median (R14). -/
theorem isMedian_unique {a b c m n : Int} (hm : isMedian a b c m) (hn : isMedian a b c n) : m = n := by
  unfold isMedian at *
  omega

end Sys2Proof.Machine
end

