-- ==== Sys2Proof/Laws/Audio.lean ====
section
/-! SUPPORT. The audio decoders in the terms of claims, whatever the OPEN parameters: the interleaved output, the header values, the
samples of IMA-ADPCM (R305) and DSP-ADPCM (R312), and when they go wrong. -/

namespace Sys2Proof.Machine

/-! The output format and the header values. -/

theorem clamp16_eq (v : Int) : clamp16 v = max (-32768) (min 32767 v) := by unfold clamp16 clamp; split <;> (try split) <;> omega

theorem toNat_byte_append (a b : Byte) : (a ++ b).toNat = 256 * a.toNat + b.toNat := by
  rw [BitVec.toNat_append, ← Nat.shiftLeft_add_eq_or_of_lt b.isLt, Nat.shiftLeft_eq]; omega

/-- Header values are read alike (R309, R313). -/
theorem int16Of_eq (big : Bool) (bs : List Byte) (i : Nat) : int16Of big (bs.getD i 0#8) (bs.getD (i + 1) 0#8) = int16At big bs i := by
  unfold int16Of int16At signedValue
  cases big <;> simp only [if_true, Bool.false_eq_true, if_false, BitVec.toInt_eq_toNat_cond, toNat_byte_append] <;>
    split <;> split <;> omega

/-- The nibbles of a byte are read alike (R309, R314). -/
theorem nibblesOf_eq (lowFirst : Bool) (b : Byte) (i : Nat) :
    nibblesOf lowFirst b = [nibbleAt lowFirst b (2 * i), nibbleAt lowFirst b (2 * i + 1)] := by
  have h1 : 2 * i % 2 = 0 := by omega
  have h2 : (2 * i + 1) % 2 = 1 := by omega
  cases lowFirst <;> simp [nibblesOf, nibbleAt, h1, h2]

/-- Pairs laid end to end. -/
theorem flatMap_pairs {α : Type} (g : Nat → α) (n : Nat) :
    (List.range n).flatMap (fun b => [g (2 * b), g (2 * b + 1)]) = (List.range (2 * n)).map g := by
  induction n with
  | zero => rfl
  | succ n ih =>
    rw [List.range_succ, List.flatMap_append, ih, show 2 * (n + 1) = 2 * n + 1 + 1 by omega, List.range_succ, List.range_succ]
    simp

theorem arranged_perm (choice : Nat → Nat) (payload : List Byte) : (arranged choice payload).Perm payload := by
  have h := (pickOrder_perm choice (List.range payload.length)).map fun i => payload.getD i 0#8
  rw [List.length_range] at h
  refine h.trans (List.Perm.of_eq ?_)
  apply List.ext_getElem
  · simp
  · intro i h1 h2
    rw [List.getElem_map, List.getElem_range, List.getD_eq_getElem?_getD, List.getElem?_eq_getElem h2]
    rfl

/-- Arranging blocks keeps the number of bytes, and each block has the bytes it had. -/
theorem arrangedBlocks_spec (choice : Nat → Nat → Nat) (size n : Nat) : ∀ (f : Nat) (bs : List Byte), size * n ≤ bs.length →
    (arrangedBlocks choice size n f bs).length = bs.length ∧
    ∀ g, (((arrangedBlocks choice size n f bs).drop (size * g)).take size).Perm ((bs.drop (size * g)).take size) := by
  induction n with
  | zero => exact fun f bs _ => ⟨rfl, fun g => .refl _⟩
  | succ n ih =>
    intro f bs h
    rw [Nat.mul_succ] at h
    obtain ⟨h1, h2⟩ := ih (f + 1) (bs.drop size) (by rw [List.length_drop]; omega)
    have hp := arranged_perm (choice f) (bs.take size)
    have hl : (arranged (choice f) (bs.take size)).length = size := by rw [hp.length_eq, List.length_take]; omega
    rw [arrangedBlocks]
    refine ⟨by rw [List.length_append, hl, h1, List.length_drop]; omega, fun g => ?_⟩
    cases g with
    | zero => simpa [List.take_append_of_le_length (Nat.le_of_eq hl.symm), List.take_of_length_le (Nat.le_of_eq hl)] using hp
    | succ g =>
      have := h2 g
      rw [List.drop_drop] at this
      rwa [Nat.mul_succ, Nat.add_comm, ← List.drop_drop, List.drop_append_of_le_length (Nat.le_of_eq hl.symm),
        List.drop_of_length_le (Nat.le_of_eq hl), List.nil_append]

/-- Each channel has a header of its own (R305). -/
theorem imaHeaderOrder_perm (k : ImaParams) (chans : Nat) : (imaHeaderOrder k chans).Perm (List.range chans) := by
  simpa [imaHeaderOrder] using pickOrder_perm (k.headerChoice chans) (List.range chans)

/-- What the layout of IMA-ADPCM may do to the payload (R305): the headers stay, each subframe keeps its bytes, and one channel's payload
stays as it is. -/
theorem imaArranged_spec (k : ImaParams) (payload : List Byte) (chans : Nat) :
    (imaArranged k payload chans).length = payload.length ∧
    (imaArranged k payload chans).take (4 * chans) = payload.take (4 * chans) ∧
    (∀ f, (((imaArranged k payload chans).drop (4 * chans + 128 * chans * f)).take (128 * chans)).Perm
      ((payload.drop (4 * chans + 128 * chans * f)).take (128 * chans))) ∧
    (chans = 1 → imaArranged k payload chans = payload) := by
  by_cases h : chans = 1 ∨ payload.length < 4 * chans
  · have e : imaArranged k payload chans = payload := by
      unfold imaArranged
      split
      · rfl
      · rw [Nat.sub_eq_zero_of_le (by omega), Nat.zero_div, arrangedBlocks, List.take_append_drop]
    rw [e]
    exact ⟨rfl, rfl, fun _ => .refl _, fun _ => rfl⟩
  · obtain ⟨h1, h2⟩ := arrangedBlocks_spec (k.bodyChoice chans payload.length) (128 * chans)
      ((payload.length - 4 * chans) / (128 * chans)) 0 (payload.drop (4 * chans))
      (by rw [List.length_drop]; exact Nat.mul_div_le _ _)
    have ht : (payload.take (4 * chans)).length = 4 * chans := by rw [List.length_take]; omega
    rw [imaArranged, if_neg (by omega)]
    refine ⟨by rw [List.length_append, h1, ← List.length_append, List.take_append_drop],
      by rw [List.take_append_of_le_length (Nat.le_of_eq ht.symm), List.take_take, Nat.min_self], fun f => ?_, by omega⟩
    have hf := h2 f
    rw [List.drop_drop] at hf
    rwa [← List.drop_drop, List.drop_append_of_le_length (Nat.le_of_eq ht.symm), List.drop_of_length_le (Nat.le_of_eq ht),
      List.nil_append]

theorem sampleBytes_eq (v : Int) :
    sampleBytes v = [BitVec.ofInt 8 (v % 65536 % 256), BitVec.ofInt 8 (v % 65536 / 256)] := by
  have h : ((BitVec.ofInt 16 v).toNat : Int) = v % 65536 := by simp [BitVec.toNat_ofInt]; omega
  unfold sampleBytes
  congr 1
  · apply BitVec.eq_of_toNat_eq
    simp only [BitVec.extractLsb'_toNat, BitVec.toNat_ofInt, Nat.shiftRight_zero]
    omega
  · congr 1
    apply BitVec.eq_of_toNat_eq
    simp only [BitVec.extractLsb'_toNat, BitVec.toNat_ofInt, Nat.shiftRight_eq_div_pow]
    omega

/-- Equal blocks laid end to end: how many entries, and which stands where. -/
theorem getElem?_flatMap_blocks {α β : Type} (w : Nat) (f : α → List β) (hw : ∀ a, (f a).length = w) (l : List α) (i j : Nat) (hj : j < w) :
    (l.flatMap f)[i * w + j]? = (l[i]?).bind fun a => (f a)[j]? := by
  induction l generalizing i with
  | nil => simp
  | cons a l ih =>
    rw [List.flatMap_cons]
    cases i with
    | zero => rw [List.getElem?_append_left (by rw [hw]; omega)]; simp
    | succ i =>
      have e : (i + 1) * w = i * w + w := Nat.succ_mul i w
      rw [List.getElem?_append_right (by rw [hw]; omega), hw, show (i + 1) * w + j - w = i * w + j by omega, ih]
      simp

/-- The interleaved output holds the channels' samples (R302). -/
theorem holdsSamples_interleave (x : List (List Int)) (count : Nat) :
    holdsSamples (interleave x count) x.length count fun c i => (x.getD c []).getD i 0 := by
  have hb : ∀ i, (x.flatMap fun ch => sampleBytes (ch.getD i 0)).length = 2 * x.length := fun i => by
    simp [List.length_flatMap, sampleBytes, Nat.mul_comm]
  have hs : ∀ v, (sampleBytes v).length = 2 := fun _ => rfl
  refine ⟨by simp only [interleave, List.length_flatMap, hb, List.map_const', List.sum_replicate, List.length_range, smul_eq_mul]; ring,
    fun i hi c hc => ?_⟩
  have at' : ∀ j < 2, (interleave x count)[2 * (i * x.length + c) + j]? = (sampleBytes ((x.getD c []).getD i 0))[j]? := fun j hj => by
    rw [show 2 * (i * x.length + c) + j = i * (2 * x.length) + (c * 2 + j) by ring, interleave,
      getElem?_flatMap_blocks _ _ hb _ _ _ (by omega)]
    simp only [List.getElem?_range hi, Option.bind_some]
    rw [getElem?_flatMap_blocks 2 _ (fun _ => rfl) _ _ _ hj]
    simp [hc]
  refine ⟨?_, ?_⟩
  · have := at' 0 (by omega); rw [Nat.add_zero] at this; rw [this, sampleBytes_eq]; rfl
  · rw [at' 1 (by omega), sampleBytes_eq]; rfl

/-! IMA-ADPCM. -/

/-- A channel after `i` of its nibbles (R305). -/
def imaChanAt (k : ImaParams) (h : ImaChan) (nib : Nat → Nat) : Nat → ImaChan
  | 0 => h
  | i + 1 => imaStep k (imaChanAt k h nib i) (nib i)

theorem imaRun_map (k : ImaParams) (h : ImaChan) (nib : Nat → Nat) (n : Nat) : ∀ a,
    imaRun k (imaChanAt k h nib a) ((List.range' a n).map nib) =
      ((List.range' a n).map fun i => (imaChanAt k h nib (i + 1)).pred, imaChanAt k h nib (a + n)) := by
  induction n with
  | zero => intro a; rfl
  | succ n ih =>
    intro a
    have h1 := ih (a + 1)
    simp only [imaChanAt] at h1
    rw [show a + (n + 1) = a + 1 + n by omega]
    simp only [List.range'_succ, List.map_cons, imaRun, h1, imaChanAt]

/-- The nibbles of a channel in subframe `f` (R305). -/
theorem imaSubNibbles_eq (k : ImaParams) (bytes : List Byte) (chans c f : Nat) :
    imaSubNibbles k bytes (4 * chans + 128 * chans * f) c = (List.range' (256 * f) 256).map (imaNibble k bytes chans c) := by
  have e : ∀ b ∈ List.range 128, nibblesOf k.nibbleLowFirst (bytes.getD (4 * chans + 128 * chans * f + 128 * c + b) 0#8) =
      [imaNibble k bytes chans c (256 * f + 2 * b), imaNibble k bytes chans c (256 * f + (2 * b + 1))] := fun b hb => by
    have hb := List.mem_range.mp hb
    rw [nibblesOf_eq _ _ (128 * f + b)]
    unfold imaNibble
    rw [show (256 * f + 2 * b) / 256 = f by omega, show (256 * f + 2 * b) % 256 / 2 = b by omega,
      show (256 * f + (2 * b + 1)) / 256 = f by omega, show (256 * f + (2 * b + 1)) % 256 / 2 = b by omega,
      show 2 * (128 * f + b) = 256 * f + 2 * b by ring]
    rfl
  rw [imaSubNibbles, List.flatMap_congr e, flatMap_pairs (fun i => imaNibble k bytes chans c (256 * f + i)), List.range'_eq_map_range,
    List.map_map]
  rfl

/-- One subframe of channels whose headers are `h` (R305). -/
theorem imaSubframe_map (k : ImaParams) (bytes : List Byte) (chans f : Nat) (h : Nat → ImaChan) (n : Nat) : ∀ c,
    imaSubframe k bytes (4 * chans + 128 * chans * f) c
        ((List.range' c n).map fun d => imaChanAt k (h d) (imaNibble k bytes chans d) (256 * f)) =
      (List.range' c n).map fun d =>
        ((List.range' (256 * f) 256).map fun i => (imaChanAt k (h d) (imaNibble k bytes chans d) (i + 1)).pred,
          imaChanAt k (h d) (imaNibble k bytes chans d) (256 * (f + 1))) := by
  induction n with
  | zero => intro c; rfl
  | succ n ih =>
    intro c
    rw [show List.range' c (n + 1) = c :: List.range' (c + 1) n from rfl]
    simp only [List.map_cons, imaSubframe, imaSubNibbles_eq, imaRun_map, ih, Nat.mul_succ]

/-- Whole subframes decode, each channel's samples by its nibbles (R305). -/
theorem imaLoop_map (k : ImaParams) (bytes : List Byte) (chans n : Nat) (h : Nat → ImaChan) (hc : 0 < chans) (fuel : Nat) :
    ∀ f frames, bytes.length = 4 * chans + 128 * chans * f + 128 * chans * frames → frames ≤ fuel →
      imaLoop k bytes chans fuel (4 * chans + 128 * chans * f)
          ((List.range n).map fun d => imaChanAt k (h d) (imaNibble k bytes chans d) (256 * f)) =
        .ok ((List.range n).map fun d =>
          (List.range' (256 * f) (256 * frames)).map fun i => (imaChanAt k (h d) (imaNibble k bytes chans d) (i + 1)).pred) := by
  induction fuel with
  | zero =>
    intro f frames _ hf
    obtain rfl : frames = 0 := by omega
    simp only [imaLoop, List.map_map]
    rfl
  | succ fuel ih =>
    intro f frames hl hf
    unfold imaLoop
    cases frames with
    | zero => rw [if_pos (by omega), List.map_map]; rfl
    | succ frames =>
      have hmul : 128 * chans * (frames + 1) = 128 * chans * frames + 128 * chans := Nat.mul_succ _ _
      have hmul' : 128 * chans * (f + 1) = 128 * chans * f + 128 * chans := Nat.mul_succ _ _
      rw [if_neg (by omega), if_neg (by omega)]
      have sub := imaSubframe_map k bytes chans f h n 0
      rw [← List.range_eq_range'] at sub
      have later := ih (f + 1) frames (by omega) (by omega)
      rw [show 4 * chans + 128 * chans * (f + 1) = 4 * chans + 128 * chans * f + 128 * chans by omega] at later
      simp only [sub, List.map_map, Function.comp_def, later, List.zipWith_map, List.zipWith_self]
      rw [Nat.mul_succ 256 frames, Nat.add_comm (256 * frames), ← List.range'_append_1, Nat.mul_succ]
      simp only [List.map_append]

/-- A last subframe cut short is a truncated stream (R305). -/
theorem imaLoop_cut (k : ImaParams) (payload : List Byte) (chans rest : Nat) (h0 : 0 < rest) (h1 : rest < 128 * chans) :
    ∀ (fuel off frames : Nat) (hs : List ImaChan), payload.length = off + 128 * chans * frames + rest → frames < fuel →
      imaLoop k payload chans fuel off hs = .error .truncatedStream := by
  intro fuel
  induction fuel with
  | zero => exact fun off frames hs _ hf => absurd hf (Nat.not_lt_zero _)
  | succ fuel ih =>
    intro off frames hs hl hf
    unfold imaLoop
    rw [if_neg (by omega)]
    cases frames with
    | zero => rw [if_pos (by omega)]
    | succ frames =>
      have hmul : 128 * chans * (frames + 1) = 128 * chans * frames + 128 * chans := Nat.mul_succ _ _
      rw [if_neg (by omega)]
      simp only [ih (off + 128 * chans) frames _ (by omega) (by omega)]

/-- What reading a channel's header can give: a truncated stream, bad audio data, or its predictor and index (R305). -/
theorem imaHeader_cases (k : ImaParams) (bytes : List Byte) (c : Nat) :
    (bytes.length < 4 * c + 4 → imaHeader k bytes c = .error .truncatedStream) ∧
    (4 * c + 4 ≤ bytes.length → ¬ imaHeaderGood k bytes c → imaHeader k bytes c = .error .badAudioData) ∧
    (imaHeaderGood k bytes c →
      imaHeader k bytes c = .ok ⟨int16At k.bigEndian bytes (4 * c), int16At k.bigEndian bytes (4 * c + 2)⟩) := by
  have there : 4 * c + 4 ≤ bytes.length → imaHeader k bytes c =
      if int16At k.bigEndian bytes (4 * c + 2) < 0 ∨ 88 < int16At k.bigEndian bytes (4 * c + 2) then .error .badAudioData
      else .ok ⟨int16At k.bigEndian bytes (4 * c), int16At k.bigEndian bytes (4 * c + 2)⟩ := fun h => by
    have e : ∀ j, j < bytes.length → bytes[j]? = some (bytes.getD j 0#8) := fun j hj => by simp [hj]
    rw [imaHeader, e _ (by omega), e _ (by omega), e _ (by omega), e _ (by omega)]
    simp only [int16Of_eq]
  refine ⟨fun h => ?_, fun h hg => ?_, fun hg => ?_⟩
  · have e : bytes[4 * c + 3]? = none := List.getElem?_eq_none (by omega)
    simp [imaHeader, e]
  · rw [there h]
    unfold imaHeaderGood at hg
    rw [if_pos (by omega)]
  · rw [there hg.1, if_neg (by have := hg.2; omega)]

/-- Good headers, all read (R305). -/
theorem imaHeaders_good (k : ImaParams) (bytes : List Byte) (cs : List Nat) (h : ∀ c ∈ cs, imaHeaderGood k bytes c) :
    imaHeaders k bytes cs =
      .ok (cs.map fun c => ⟨int16At k.bigEndian bytes (4 * c), int16At k.bigEndian bytes (4 * c + 2)⟩) := by
  induction cs with
  | nil => rfl
  | cons c cs ih =>
    simp [imaHeaders, (imaHeader_cases k bytes c).2.2 (h c (by simp)), ih fun d hd => h d (List.mem_cons_of_mem _ hd)]

/-- The first header that is not good ends the reading (R305). -/
theorem imaHeaders_fault (k : ImaParams) (bytes : List Byte) (cs ds : List Nat) (c : Nat) (f : FaultKind)
    (h : ∀ d ∈ cs, imaHeaderGood k bytes d) (hf : imaHeader k bytes c = .error f) :
    imaHeaders k bytes (cs ++ c :: ds) = .error f := by
  induction cs with
  | nil => simp [imaHeaders, hf]
  | cons d cs ih =>
    simp [imaHeaders, (imaHeader_cases k bytes d).2.2 (h d (by simp)), ih fun e he => h e (List.mem_cons_of_mem _ he)]

theorem length_imaRun (k : ImaParams) (h : ImaChan) (l : List Nat) : (imaRun k h l).1.length = l.length := by
  induction l generalizing h with
  | nil => rfl
  | cons n l ih => simp [imaRun, ih]

/-! DSP-ADPCM. -/

/-- The two history samples of a part before its sample `i` is decoded (R312). -/
def dspHistory (k : DspParams) (part : List Byte) : Nat → Int × Int
  | 0 => (int16At k.bigEndian part 34, int16At k.bigEndian part 36)
  | i + 1 =>
    (dspSample
      { scale := 2 ^ ((part.getD (38 + 8 * (i / 14)) 0#8).toNat % 16)
        c1 := int16At k.bigEndian part (4 * ((part.getD (38 + 8 * (i / 14)) 0#8).toNat / 16))
        c2 := int16At k.bigEndian part (4 * ((part.getD (38 + 8 * (i / 14)) 0#8).toNat / 16) + 2)
        h1 := (dspHistory k part i).1
        h2 := (dspHistory k part i).2 }
      (nibbleAt (!k.nibbleHighFirst) (part.getD (38 + 8 * (i / 14) + 1 + i % 14 / 2) 0#8) i),
     (dspHistory k part i).1)

/-- How many samples come before body byte `i` (R312). -/
def dspBefore (i : Nat) : Nat := 14 * (i / 8) + 2 * (i % 8 - 1)

/-- The channel inside a group: its scale and pair are those of the group's head (R312). -/
def dspInGroup (k : DspParams) (part : List Byte) (c : DspChan) (g : Nat) : Prop :=
  c.scale = 2 ^ ((part.getD (38 + 8 * g) 0#8).toNat % 16) ∧
  c.c1 = int16At k.bigEndian part (4 * ((part.getD (38 + 8 * g) 0#8).toNat / 16)) ∧
  c.c2 = int16At k.bigEndian part (4 * ((part.getD (38 + 8 * g) 0#8).toNat / 16) + 2)

/-- The next sample is the one the history gives (R312). -/
theorem dspHistory_next {k : DspParams} {part : List Byte} {c : DspChan} {g i : Nat} (hg : dspInGroup k part c g) (hi : i / 14 = g)
    (h1 : c.h1 = (dspHistory k part i).1) (h2 : c.h2 = (dspHistory k part i).2) {b : Byte}
    (hb : part.getD (38 + 8 * g + 1 + i % 14 / 2) 0#8 = b) :
    dspHistory k part (i + 1) = (dspSample c (nibbleAt (!k.nibbleHighFirst) b i), c.h1) := by
  obtain ⟨g1, g2, g3⟩ := hg
  subst hi
  rw [dspHistory, ← g1, ← g2, ← g3, ← h1, ← h2, hb]

theorem dspHeader_eq (k : DspParams) (part : List Byte) (i : Nat) : dspHeader k part i = int16At k.bigEndian part (2 * i) :=
  int16Of_eq _ _ _

/-- A body whose group heads name pairs below 8 decodes, sample by sample (R312). -/
theorem dspBody_good (k : DspParams) (part : List Byte) (hp : ∀ g b, part[38 + 8 * g]? = some b → b.toNat / 16 < 8)
    (bs : List Byte) : ∀ (c : DspChan) (i : Nat), part.drop (38 + i) = bs → (i % 8 ≠ 0 → dspInGroup k part c (i / 8)) →
      c.h1 = (dspHistory k part (dspBefore i)).1 → c.h2 = (dspHistory k part (dspBefore i)).2 →
      dspBody k (dspHeader k part) c i bs =
        .ok ((List.range' (dspBefore i) (dspCount part - dspBefore i)).map fun j => (dspHistory k part (j + 1)).1) := by
  induction bs with
  | nil =>
    intro c i hd _ _ _
    have hl : part.length ≤ 38 + i := List.drop_eq_nil_iff.mp hd
    rw [show dspCount part - dspBefore i = 0 by unfold dspCount dspBefore; omega]
    rfl
  | cons b bs ih =>
    intro c i hd hg h1 h2
    have hl : 38 + i < part.length := by
      have := congrArg List.length hd
      simp at this
      omega
    have hb : part[38 + i]? = some b := by
      have := congrArg List.head? hd
      simpa [List.head?_drop] using this
    have hbd : part.getD (38 + i) 0#8 = b := by simp [hb]
    have hd' : part.drop (38 + (i + 1)) = bs := by
      have := congrArg List.tail hd
      simpa [List.tail_drop, Nat.add_assoc] using this
    unfold dspBody
    by_cases h0 : i % 8 = 0
    · have e : 38 + i = 38 + 8 * (i / 8) := by omega
      have hlt := hp (i / 8) b (by rw [← e]; exact hb)
      have hn : dspBefore (i + 1) = dspBefore i := by unfold dspBefore; omega
      rw [if_pos h0, if_neg (by omega), ih _ (i + 1) hd' ?_ (by rw [hn]; exact h1) (by rw [hn]; exact h2), hn]
      intro _
      rw [show (i + 1) / 8 = i / 8 by omega]
      refine ⟨?_, ?_, ?_⟩ <;> rw [← e, hbd]
      · exact (dspHeader_eq k part _).trans (congrArg _ (by omega))
      · exact (dspHeader_eq k part _).trans (congrArg _ (by omega))
    · have hgr := hg h0
      rw [if_neg h0, nibblesOf_eq _ b (dspBefore i / 2)]
      have e2 : 2 * (dspBefore i / 2) = dspBefore i := by unfold dspBefore; omega
      rw [e2]
      have n1 : dspBefore i / 14 = i / 8 := by unfold dspBefore; omega
      have n2 : (dspBefore i + 1) / 14 = i / 8 := by unfold dspBefore; omega
      have m1 : 38 + 8 * (i / 8) + 1 + dspBefore i % 14 / 2 = 38 + i := by unfold dspBefore; omega
      have m2 : 38 + 8 * (i / 8) + 1 + (dspBefore i + 1) % 14 / 2 = 38 + i := by unfold dspBefore; omega
      have s1 := dspHistory_next (b := b) hgr n1 h1 h2 (by rw [m1]; exact hbd)
      have hgr1 : dspInGroup k part (c.push (dspSample c (nibbleAt (!k.nibbleHighFirst) b (dspBefore i)))) (i / 8) := hgr
      have s2 := dspHistory_next (b := b) hgr1 n2 (by rw [s1]; rfl) (by rw [s1]; rfl) (by rw [m2]; exact hbd)
      have hn : dspBefore (i + 1) = dspBefore i + 2 := by unfold dspBefore; omega
      have hN : dspBefore i + 2 ≤ dspCount part := by unfold dspCount dspBefore; omega
      simp only [dspNibbles]
      rw [ih _ (i + 1) hd' (fun _ => by rw [show (i + 1) / 8 = i / 8 by omega]; exact hgr) (by rw [hn, s2]; rfl) (by rw [hn, s2]; rfl), hn,
        show dspCount part - dspBefore i = dspCount part - (dspBefore i + 2) + 1 + 1 by omega]
      simp only [List.range'_succ, List.map_cons, s1, s2]
      rfl

/-- A group header that names pair 8 or more is bad audio data (R315). -/
theorem dspBody_bad (k : DspParams) (coef : Nat → Int) (bs : List Byte) : ∀ (c : DspChan) (i : Nat),
    (∃ j b, bs[j]? = some b ∧ (i + j) % 8 = 0 ∧ 8 ≤ b.toNat / 16) → dspBody k coef c i bs = .error .badAudioData := by
  induction bs with
  | nil => rintro c i ⟨j, b, h, -⟩; simp at h
  | cons b bs ih =>
    rintro c i ⟨j, b', hj, hm, hb⟩
    unfold dspBody
    cases j with
    | zero =>
      obtain rfl : b = b' := by simpa using hj
      rw [if_pos (by simpa using hm), if_pos hb]
    | succ j =>
      have h' : ∃ j b, bs[j]? = some b ∧ (i + 1 + j) % 8 = 0 ∧ 8 ≤ b.toNat / 16 :=
        ⟨j, b', by simpa using hj, by rw [← hm]; congr 1; omega, hb⟩
      split
      · split
        · rfl
        · exact ih _ _ h'
      · simp only [ih _ _ h']

/-- The table of step sizes is the formula's (R306). -/
theorem stepTable_eq : ∀ i < 89, stepTable.getD i 0 = stepSize i := by decide +kernel

theorem clamp_eq (v lo hi : Int) (h : lo ≤ hi) : clamp v lo hi = max lo (min hi v) := by
  unfold clamp; split <;> (try split) <;> omega

/-- The channels of a payload with good headers follow R305. -/
theorem imaSamples_of_good {k : ImaParams} {bytes : List Byte} {chans c h : Nat} (count : Nat) (hg : imaHeaderGood k bytes h) :
    let at' := imaChanAt k ⟨int16At k.bigEndian bytes (4 * h), int16At k.bigEndian bytes (4 * h + 2)⟩ (imaNibble k bytes chans c)
    ImaSamples k bytes chans count c h (fun i => (at' (i + 1)).pred) fun i => (at' i).idx := by
  intro at'
  have range : ∀ i, 0 ≤ (at' i).idx ∧ (at' i).idx ≤ 88 := fun i => by
    cases i with
    | zero => exact hg.2
    | succ i => change 0 ≤ clamp _ 0 88 ∧ clamp _ 0 88 ≤ 88; rw [clamp_eq _ _ _ (by omega)]; omega
  refine ⟨rfl, fun i _ => ?_, fun i _ => (clamp_eq _ _ _ (by omega))⟩
  rw [stepTable_eq _ (by have := range i; omega)]
  change clamp16 _ = _
  rw [clamp16_eq]
  cases i with
  | zero => rfl
  | succ i => rw [if_neg (by omega)]; rfl

theorem signedNibble_eq : ∀ nib < 16, signedNibble nib = signedValue 4 nib := by decide

theorem nibbleAt_lt (lowFirst : Bool) (b : Byte) (i : Nat) : nibbleAt lowFirst b i < 16 := by
  have := b.isLt
  unfold nibbleAt
  split <;> omega

/-- The history of a part follows R312. -/
theorem dspSamples_history (k : DspParams) (part : List Byte) : dspSamples k part fun i => (dspHistory k part (i + 1)).1 := by
  intro i _
  dsimp only
  have e1 : (if i = 0 then int16At k.bigEndian part 34 else (dspHistory k part (i - 1 + 1)).1) = (dspHistory k part i).1 := by
    cases i with
    | zero => rfl
    | succ i => rw [if_neg (by omega)]; rfl
  have e2 : (if i = 0 then int16At k.bigEndian part 36 else if i = 1 then int16At k.bigEndian part 34
      else (dspHistory k part (i - 2 + 1)).1) = (dspHistory k part i).2 := by
    rcases i with _ | _ | i
    · rfl
    · rfl
    · rw [if_neg (by omega), if_neg (by omega)]; rfl
  rw [e1, e2, dspHistory]
  simp only [dspSample, clamp16_eq, signedNibble_eq _ (nibbleAt_lt _ _ _), shiftRight]
  push_cast
  rfl

/-- What decoding a channel part can give: a truncated stream, bad audio data, or its samples without the first 32 (R312, R315). -/
theorem dspChannel_cases (k : DspParams) (part : List Byte) :
    (part.length < 38 → dspChannel k part = .error .truncatedStream) ∧
    (38 ≤ part.length → ¬ dspPartGood part → dspChannel k part = .error .badAudioData) ∧
    (dspPartGood part → dspChannel k part =
      .ok ((List.range' 32 (dspCount part - 32)).map fun j => (dspHistory k part (j + 1)).1)) := by
  refine ⟨fun h => by rw [dspChannel, if_pos h], fun h hg => ?_, fun hg => ?_⟩
  · rw [dspChannel, if_neg (by omega)]
    simp only [dspPartGood, h, true_and, not_forall, Nat.not_lt] at hg
    obtain ⟨g, b, hb, hp⟩ := hg
    rw [dspBody_bad k _ _ _ 0 ⟨8 * g, b, by rw [List.getElem?_drop]; exact hb, by omega, hp⟩]
  · rw [dspChannel, if_neg (by have := hg.1; omega), dspBody_good k part hg.2 _ _ 0 rfl (fun h => absurd rfl h)
      (dspHeader_eq k part 17) (dspHeader_eq k part 18)]
    simp only [dspBefore, Nat.zero_div, Nat.zero_mod, Nat.mul_zero, Nat.zero_sub, Nat.sub_zero, Nat.add_zero, ← List.map_drop,
      List.drop_range', Nat.zero_add, Nat.mul_one]

theorem dspChannels_good {k : DspParams} {parts : List (List Byte)} (h : ∀ part ∈ parts, dspPartGood part) :
    dspChannels k parts =
      .ok (parts.map fun part => (List.range' 32 (dspCount part - 32)).map fun j => (dspHistory k part (j + 1)).1) := by
  induction parts with
  | nil => rfl
  | cons part parts ih =>
    simp [dspChannels, (dspChannel_cases k part).2.2 (h part (by simp)), ih fun q hq => h q (List.mem_cons_of_mem _ hq)]

/-- The first part that is not good ends the decoding. -/
theorem dspChannels_fault {k : DspParams} {f : FaultKind} {part : List Byte} (hf : dspChannel k part = .error f) :
    ∀ {parts : List (List Byte)} {c : Nat}, parts[c]? = some part →
      (∀ d < c, ∀ earlier : List Byte, parts[d]? = some earlier → dspPartGood earlier) → dspChannels k parts = .error f := by
  intro parts
  induction parts with
  | nil => intro c hc; simp at hc
  | cons q parts ih =>
    intro c hc he
    cases c with
    | zero => obtain rfl : q = part := by simpa using hc
              simp [dspChannels, hf]
    | succ c =>
      have hq := (dspChannel_cases k q).2.2 (he 0 (by omega) q rfl)
      simp [dspChannels, hq, ih (c := c) (by simpa using hc) fun d hd e h => he (d + 1) (by omega) e (by simpa using h)]

/-- The parts are as many as channels, and lose no byte (R311). -/
theorem splitParts_spec (size : Nat → Nat) (n : Nat) : ∀ (c : Nat) (bs : List Byte), 0 < n →
    (splitParts size n c bs).length = n ∧ (splitParts size n c bs).flatten = bs := by
  induction n with
  | zero => intro c bs h; omega
  | succ n ih =>
    intro c bs _
    cases n with
    | zero => simp [splitParts]
    | succ n =>
      obtain ⟨h1, h2⟩ := ih (c + 1) (bs.drop (size c)) (by omega)
      exact ⟨by rw [splitParts, List.length_cons, h1], by rw [splitParts, List.flatten_cons, h2, List.take_append_drop]⟩

theorem dspParts_spec (k : DspParams) (payload : List Byte) {chans : Nat} (h : 0 < chans) :
    (dspParts k payload chans).length = chans ∧ (dspParts k payload chans).flatten.Perm payload := by
  unfold dspParts
  split
  · next e => simp [e]
  · obtain ⟨h1, h2⟩ := splitParts_spec (k.partSize chans payload.length) chans 0 (arranged (k.layoutChoice chans payload.length) payload) h
    exact ⟨h1, (List.Perm.of_eq h2).trans (arranged_perm _ _)⟩

@[simp] theorem length_levelled (missing : Nat → Nat → Int) (x : List (List Int)) : (levelled missing x).length = x.length := by
  simp [levelled]

/-- A sample a channel has stays; one it lacks is the value that stands for it. -/
theorem getD_levelled (missing : Nat → Nat → Int) (x : List (List Int)) {c i : Nat} {ch : List Int} (hc : x[c]? = some ch)
    (hi : i < (x.getD 0 []).length) : ((levelled missing x).getD c []).getD i 0 = if i < ch.length then ch.getD i 0 else missing c i := by
  simp only [levelled, List.getD_eq_getElem?_getD, List.getElem?_mapIdx, hc, Option.map_some, Option.getD_some] at hi ⊢
  split
  · next h => rw [List.getElem?_append_left h]
  · next h =>
    rw [List.getElem?_append_right (by omega), List.getElem?_map, List.getElem?_range' (by omega)]
    simp only [Option.map_some, Option.getD_some]
    congr 1
    omega

theorem length_levelled_zero (missing : Nat → Nat → Int) (x : List (List Int)) :
    ((levelled missing x).getD 0 []).length = (x.getD 0 []).length := by
  cases x <;> simp [levelled]

end Sys2Proof.Machine
end

