-- ==== Sys2Proof/Laws/Memory.lean ====
section
/-! SUPPORT. Memory: reading back what was written, leaving the rest alone, and keeping the canonical form; the same for the blocks of
the plane store. -/

namespace Sys2Proof.Machine

/-- Reading the address just written gives the byte written. -/
@[simp] theorem Memory.read_write_same (m : Memory) (a : Nat) (b : Byte) : Memory.read (Memory.write m a b) a = some b := by
  induction m with
  | nil => simp [Memory.write, Memory.read]
  | cons c m ih =>
    obtain ⟨k, v⟩ := c
    simp only [Memory.write]
    split
    · simp [Memory.read]
    · split
      · simp [Memory.read]
      · next h1 h2 => simp [Memory.read, ih, Ne.symm h2]

/-- A write leaves every other address alone. -/
theorem Memory.read_write_other (m : Memory) {a a' : Nat} (h : a' ≠ a) (b : Byte) :
    Memory.read (Memory.write m a b) a' = Memory.read m a' := by
  induction m with
  | nil => simp [Memory.write, Memory.read, Ne.symm h]
  | cons c m ih =>
    obtain ⟨k, v⟩ := c
    simp only [Memory.write]
    split
    · simp [Memory.read, Ne.symm h]
    · split
      · next h1 h2 => subst h2; simp [Memory.read, Ne.symm h]
      · simp [Memory.read, ih]

/-- The addresses of the canonical form are strictly rising. -/
theorem Memory.wf_iff (m : Memory) : Memory.wf m = true ↔ List.Pairwise (fun c d : Host.Cell => c.1 < d.1) m := by
  induction m with
  | nil => simp [Memory.wf]
  | cons c m ih =>
    cases m with
    | nil => simp [Memory.wf]
    | cons d m =>
      simp only [Memory.wf, Bool.and_eq_true, decide_eq_true_eq, ih, List.pairwise_cons]
      constructor
      · rintro ⟨hcd, hd, hm⟩
        refine ⟨?_, hd, hm⟩
        intro e he
        rcases List.mem_cons.mp he with rfl | he
        · exact hcd
        · exact Nat.lt_trans hcd (hd e he)
      · rintro ⟨hc, hd, hm⟩
        exact ⟨hc d (by simp), hd, hm⟩

theorem Memory.mem_write {m : Memory} {a : Nat} {b : Byte} {c : Host.Cell} (h : c ∈ Memory.write m a b) :
    c = (a, b) ∨ c ∈ m := by
  induction m with
  | nil => simpa [Memory.write] using h
  | cons d m ih =>
    obtain ⟨k, v⟩ := d
    simp only [Memory.write] at h
    split at h
    · simpa using h
    · split at h
      · rcases List.mem_cons.mp h with h | h
        · exact .inl h
        · exact .inr (List.mem_cons_of_mem _ h)
      · rcases List.mem_cons.mp h with h | h
        · exact .inr (h ▸ List.mem_cons_self)
        · rcases ih h with h | h
          · exact .inl h
          · exact .inr (List.mem_cons_of_mem _ h)

/-- A write keeps the canonical form. -/
theorem Memory.wf_write {m : Memory} (h : Memory.wf m = true) (a : Nat) (b : Byte) : Memory.wf (Memory.write m a b) = true := by
  rw [Memory.wf_iff] at *
  induction m with
  | nil => simp [Memory.write]
  | cons c m ih =>
    obtain ⟨k, v⟩ := c
    obtain ⟨hk, hm⟩ := List.pairwise_cons.mp h
    simp only [Memory.write]
    split
    · next hlt =>
      refine List.pairwise_cons.mpr ⟨?_, h⟩
      intro d hd
      rcases List.mem_cons.mp hd with rfl | hd
      · exact hlt
      · exact Nat.lt_trans hlt (hk d hd)
    · split
      · next h1 h2 => subst h2; exact List.pairwise_cons.mpr ⟨hk, hm⟩
      · next h1 h2 =>
        refine List.pairwise_cons.mpr ⟨?_, ih hm⟩
        intro d hd
        rcases Memory.mem_write hd with rfl | hd
        · show k < a; omega
        · exact hk d hd

/-- The empty memory has the canonical form. -/
theorem Memory.wf_nil : Memory.wf [] = true := rfl

/-- Writing the cells of a block keeps the canonical form. -/
theorem writeCells_wf {m : Memory} (h : Memory.wf m = true) (slot p x y : Nat) (f : Nat → Nat → Byte) (cells : List (Nat × Nat)) :
    Memory.wf (writeCells m slot p x y f cells) = true := by
  induction cells generalizing m with
  | nil => exact h
  | cons c cells ih => exact ih (Memory.wf_write h _ _)

/-- Writing the cells of a block leaves every other address alone. -/
theorem read_writeCells_other {slot p x y a : Nat} {f : Nat → Nat → Byte} {cells : List (Nat × Nat)} (m : Memory)
    (h : ∀ c ∈ cells, planeAddr slot p (y + c.1) (x + c.2) ≠ a) :
    Memory.read (writeCells m slot p x y f cells) a = Memory.read m a := by
  induction cells generalizing m with
  | nil => rfl
  | cons c cells ih =>
    have h1 := h c List.mem_cons_self
    rw [show writeCells m slot p x y f (c :: cells) =
      writeCells (Memory.write m (planeAddr slot p (y + c.1) (x + c.2)) (f c.1 c.2)) slot p x y f cells from rfl,
      ih _ (fun d hd => h d (List.mem_cons_of_mem _ hd)), Memory.read_write_other _ (Ne.symm h1)]

/-- A cell written reads as its function says, when every cell at that address agrees. -/
theorem read_writeCells_same {slot p x y a : Nat} {f : Nat → Nat → Byte} {cells : List (Nat × Nat)} {v : Byte} (m : Memory)
    (hmem : ∃ c ∈ cells, planeAddr slot p (y + c.1) (x + c.2) = a)
    (hval : ∀ c ∈ cells, planeAddr slot p (y + c.1) (x + c.2) = a → f c.1 c.2 = v) :
    Memory.read (writeCells m slot p x y f cells) a = some v := by
  induction cells generalizing m with
  | nil => obtain ⟨c, hc, _⟩ := hmem; cases hc
  | cons d cells ih =>
    by_cases hlater : ∃ c ∈ cells, planeAddr slot p (y + c.1) (x + c.2) = a
    · exact ih _ hlater fun c hc => hval c (List.mem_cons_of_mem _ hc)
    · have hd : planeAddr slot p (y + d.1) (x + d.2) = a := by
        obtain ⟨c, hc, hca⟩ := hmem
        rcases List.mem_cons.mp hc with rfl | hc
        · exact hca
        · exact absurd ⟨c, hc, hca⟩ hlater
      rw [show writeCells m slot p x y f (d :: cells) =
        writeCells (Memory.write m (planeAddr slot p (y + d.1) (x + d.2)) (f d.1 d.2)) slot p x y f cells from rfl,
        read_writeCells_other _ (fun c hc hca => hlater ⟨c, hc, hca⟩), hd, Memory.read_write_same,
        hval d List.mem_cons_self hd]

/-- The cells of a block are its rows below `h` and columns below `w`. -/
@[simp] theorem mem_blockCells {w h : Nat} {c : Nat × Nat} : c ∈ blockCells w h ↔ c.1 < h ∧ c.2 < w := by
  obtain ⟨j, i⟩ := c
  simp [blockCells]

/-- Different plane bytes have different keys, as long as planes are below 3 and rows and columns of at most 16 bits. -/
theorem planeAddr_inj {s1 p1 r1 c1 s2 p2 r2 c2 : Nat} (hp1 : p1 < 3) (hp2 : p2 < 3) (hr1 : r1 < 65536) (hr2 : r2 < 65536)
    (hc1 : c1 < 65536) (hc2 : c2 < 65536) (h : planeAddr s1 p1 r1 c1 = planeAddr s2 p2 r2 c2) :
    s1 = s2 ∧ p1 = p2 ∧ r1 = r2 ∧ c1 = c2 := by
  unfold planeAddr at h
  omega

/-- A plane byte after a block was written: inside the block the new value, elsewhere the old one (R43). -/
theorem pixel_writeBlock (s : State) {p x y w h : Nat} (f : Nat → Nat → Byte) (hp : p < 3) (hx : x + w ≤ 65536) (hy : y + h ≤ 65536)
    {slot q r c : Nat} (hq : q < 3) (hr : r < 65536) (hc : c < 65536) :
    (s.writeBlock p x y w h f).pixel slot q r c =
      if slot = s.cur.val ∧ q = p ∧ (y ≤ r ∧ r < y + h) ∧ (x ≤ c ∧ c < x + w) then f (r - y) (c - x) else s.pixel slot q r c := by
  unfold State.pixel State.planeByte
  simp only [State.writeBlock_planes, State.writeBlock_era]
  split
  · next hin =>
    obtain ⟨rfl, rfl, ⟨hr1, hr2⟩, hc1, hc2⟩ := hin
    rw [read_writeCells_same (v := f (r - y) (c - x))]
    · rfl
    · exact ⟨(r - y, c - x), by simp; omega, by rw [Nat.add_sub_cancel' hr1, Nat.add_sub_cancel' hc1]⟩
    · rintro ⟨j, i⟩ hji heq
      rw [mem_blockCells] at hji
      simp only at hji heq
      obtain ⟨-, -, h1, h2⟩ := planeAddr_inj hq hq (by omega) hr (by omega) hc heq
      subst h1 h2
      simp
  · next hout =>
    rw [read_writeCells_other]
    rintro ⟨j, i⟩ hji heq
    rw [mem_blockCells] at hji
    simp only at hji heq
    obtain ⟨h0, h1, h2, h3⟩ := planeAddr_inj hp hq (by omega) hr (by omega) hc heq
    exact hout ⟨h0.symm, h1.symm, by omega, by omega⟩

/-- Memory at reset has the canonical form. -/
theorem reset_memory_wf : Memory.wf State.reset.planes = true ∧ Memory.wf State.reset.source = true := ⟨rfl, rfl⟩

end Sys2Proof.Machine
end

