-- ==== Sys2Proof/Laws/Blocks.lean ====
section
/-! SUPPORT. Blocks against planes: the checks of R79 and R271 in the terms of claims, what writing a block that fits does to a plane
byte, and the cells of a rectangle row by row. -/

namespace Sys2Proof.Machine

theorem planeW_le (s : State) (p : Nat) : s.planeW p ≤ 65535 := by
  unfold State.planeW State.width lowHalf
  have := (s.frame.extractLsb' 0 16).isLt
  split <;> omega

theorem planeH_le (s : State) (p : Nat) : s.planeH p ≤ 65535 := by
  unfold State.planeH State.height highHalf
  have := (s.frame.extractLsb' 16 16).isLt
  split <;> omega

/-- The bounds check of a block named by `XY` (R79). -/
theorem inside_iff_fits (s : State) (p w h : Nat) : s.inside p s.blockX s.blockY w h = true ↔ s.fits p w h := by
  simp [State.inside, State.fits]

theorem inside_of_fits {s : State} {p w h : Nat} (hf : s.fits p w h) : s.inside p s.blockX s.blockY w h = true :=
  (inside_iff_fits s p w h).mpr hf

theorem inside_of_not_fits {s : State} {p w h : Nat} (hf : ¬ s.fits p w h) : s.inside p s.blockX s.blockY w h = false :=
  Bool.eq_false_iff.mpr fun hi => hf ((inside_iff_fits s p w h).mp hi)

theorem motionSide_iff (n : Nat) : motionSide n = true ↔ motionSize n := by simp [motionSide, motionSize, or_assoc]

/-- The operand check of `IPRED` and `IPRED_P` (R251). -/
theorem intraOperandsBad_iff (s : State) (plane : BitVec 2) : s.intraOperandsBad plane = true ↔ plane = 3#2 ∨ ¬ s.squareBlock := by
  unfold State.intraOperandsBad State.squareBlock intraSide
  by_cases hp : plane = 3#2
  · simp [hp]
  · by_cases hw : s.blockW = s.blockH
    · simp [hp, hw.symm, and_assoc]
    · simp [hp, hw]

/-- Inside a block that fits, its pixels are those written (R43). -/
theorem pixel_writeBlock_in (s : State) {p w h : Nat} (f : Nat → Nat → Byte) (hp : p < 3) (hfit : s.fits p w h) {slot q r c : Nat}
    (hs : inStore slot q r c) (hin : slot = s.cur.val ∧ q = p ∧ inBlock s.blockX s.blockY w h r c) :
    (s.writeBlock p s.blockX s.blockY w h f).pixel slot q r c = f (r - s.blockY) (c - s.blockX) := by
  have hx := hfit.1
  have hy := hfit.2
  have hw := planeW_le s p
  have hh := planeH_le s p
  rw [pixel_writeBlock s f hp (by omega) (by omega) hs.2.1 hs.2.2.1 hs.2.2.2]
  exact if_pos hin

/-- Everywhere else the plane store is as it was (R43). -/
theorem pixel_writeBlock_out (s : State) {p w h : Nat} (f : Nat → Nat → Byte) (hp : p < 3) (hfit : s.fits p w h) {slot q r c : Nat}
    (hs : inStore slot q r c) (hout : ¬ (slot = s.cur.val ∧ q = p ∧ inBlock s.blockX s.blockY w h r c)) :
    (s.writeBlock p s.blockX s.blockY w h f).pixel slot q r c = s.pixel slot q r c := by
  have hx := hfit.1
  have hy := hfit.2
  have hw := planeW_le s p
  have hh := planeH_le s p
  rw [pixel_writeBlock s f hp (by omega) (by omega) hs.2.1 hs.2.2.1 hs.2.2.2]
  exact if_neg hout

/-- `clamp255` as a number (R13). -/
theorem clamp255_toNat (v : Int) : ((clamp255 v).toNat : Int) = max 0 (min 255 v) := by
  unfold clamp255 clamp
  split
  · simp; omega
  · split
    · simp; omega
    · simp; omega

/-- The half-pixel bit of a component is its value modulo 2 (R272). -/
theorem halfBit_eq (v : BitVec 16) : (halfBit v : Int) = v.toInt % 2 := by
  unfold halfBit
  have h : v.getLsbD 0 = decide (v.toNat % 2 = 1) := by simp [BitVec.getLsbD, Nat.testBit_zero]
  have hlt := v.isLt
  rw [h, BitVec.toInt]
  split <;> rename_i hh <;> simp at hh <;> split <;> omega

/-- A rectangle of `h` rows of `w` cells, row by row: how many cells. -/
theorem length_rows {α : Type} (w h : Nat) (f : Nat → Nat → α) :
    ((List.range h).flatMap fun y => (List.range w).map (f y)).length = h * w := by
  simp [List.length_flatMap, List.map_const', List.sum_replicate]

/-- And which cell stands where. -/
theorem getElem?_rows {α : Type} (w h : Nat) (f : Nat → Nat → α) (y x : Nat) (hy : y < h) (hx : x < w) :
    ((List.range h).flatMap fun y => (List.range w).map (f y))[y * w + x]? = some (f y x) := by
  induction h with
  | zero => omega
  | succ h ih =>
    rw [List.range_succ, List.flatMap_append]
    by_cases e : y < h
    · have hlt : y * w + x < h * w := by
        have h1 : (y + 1) * w ≤ h * w := Nat.mul_le_mul_right w e
        have h2 : (y + 1) * w = y * w + w := Nat.succ_mul y w
        omega
      rw [List.getElem?_append_left (by rw [length_rows]; exact hlt)]
      exact ih e
    · obtain rfl : y = h := by omega
      rw [List.getElem?_append_right (by rw [length_rows]; omega), length_rows]
      simp [hx]

end Sys2Proof.Machine
end

