-- ==== Sys2Proof/Laws/Ops.lean ====
section
/-! SUPPORT. What the shared operations can do, said once: raising a fault, running a command body, running a micro-operation. -/

namespace Sys2Proof.Machine

/-- A fault word is never zero: every code is nonzero (R331). -/
theorem faultWord_ne_zero (f : FaultKind) (i : Int) : faultWord f i ≠ 0#32 := by
  intro h
  have h2 : (faultWord f i).extractLsb' 0 8 = (0#32).extractLsb' 0 8 := by rw [h]
  rw [faultWord, BitVec.extractLsb'_append_eq_right] at h2
  cases f <;> simp [FaultKind.code] at h2

/-- Bits 7:0 of a fault word are the code (R26). -/
theorem faultWord_code (f : FaultKind) (i : Int) : (faultWord f i).toNat % 256 = f.code.toNat := by
  have h2 : (faultWord f i).extractLsb' 0 8 = f.code := by
    rw [faultWord, BitVec.extractLsb'_append_eq_right]
  have := congrArg BitVec.toNat h2
  simpa [BitVec.extractLsb'_toNat] using this

theorem faulted_eq_false_iff (s : State) : s.faulted = false ↔ s.fault = 0#32 := by
  simp [State.faulted]

theorem faulted_eq_true_iff (s : State) : s.faulted = true ↔ s.fault ≠ 0#32 := by
  simp [State.faulted]

/-- Raising a fault on a clear machine writes `FAULT` and nothing else (R340, R341). -/
theorem raise_of_clear {s : State} (h : s.faulted = false) (f : FaultKind) (i : Int) :
    s.raise f i = { s with fault := faultWord f i } := by
  simp [State.raise, h]

/-- Raising a fault on a faulted machine changes nothing (R26). -/
theorem raise_of_faulted {s : State} (h : s.faulted = true) (f : FaultKind) (i : Int) : s.raise f i = s := by
  simp [State.raise, h]

theorem raiseLate_of_clear {s : State} (h : s.faulted = false) (f : FaultKind) (i : Int) :
    s.raiseLate f i = { s.scramble with fault := faultWord f i } := by
  simp [State.raiseLate, h]

/-- After a raise the machine is faulted (R340). -/
theorem faulted_raise (s : State) (f : FaultKind) (i : Int) : (s.raise f i).faulted = true := by
  by_cases h : s.faulted = true
  · rw [raise_of_faulted h]; exact h
  · rw [raise_of_clear (by simpa using h)]
    simp [State.faulted, faultWord_ne_zero]

theorem faulted_raiseLate (s : State) (f : FaultKind) (i : Int) : (s.raiseLate f i).faulted = true := by
  by_cases h : s.faulted = true
  · simp [State.raiseLate, h]
  · rw [raiseLate_of_clear (by simpa using h)]
    simp [State.faulted, faultWord_ne_zero]

/-- An accepted command runs its body (R100). -/
theorem perform_of_clear {s : State} (h : s.faulted = false) (body : State → State) :
    perform s body = .next (body s) := by
  simp [perform, h]

/-- A refused command changes nothing (R342). -/
theorem perform_of_faulted {s : State} (h : s.faulted = true) (body : State → State) : perform s body = .next s := by
  simp [perform, h]

/-- Everything a command can do: refuse, or run its body. -/
theorem perform_cases {s t : State} {body : State → State} (h : perform s body = .next t) :
    (s.faulted = true ∧ t = s) ∨ (s.faulted = false ∧ t = body s) := by
  by_cases hf : s.faulted = true
  · rw [perform_of_faulted hf] at h
    exact .inl ⟨hf, by injection h with h; exact h.symm⟩
  · have hf : s.faulted = false := by simpa using hf
    rw [perform_of_clear hf] at h
    exact .inr ⟨hf, by injection h with h; exact h.symm⟩

/-- A micro-operation that gives a value. -/
theorem runMicro_of_ok {α : Type} {s : State} {m : Micro α} {a : α} {b : Bsu} (h : m s.bsu = .ok a b) (k : α → State → State) :
    runMicro s m k = k a (s.setBsu b) := by
  simp [runMicro, h]

/-- A micro-operation that faults before it took anything (R341 a). -/
theorem runMicro_of_early {α : Type} {s : State} {m : Micro α} {f : FaultKind} {i : Int}
    (h : m s.bsu = .fault f i s.bsu) (k : α → State → State) : runMicro s m k = s.raise f i := by
  simp [runMicro, h]

/-- A micro-operation that faults after it took something (R341). -/
theorem runMicro_of_late {α : Type} {s : State} {m : Micro α} {f : FaultKind} {i : Int} {b : Bsu}
    (h : m s.bsu = .fault f i b) (hb : b ≠ s.bsu) (k : α → State → State) : runMicro s m k = s.raiseLate f i := by
  simp [runMicro, h, hb]

/-- Everything running a micro-operation can do: go on with a value, or raise a fault, early or late. -/
theorem runMicro_cases {α : Type} (s : State) (m : Micro α) (k : α → State → State) :
    (∃ a b, m s.bsu = .ok a b ∧ runMicro s m k = k a (s.setBsu b)) ∨
    (∃ f i, runMicro s m k = s.raise f i) ∨ (∃ f i, runMicro s m k = s.raiseLate f i) := by
  cases h : m s.bsu with
  | ok a b => exact .inl ⟨a, b, rfl, runMicro_of_ok h k⟩
  | fault f i b =>
    by_cases hb : b = s.bsu
    · subst hb; exact .inr (.inl ⟨f, i, runMicro_of_early h k⟩)
    · exact .inr (.inr ⟨f, i, runMicro_of_late h hb k⟩)

/-- A command whose micro-operation faults records that fault, early or late (R340). -/
theorem runMicro_fault {α : Type} {s : State} (hf : s.faulted = false) {m : Micro α} {f : FaultKind} {i : Int} {b : Bsu}
    (h : m s.bsu = .fault f i b) (k : α → State → State) : (runMicro s m k).fault = faultWord f i := by
  unfold runMicro
  rw [h]
  simp only
  split
  · rw [raise_of_clear hf]
  · rw [raiseLate_of_clear hf]

@[simp] theorem setBsu_bsu (s : State) (b : Bsu) : (s.setBsu b).bsu = b := rfl

@[simp] theorem setBsu_src (s : State) (b : Bsu) : (s.setBsu b).src = s.src := rfl

@[simp] theorem setBsu_self (s : State) : s.setBsu s.bsu = s := rfl

@[simp] theorem setBsu_faulted (s : State) (b : Bsu) : (s.setBsu b).faulted = s.faulted := rfl

/-- Decoding accepts a word: the machine executes that command (R100). -/
theorem command_of_decode {w : Word} {i : Instr} (h : decode w = .ok i) (s : State) : command w s = exec i s := by
  simp [command, h]

/-- Decoding refuses a word: the machine raises the fault (R111). -/
theorem command_of_reject {w : Word} {r : Reject} (h : decode w = .error r) (s : State) : command w s = .next (s.reject r) := by
  simp [command, h]

/-- The step of a machine whose host writes a command word next. -/
theorem step_of_command {s : State} {w : Word} {rest : List HostMove} (h : s.script = .write .word 0 w :: rest) :
    step s = command w { s with script := rest } := by
  simp [step, advance, h, hostMove, State.hostWrite]

end Sys2Proof.Machine
end

