-- ==== Sys2Proof/Laws/Bsu.lean ====
section
/-! SUPPORT. The micro-operations: what each can do, said once, in terms of the stream of unread bits at the cursor. -/

namespace Sys2Proof.Machine

/-- A cursor the machine can be in: `BITPOS < W` (R30), and a source no longer than a register can address (R29). -/
def BsuOk (src : Src) (b : Bsu) : Prop := b.bitpos.toNat < windowWidth src.w16 ∧ src.len < 2 ^ 28

@[simp] theorem microBind_pure {α β : Type} (a : α) (k : α → Micro β) : microBind (microPure a) k = k a := rfl

theorem microBind_of_ok {α β : Type} {m : Micro α} {k : α → Micro β} {b b' : Bsu} {a : α} (h : m b = .ok a b') :
    microBind m k b = k a b' := by simp [microBind, h]

theorem microBind_of_fault {α β : Type} {m : Micro α} {k : α → Micro β} {b b' : Bsu} {f : FaultKind} {i : Int}
    (h : m b = .fault f i b') : microBind m k b = .fault f i b' := by simp [microBind, h]

/-- A sequence that gives a value: both parts gave one. -/
theorem microBind_ok {α β : Type} {m : Micro α} {k : α → Micro β} {b b' : Bsu} {v : β} (h : microBind m k b = .ok v b') :
    ∃ a b1, m b = .ok a b1 ∧ k a b1 = .ok v b' := by
  unfold microBind at h
  split at h
  · next a b1 hm => exact ⟨a, b1, hm, h⟩
  · cases h

theorem microBind_assoc {α β γ : Type} (m : Micro α) (k : α → Micro β) (l : β → Micro γ) :
    microBind (microBind m k) l = microBind m fun a => microBind (k a) l := by
  funext b
  unfold microBind
  cases m b <;> rfl

/-- `fetch(n)` with the bytes there (R141). -/
theorem fetch_of_le {src : Src} {b : Bsu} {n : Nat} (h : b.pos.toNat + n ≤ src.len) :
    fetch src n b =
      .ok ((List.range n).map fun i => src.byte (b.pos.toNat + i)) { b with pos := b.pos + BitVec.ofNat 32 n } := by
  have : ¬ (n ≠ 0 ∧ src.len < b.pos.toNat + n) := by omega
  simp [fetch, this]

/-- `fetch(0)` never faults and changes nothing (R141). -/
theorem fetch_zero (src : Src) (b : Bsu) : fetch src 0 b = .ok [] b := by
  simp [fetch]

/-- `fetch(n)` with a byte missing takes none (R141). -/
theorem fetch_of_lt {src : Src} {b : Bsu} {n : Nat} (hn : n ≠ 0) (h : src.len < b.pos.toNat + n) :
    fetch src n b = .fault .truncatedStream (b.pos.toNat % 2 ^ 24 : Nat) b := by
  simp [fetch, hn, h]

/-- A window's bits are those of the stream it was fetched from (R71, R73). -/
theorem windowOf_bit (src : Src) (a p : Nat) (hp : p < windowWidth src.w16) :
    (windowOf src [src.byte a, src.byte (a + 1)]).getLsbD (windowWidth src.w16 - 1 - p) = windowBitAt src a p := by
  unfold windowOf windowBitAt
  cases hw : src.w16
  · simp only [hw, windowWidth] at hp ⊢
    have h0 : p / 8 = 0 := by simp at hp; omega
    have h1 : p % 8 = p := by simp at hp; omega
    simp [h0, h1]
    intro; simp at hp; omega
  · simp only [hw, windowWidth, if_true] at hp ⊢
    cases hl : src.le
    · simp only [Bool.false_eq_true, and_false, if_false, List.getD_cons_zero, List.getD_cons_succ, BitVec.getLsbD_append]
      by_cases h8 : p < 8
      · have h0 : p / 8 = 0 := by omega
        have h1 : p % 8 = p := by omega
        have h2 : ¬ (16 - 1 - p < 8) := by omega
        have h3 : 16 - 1 - p - 8 = 7 - p := by omega
        simp [h0, h1, h2, h3]
      · have h0 : p / 8 = 1 := by omega
        have h1 : 16 - 1 - p = 7 - p % 8 := by omega
        have h2 : 7 - p % 8 < 8 := by omega
        simp [h0, h1, h2]
    · simp only [and_true, if_true, List.getD_cons_zero, List.getD_cons_succ, BitVec.getLsbD_append]
      by_cases h8 : p < 8
      · have h0 : p / 8 = 0 := by omega
        have h1 : p % 8 = p := by omega
        have h2 : ¬ (16 - 1 - p < 8) := by omega
        have h3 : 16 - 1 - p - 8 = 7 - p := by omega
        simp [h0, h1, h2, h3]
      · have h0 : p / 8 = 1 := by omega
        have h1 : 16 - 1 - p = 7 - p % 8 := by omega
        have h2 : 7 - p % 8 < 8 := by omega
        simp [h0, h1, h2]

/-- The window a refill makes of the bytes it fetched. -/
theorem windowOf_fetched (src : Src) (a : Nat) :
    windowOf src ((List.range (windowWidth src.w16 / 8)).map fun i => src.byte (a + i)) =
      windowOf src [src.byte a, src.byte (a + 1)] := by
  cases hw : src.w16
  · simp [windowOf, hw, windowWidth]
  · rfl

/-- A refill with a whole window there (R161). -/
theorem refill_of_le {src : Src} {b : Bsu} (h : b.pos.toNat + windowWidth src.w16 / 8 ≤ src.len) :
    refill src b =
      .ok () ⟨b.pos + BitVec.ofNat 32 (windowWidth src.w16 / 8), b.bitpos,
        windowOf src [src.byte b.pos.toNat, src.byte (b.pos.toNat + 1)]⟩ := by
  simp [refill, microBind, fetch_of_le h, windowOf_fetched]

theorem windowWidth_cases (w16 : Bool) : windowWidth w16 = 8 ∨ windowWidth w16 = 16 := by cases w16 <;> simp [windowWidth]

theorem bitpos_eq_zero_iff (b : Bsu) : b.bitpos = 0#4 ↔ b.bitpos.toNat = 0 := by
  constructor
  · intro h; rw [h]; rfl
  · intro h; exact BitVec.eq_of_toNat_eq (by simpa using h)

/-- `pop_bit()` with a bit left: it gives the next bit of the stream and moves the cursor by one (R162). -/
theorem popBit_of_pos {src : Src} {b : Bsu} (hok : BsuOk src b) (h : 0 < bitsLeft src b) :
    popBit src b = .ok (streamBit src b 0) (cursorAfter src b 1) := by
  obtain ⟨hb, hlen⟩ := hok
  unfold popBit
  by_cases hz : b.bitpos = 0#4
  · have hz' := (bitpos_eq_zero_iff b).mp hz
    have hle : b.pos.toNat + windowWidth src.w16 / 8 ≤ src.len := by
      simp only [bitsLeft, hz, if_true] at h
      rcases windowWidth_cases src.w16 with hw | hw <;> rw [hw] at h ⊢ <;> omega
    simp only [hz, if_true, microBind, refill_of_le hle, takeBit]
    have hW : 0 < windowWidth src.w16 := by rcases windowWidth_cases src.w16 with hw | hw <;> omega
    have hwl : windowLeft src b = 0 := by simp [windowLeft, hz]
    have hr : refillsFor src b 1 = 1 := by
      simp only [refillsFor, hwl]
      rcases windowWidth_cases src.w16 with hw | hw <;> rw [hw]
    have hbit := windowOf_bit src b.pos.toNat 0 hW
    simp only [cursorAfter, hr, hz', streamBit, hwl]
    simp only [BitVec.toNat_ofNat, Nat.sub_zero, Nat.lt_irrefl, if_false, Nat.sub_self, Nat.zero_mul, Nat.add_zero,
      Nat.zero_mod, Nat.zero_div, one_ne_zero, Nat.one_mul, Nat.zero_add] at *
    simp [hbit]
  · have hz' : b.bitpos.toNat ≠ 0 := fun h => hz ((bitpos_eq_zero_iff b).mpr h)
    have hwl : windowLeft src b = windowWidth src.w16 - b.bitpos.toNat := by simp [windowLeft, hz]
    have hr : refillsFor src b 1 = 0 := by
      simp only [refillsFor, hwl]
      rcases windowWidth_cases src.w16 with hw | hw <;> rw [hw] at hb ⊢ <;> omega
    have h0 : 0 < windowLeft src b := by omega
    simp [hz, takeBit, cursorAfter, hr, streamBit, h0]

/-- `pop_bit()` with no bit left: a truncated stream, nothing taken (R162, R77). -/
theorem popBit_of_zero {src : Src} {b : Bsu} (hok : BsuOk src b) (h : bitsLeft src b = 0) :
    popBit src b = .fault .truncatedStream (b.pos.toNat % 2 ^ 24 : Nat) b := by
  obtain ⟨hb, hlen⟩ := hok
  have hz : b.bitpos = 0#4 := by
    by_contra hz
    have hz' : b.bitpos.toNat ≠ 0 := fun h => hz ((bitpos_eq_zero_iff b).mpr h)
    simp only [bitsLeft, hz, if_false] at h
    omega
  have hlt : src.len < b.pos.toNat + windowWidth src.w16 / 8 := by
    simp only [bitsLeft, hz, if_true] at h
    rcases windowWidth_cases src.w16 with hw | hw <;> rw [hw] at h ⊢ <;> omega
  have hn : windowWidth src.w16 / 8 ≠ 0 := by rcases windowWidth_cases src.w16 with hw | hw <;> rw [hw] <;> decide
  have : popBit src b = microBind (refill src) (fun _ => takeBit src) b := by simp [popBit, hz]
  rw [this]
  exact microBind_of_fault (microBind_of_fault (fetch_of_lt hn hlt))

/-- One bit from an exhausted window: a refill, and the first bit of the new window is gone. -/
theorem cursorAfter_one_refill {src : Src} {b : Bsu} (hz : b.bitpos.toNat = 0) :
    cursorAfter src b 1 =
      ⟨b.pos + BitVec.ofNat 32 (windowWidth src.w16 / 8), 1#4, windowOf src [src.byte b.pos.toNat, src.byte (b.pos.toNat + 1)]⟩ := by
  have hwl : windowLeft src b = 0 := by simp [windowLeft, (bitpos_eq_zero_iff b).mpr hz]
  have hr : refillsFor src b 1 = 1 := by
    simp only [refillsFor, hwl]
    rcases windowWidth_cases src.w16 with hw | hw <;> rw [hw]
  simp only [cursorAfter, hr, hz]
  rcases windowWidth_cases src.w16 with hw | hw <;> rw [hw] <;> simp

/-- One bit from a window that still holds some: only `BITPOS` moves. -/
theorem cursorAfter_one_window {src : Src} {b : Bsu} (hb : b.bitpos.toNat < windowWidth src.w16) (hz : b.bitpos.toNat ≠ 0) :
    cursorAfter src b 1 = ⟨b.pos, BitVec.ofNat 4 ((b.bitpos.toNat + 1) % windowWidth src.w16), b.win⟩ := by
  have hwl : windowLeft src b = windowWidth src.w16 - b.bitpos.toNat := by
    simp [windowLeft, show b.bitpos ≠ 0#4 from fun h => hz ((bitpos_eq_zero_iff b).mp h)]
  have hr : refillsFor src b 1 = 0 := by
    simp only [refillsFor, hwl]
    rcases windowWidth_cases src.w16 with hw | hw <;> rw [hw] at hb ⊢ <;> omega
  simp [cursorAfter, hr]

/-- The cursor one bit on is a cursor the machine can be in. -/
theorem BsuOk.next {src : Src} {b : Bsu} (h : BsuOk src b) : BsuOk src (cursorAfter src b 1) := by
  refine ⟨?_, h.2⟩
  rcases windowWidth_cases src.w16 with hw | hw <;> simp only [cursorAfter, hw, BitVec.toNat_ofNat] <;> omega

theorem bitsLeft_eq (src : Src) (b : Bsu) :
    bitsLeft src b = (if b.bitpos.toNat = 0 then 0 else windowWidth src.w16 - b.bitpos.toNat)
      + windowWidth src.w16 * ((src.len - b.pos.toNat) / (windowWidth src.w16 / 8)) := by
  simp only [bitsLeft, bitpos_eq_zero_iff]

/-- How `pop_bit()` counts the bits down. -/
theorem bitsLeft_next {src : Src} {b : Bsu} (hok : BsuOk src b) (h : 0 < bitsLeft src b) :
    bitsLeft src (cursorAfter src b 1) + 1 = bitsLeft src b := by
  obtain ⟨hb, hlen⟩ := hok
  have hpos := b.pos.isLt
  by_cases hz : b.bitpos.toNat = 0
  · rw [cursorAfter_one_refill hz]
    rw [bitsLeft_eq] at h ⊢
    rw [bitsLeft_eq]
    rcases windowWidth_cases src.w16 with hw | hw <;>
      simp only [hw, hz, if_true, BitVec.toNat_add, BitVec.toNat_ofNat] at h ⊢ <;> simp only [Nat.reduceDiv, Nat.reducePow,
        Nat.reduceMod, one_ne_zero, if_false] at h ⊢ <;> omega
  · rw [cursorAfter_one_window hb hz]
    rw [bitsLeft_eq, bitsLeft_eq]
    rcases windowWidth_cases src.w16 with hw | hw <;> rw [hw] at hb <;>
      simp only [hw, hz, if_false, BitVec.toNat_ofNat] <;> split <;> omega

/-- Popping one bit moves the stream on by one. -/
theorem streamBit_next {src : Src} {b : Bsu} (hok : BsuOk src b) (h : 0 < bitsLeft src b) (k : Nat) :
    streamBit src (cursorAfter src b 1) k = streamBit src b (k + 1) := by
  obtain ⟨hb, hlen⟩ := hok
  have hpos := b.pos.isLt
  by_cases hz : b.bitpos.toNat = 0
  · have hwl : windowLeft src b = 0 := by simp [windowLeft, (bitpos_eq_zero_iff b).mpr hz]
    have hle : b.pos.toNat + windowWidth src.w16 / 8 < 2 ^ 32 := by
      rw [bitsLeft_eq] at h
      rcases windowWidth_cases src.w16 with hw | hw <;> simp only [hw, hz, if_true] at h ⊢ <;> omega
    rw [cursorAfter_one_refill hz]
    have hwl' : windowLeft src ⟨b.pos + BitVec.ofNat 32 (windowWidth src.w16 / 8), 1#4,
        windowOf src [src.byte b.pos.toNat, src.byte (b.pos.toNat + 1)]⟩ = windowWidth src.w16 - 1 := by
      simp [windowLeft]
    simp only [streamBit, hwl, hwl', Nat.not_lt_zero, if_false, Nat.sub_zero]
    have hp : (b.pos + BitVec.ofNat 32 (windowWidth src.w16 / 8)).toNat = b.pos.toNat + windowWidth src.w16 / 8 := by
      rw [BitVec.toNat_add, BitVec.toNat_ofNat]
      rcases windowWidth_cases src.w16 with hw | hw <;> simp only [hw] at hle ⊢ <;> omega
    by_cases hk : k < windowWidth src.w16 - 1
    · rw [if_pos hk]
      have h1 : (k + 1) / windowWidth src.w16 = 0 := Nat.div_eq_of_lt (by omega)
      have h2 : (k + 1) % windowWidth src.w16 = k + 1 := Nat.mod_eq_of_lt (by omega)
      rw [h1, h2]
      have := windowOf_bit src b.pos.toNat (k + 1) (by omega)
      simp only [BitVec.toNat_ofNat, Nat.zero_mul, Nat.add_zero] at *
      rw [← this]
      congr 1
      omega
    · rw [if_neg hk, hp]
      rcases windowWidth_cases src.w16 with hw | hw <;> simp only [hw] at hk ⊢
      · have h1 : (k + 1) / 8 = (k - (8 - 1)) / 8 + 1 := by omega
        have h2 : (k + 1) % 8 = (k - (8 - 1)) % 8 := by omega
        rw [h1, h2]; congr 1; omega
      · have h1 : (k + 1) / 16 = (k - (16 - 1)) / 16 + 1 := by omega
        have h2 : (k + 1) % 16 = (k - (16 - 1)) % 16 := by omega
        rw [h1, h2]; congr 1; omega
  · rw [cursorAfter_one_window hb hz]
    have hwl : windowLeft src b = windowWidth src.w16 - b.bitpos.toNat := by
      simp [windowLeft, show b.bitpos ≠ 0#4 from fun h => hz ((bitpos_eq_zero_iff b).mp h)]
    by_cases hlast : b.bitpos.toNat + 1 = windowWidth src.w16
    · have hmod : (b.bitpos.toNat + 1) % windowWidth src.w16 = 0 := by rw [hlast]; exact Nat.mod_self _
      have hwl' : windowLeft src ⟨b.pos, BitVec.ofNat 4 ((b.bitpos.toNat + 1) % windowWidth src.w16), b.win⟩ = 0 := by
        simp [windowLeft, hmod]
      have h1 : windowLeft src b = 1 := by omega
      simp only [streamBit, hwl', h1, Nat.not_lt_zero, if_false, Nat.sub_zero]
      rw [if_neg (by omega)]
      simp
    · have hlt : b.bitpos.toNat + 1 < windowWidth src.w16 := by omega
      have hmod : (b.bitpos.toNat + 1) % windowWidth src.w16 = b.bitpos.toNat + 1 := Nat.mod_eq_of_lt hlt
      have htn : (BitVec.ofNat 4 (b.bitpos.toNat + 1)).toNat = b.bitpos.toNat + 1 := by
        rw [BitVec.toNat_ofNat]
        rcases windowWidth_cases src.w16 with hw | hw <;> rw [hw] at hlt <;> omega
      have hne : BitVec.ofNat 4 (b.bitpos.toNat + 1) ≠ 0#4 := by
        intro hc
        have := congrArg BitVec.toNat hc
        rw [htn] at this
        simp at this
      have hwl' : windowLeft src ⟨b.pos, BitVec.ofNat 4 ((b.bitpos.toNat + 1) % windowWidth src.w16), b.win⟩
          = windowLeft src b - 1 := by
        rw [hmod, hwl]
        simp only [windowLeft, hne, if_false, htn]
        omega
      rw [hmod] at hwl' ⊢
      simp only [streamBit, hwl', htn]
      by_cases hk : k < windowLeft src b - 1
      · rw [if_pos hk, if_pos (by omega)]
        congr 1
        omega
      · rw [if_neg hk, if_neg (by omega)]
        have : k - (windowLeft src b - 1) = k + 1 - windowLeft src b := by omega
        rw [this]

/-- No bit popped: the cursor stands. -/
theorem cursorAfter_zero (src : Src) {b : Bsu} (hb : b.bitpos.toNat < windowWidth src.w16) : cursorAfter src b 0 = b := by
  have hr : refillsFor src b 0 = 0 := by
    simp only [refillsFor, Nat.zero_sub]
    rcases windowWidth_cases src.w16 with hw | hw <;> rw [hw]
  simp [cursorAfter, hr, Nat.mod_eq_of_lt hb]

/-- One bit and then `n` more are `n + 1` bits. -/
theorem cursorAfter_next {src : Src} {b : Bsu} (hok : BsuOk src b) (h : 0 < bitsLeft src b) (n : Nat) :
    cursorAfter src (cursorAfter src b 1) n = cursorAfter src b (n + 1) := by
  obtain ⟨hb, hlen⟩ := hok
  have hpos := b.pos.isLt
  by_cases hz : b.bitpos.toNat = 0
  · have hle : b.pos.toNat + windowWidth src.w16 / 8 < 2 ^ 32 := by
      rw [bitsLeft_eq] at h
      rcases windowWidth_cases src.w16 with hw | hw <;> simp only [hw, hz, if_true] at h ⊢ <;> omega
    rw [cursorAfter_one_refill hz]
    have hp : (b.pos + BitVec.ofNat 32 (windowWidth src.w16 / 8)).toNat = b.pos.toNat + windowWidth src.w16 / 8 := by
      rw [BitVec.toNat_add, BitVec.toNat_ofNat]
      rcases windowWidth_cases src.w16 with hw | hw <;> simp only [hw] at hle ⊢ <;> omega
    have hwl : windowLeft src b = 0 := by simp [windowLeft, (bitpos_eq_zero_iff b).mpr hz]
    have hr : refillsFor src b (n + 1) =
        refillsFor src ⟨b.pos + BitVec.ofNat 32 (windowWidth src.w16 / 8), 1#4,
          windowOf src [src.byte b.pos.toNat, src.byte (b.pos.toNat + 1)]⟩ n + 1 := by
      have hwl' : windowLeft src ⟨b.pos + BitVec.ofNat 32 (windowWidth src.w16 / 8), 1#4,
          windowOf src [src.byte b.pos.toNat, src.byte (b.pos.toNat + 1)]⟩ = windowWidth src.w16 - 1 := by
        simp [windowLeft]
      simp only [refillsFor, hwl, hwl']
      rcases windowWidth_cases src.w16 with hw | hw <;> simp only [hw] <;> omega
    simp only [cursorAfter, hr, hz, Nat.add_eq_zero_iff, one_ne_zero, and_false, if_false, Nat.add_sub_cancel, hp]
    generalize hR : refillsFor src ⟨b.pos + BitVec.ofNat 32 (windowWidth src.w16 / 8), 1#4,
          windowOf src [src.byte b.pos.toNat, src.byte (b.pos.toNat + 1)]⟩ n = R
    congr 1
    · apply BitVec.eq_of_toNat_eq
      simp only [BitVec.toNat_add, BitVec.toNat_ofNat, Nat.add_mul]
      omega
    · rw [show (1#4).toNat + n = 0 + (n + 1) by simp; omega]
    · split
      · next h0 => subst h0; simp
      · next h0 =>
        have : b.pos.toNat + windowWidth src.w16 / 8 + (R - 1) * (windowWidth src.w16 / 8)
            = b.pos.toNat + R * (windowWidth src.w16 / 8) := by
          obtain ⟨m, rfl⟩ := Nat.exists_eq_succ_of_ne_zero h0
          simp only [Nat.succ_eq_add_one, Nat.add_sub_cancel, Nat.add_mul]
          omega
        rw [this]
  · rw [cursorAfter_one_window hb hz]
    have hr : refillsFor src ⟨b.pos, BitVec.ofNat 4 ((b.bitpos.toNat + 1) % windowWidth src.w16), b.win⟩ n
        = refillsFor src b (n + 1) := by
      have hwl : windowLeft src b = windowWidth src.w16 - b.bitpos.toNat := by
        simp [windowLeft, show b.bitpos ≠ 0#4 from fun h => hz ((bitpos_eq_zero_iff b).mp h)]
      have hwl' : windowLeft src ⟨b.pos, BitVec.ofNat 4 ((b.bitpos.toNat + 1) % windowWidth src.w16), b.win⟩
          = windowWidth src.w16 - b.bitpos.toNat - 1 := by
        have hi := bitpos_eq_zero_iff ⟨b.pos, BitVec.ofNat 4 ((b.bitpos.toNat + 1) % windowWidth src.w16), b.win⟩
        simp only [windowLeft, hi, BitVec.toNat_ofNat]
        rcases windowWidth_cases src.w16 with hw | hw <;> rw [hw] at hb <;> simp only [hw] <;> split <;> omega
      simp only [refillsFor, hwl, hwl']
      congr 2
      omega
    simp only [cursorAfter, hr]
    congr 1
    apply BitVec.eq_of_toNat_eq
    simp only [BitVec.toNat_ofNat]
    rcases windowWidth_cases src.w16 with hw | hw <;> simp only [hw] <;> omega

/-- The cursor keeps to what the machine can be in, however many bits are popped. -/
theorem BsuOk.after {src : Src} {b : Bsu} (h : BsuOk src b) (n : Nat) : BsuOk src (cursorAfter src b n) := by
  refine ⟨?_, h.2⟩
  rcases windowWidth_cases src.w16 with hw | hw <;> simp only [cursorAfter, hw, BitVec.toNat_ofNat] <;> omega

/-- Everything `pop_bit()` can do. -/
theorem popBit_cases {src : Src} {b : Bsu} (hok : BsuOk src b) :
    (0 < bitsLeft src b ∧ popBit src b = .ok (streamBit src b 0) (cursorAfter src b 1)) ∨
    (bitsLeft src b = 0 ∧ popBit src b = .fault .truncatedStream (b.pos.toNat % 2 ^ 24 : Nat) b) := by
  rcases Nat.eq_zero_or_pos (bitsLeft src b) with h | h
  · exact .inr ⟨h, popBit_of_zero hok h⟩
  · exact .inl ⟨h, popBit_of_pos hok h⟩

/-- The loop of `pop_length` has fuel enough: with at least the bits left, more fuel changes nothing (R169). -/
theorem popLengthFrom_fuel {src : Src} (fuel : Nat) : ∀ {b : Bsu} (z : Nat), BsuOk src b → bitsLeft src b ≤ fuel →
    popLengthFrom src fuel z b = popLengthFrom src (fuel + 1) z b := by
  induction fuel with
  | zero =>
    intro b z hok h
    have hz := popBit_of_zero hok (Nat.le_zero.mp h)
    simp [popLengthFrom, microBind, hz]
  | succ fuel ih =>
    intro b z hok h
    rw [popLengthFrom, popLengthFrom]
    unfold microBind
    rcases popBit_cases hok with ⟨hpos, hp⟩ | ⟨_, hp⟩ <;> rw [hp]
    simp only
    split
    · rfl
    · exact ih _ hok.next (by have := bitsLeft_next hok hpos; omega)

/-- `pop_length()` without its fuel (R169): one bit, and if it is 0 one more than the length of what follows. -/
theorem popLength_unfold {src : Src} {b : Bsu} (hok : BsuOk src b) :
    popLength src b = microBind (popBit src) (fun bit =>
      if bit then microPure 1 else microBind (popLength src) fun n => microPure (n + 1)) b := by
  have shift : ∀ fuel z (b : Bsu), popLengthFrom src fuel (z + 1) b
      = microBind (popLengthFrom src fuel z) (fun n => microPure (n + 1)) b := by
    intro fuel
    induction fuel with
    | zero => intro z b; simp only [popLengthFrom, microBind, microPure]; cases popBit src b <;> rfl
    | succ fuel ih =>
      intro z b
      simp only [popLengthFrom, microBind, microPure]
      cases popBit src b with
      | fault f i b' => rfl
      | ok bit b' =>
        cases bit
        · simpa [microBind, microPure] using ih (z + 1) b'
        · rfl
  rcases popBit_cases hok with ⟨hpos, hp⟩ | ⟨hz, hp⟩
  · obtain ⟨n, hn⟩ := Nat.exists_eq_succ_of_ne_zero (Nat.pos_iff_ne_zero.mp hpos)
    have hn' : bitsLeft src (cursorAfter src b 1) = n := by have := bitsLeft_next hok hpos; omega
    rw [popLength, hn, Nat.succ_eq_add_one, popLengthFrom, microBind_of_ok hp, microBind_of_ok hp]
    split
    · rfl
    · rw [shift, microBind, microBind, popLength, hn']
  · rw [popLength, hz, popLengthFrom, microBind_of_fault hp, microBind_of_fault hp]

/-- The first bit and the rest of the stream's value (R72). -/
theorem streamValue_next {src : Src} {b : Bsu} (hok : BsuOk src b) (h : 0 < bitsLeft src b) (n : Nat) :
    streamValue src b (n + 1) = (streamBit src b 0).toNat * 2 ^ n + streamValue src (cursorAfter src b 1) n := by
  induction n with
  | zero => simp [streamValue]
  | succ n ih => rw [streamValue, ih, streamValue, streamBit_next hok h, Nat.pow_succ]; ring

theorem streamValue_lt (src : Src) (b : Bsu) (n : Nat) : streamValue src b n < 2 ^ n := by
  induction n with
  | zero => simp [streamValue]
  | succ n ih =>
    have : (streamBit src b n).toNat ≤ 1 := Bool.toNat_le _
    rw [streamValue, Nat.pow_succ]
    omega

/-- The fault of a pop that runs out of bits, and where it leaves the cursor (R141, R162). -/
def endOfBits (α : Type) (src : Src) (b : Bsu) : MicroResult α :=
  .fault .truncatedStream ((cursorAfter src b (bitsLeft src b)).pos.toNat % 2 ^ 24 : Nat) (cursorAfter src b (bitsLeft src b))

theorem popBit_endOfBits {src : Src} {b : Bsu} (hok : BsuOk src b) (h : bitsLeft src b = 0) :
    popBit src b = endOfBits Bool src b := by
  rw [popBit_of_zero hok h, endOfBits, h, cursorAfter_zero src hok.1]

/-- Running out one bit on is running out now. -/
theorem endOfBits_next {α : Type} {src : Src} {b : Bsu} (hok : BsuOk src b) (h : 0 < bitsLeft src b) :
    endOfBits α src (cursorAfter src b 1) = endOfBits α src b := by
  have hn := bitsLeft_next hok h
  rw [endOfBits, endOfBits, cursorAfter_next hok h, hn]

/-- Everything the loop of `pop_int` can do (R164). -/
theorem popIntFrom_cases {src : Src} (n : Nat) : ∀ {b : Bsu} (v : Nat), BsuOk src b →
    popIntFrom src n v b = if n ≤ bitsLeft src b then .ok (v * 2 ^ n + streamValue src b n) (cursorAfter src b n)
      else endOfBits Nat src b := by
  induction n with
  | zero => intro b v hok; simp [popIntFrom, microPure, streamValue, cursorAfter_zero src hok.1]
  | succ n ih =>
    intro b v hok
    rcases Nat.eq_zero_or_pos (bitsLeft src b) with h | h
    · have hp : popBit src b = endOfBits Bool src b := popBit_endOfBits hok h
      rw [popIntFrom, microBind_of_fault hp, h, if_neg (by omega), endOfBits, h]
    · have hn := bitsLeft_next hok h
      rw [popIntFrom, microBind_of_ok (popBit_of_pos hok h), ih _ hok.next, streamValue_next hok h, cursorAfter_next hok h,
        endOfBits_next hok h]
      by_cases hle : n + 1 ≤ bitsLeft src b
      · rw [if_pos (by omega), if_pos hle]
        congr 1
        rw [Nat.pow_succ]; ring
      · rw [if_neg (by omega), if_neg hle]

/-- Everything `pop_int(n)` can do (R164). -/
theorem popInt_cases {src : Src} {b : Bsu} (hok : BsuOk src b) (n : Nat) :
    popInt src n b = if n ≤ bitsLeft src b then .ok (streamValue src b n) (cursorAfter src b n) else endOfBits Nat src b := by
  rw [popInt, popIntFrom_cases n 0 hok, Nat.zero_mul, Nat.zero_add]

/-- Everything `pop_signed_int(n)` can do (R166, R167). -/
theorem popSint_cases {src : Src} {b : Bsu} (hok : BsuOk src b) {n : Nat} (hn : 1 ≤ n) :
    popSint src n b =
      if n ≤ bitsLeft src b then .ok (signedValue n (streamValue src b n)) (cursorAfter src b n) else endOfBits Int src b := by
  obtain ⟨m, rfl⟩ := Nat.exists_eq_add_of_le hn
  rw [Nat.add_comm 1 m] at *
  rcases Nat.eq_zero_or_pos (bitsLeft src b) with h | h
  · have hp : popBit src b = endOfBits Bool src b := popBit_endOfBits hok h
    rw [popSint, microBind_of_fault hp, h, if_neg (by omega), endOfBits, h]
  · have hnx := bitsLeft_next hok h
    rw [popSint, microBind_of_ok (popBit_of_pos hok h), Nat.add_sub_cancel]
    by_cases hle : m + 1 ≤ bitsLeft src b
    · rw [microBind_of_ok (by rw [popInt_cases hok.next, if_pos (by omega)]), if_pos hle, microPure, cursorAfter_next hok h]
      congr 1
      have hlt := streamValue_lt src (cursorAfter src b 1) m
      rw [streamValue_next hok h, signedValue, Nat.add_sub_cancel]
      cases streamBit src b 0
      · simp [hlt]
      · have : ¬ 2 ^ m + streamValue src (cursorAfter src b 1) m < 2 ^ m := by omega
        simp only [Bool.toNat_true, Nat.one_mul, if_neg this, Nat.pow_succ]
        push_cast
        ring
    · rw [microBind_of_fault (by rw [popInt_cases hok.next, if_neg (by omega), endOfBits]), if_neg hle,
        ← endOfBits_next hok h, endOfBits]

/-- `pop_length()` on a run of `z` zero bits and a 1 bit (R169). -/
theorem popLength_of_prefix {src : Src} (z : Nat) : ∀ {b : Bsu}, BsuOk src b → z < bitsLeft src b →
    (∀ k < z, streamBit src b k = false) → streamBit src b z = true →
    popLength src b = .ok (z + 1) (cursorAfter src b (z + 1)) := by
  induction z with
  | zero =>
    intro b hok h _ hone
    rw [popLength_unfold hok, microBind_of_ok (popBit_of_pos hok h), hone]
    rfl
  | succ z ih =>
    intro b hok h hzero hone
    have hpos : 0 < bitsLeft src b := by omega
    have hn := bitsLeft_next hok hpos
    have hz : ∀ k < z, streamBit src (cursorAfter src b 1) k = false := fun k hk => by
      rw [streamBit_next hok hpos]; exact hzero (k + 1) (by omega)
    have ho : streamBit src (cursorAfter src b 1) z = true := by rw [streamBit_next hok hpos]; exact hone
    rw [popLength_unfold hok, microBind_of_ok (popBit_of_pos hok hpos), hzero 0 (by omega)]
    simp only [Bool.false_eq_true, if_false]
    rw [microBind_of_ok (ih hok.next (by omega) hz ho), cursorAfter_next hok hpos]
    rfl

/-- `pop_length()` when every bit left is 0 (R169). -/
theorem popLength_of_zeros {src : Src} (n : Nat) : ∀ {b : Bsu}, BsuOk src b → bitsLeft src b = n →
    (∀ k < n, streamBit src b k = false) → popLength src b = endOfBits Nat src b := by
  induction n with
  | zero =>
    intro b hok h _
    have hp : popBit src b = endOfBits Bool src b := popBit_endOfBits hok h
    rw [popLength_unfold hok, microBind_of_fault hp, endOfBits]
  | succ n ih =>
    intro b hok h hzero
    have hpos : 0 < bitsLeft src b := by omega
    have hn := bitsLeft_next hok hpos
    have hz : ∀ k < n, streamBit src (cursorAfter src b 1) k = false := fun k hk => by
      rw [streamBit_next hok hpos]; exact hzero (k + 1) (by omega)
    rw [popLength_unfold hok, microBind_of_ok (popBit_of_pos hok hpos), hzero 0 (by omega)]
    simp only [Bool.false_eq_true, if_false]
    rw [microBind_of_fault (ih hok.next (by omega) hz), ← endOfBits_next hok hpos, endOfBits]

/-- How many bits are left further on. -/
theorem bitsLeft_after {src : Src} (n : Nat) : ∀ {b : Bsu}, BsuOk src b → n ≤ bitsLeft src b →
    bitsLeft src (cursorAfter src b n) = bitsLeft src b - n := by
  induction n with
  | zero => intro b hok _; rw [cursorAfter_zero src hok.1, Nat.sub_zero]
  | succ n ih =>
    intro b hok h
    have hn := bitsLeft_next hok (by omega : 0 < bitsLeft src b)
    rw [← cursorAfter_next hok (by omega), ih hok.next (by omega)]
    omega

/-- Popping `m` bits and then `n` is popping `m + n` (R165). -/
theorem cursorAfter_add {src : Src} (m : Nat) : ∀ {b : Bsu} (n : Nat), BsuOk src b → m ≤ bitsLeft src b →
    cursorAfter src (cursorAfter src b m) n = cursorAfter src b (m + n) := by
  induction m with
  | zero => intro b n hok _; rw [cursorAfter_zero src hok.1, Nat.zero_add]
  | succ m ih =>
    intro b n hok h
    have hn := bitsLeft_next hok (by omega : 0 < bitsLeft src b)
    rw [← cursorAfter_next hok (by omega), ih n hok.next (by omega), cursorAfter_next hok (by omega)]
    congr 1
    omega

/-- The stream `m` bits on. -/
theorem streamBit_after {src : Src} (m : Nat) : ∀ {b : Bsu} (k : Nat), BsuOk src b → m ≤ bitsLeft src b →
    streamBit src (cursorAfter src b m) k = streamBit src b (m + k) := by
  induction m with
  | zero => intro b k hok _; rw [cursorAfter_zero src hok.1, Nat.zero_add]
  | succ m ih =>
    intro b k hok h
    have hn := bitsLeft_next hok (by omega : 0 < bitsLeft src b)
    rw [← cursorAfter_next hok (by omega), ih k hok.next (by omega), streamBit_next hok (by omega)]
    congr 1
    omega

/-- The value of `m + n` bits is that of the first `m` and of the next `n` put together (R165). -/
theorem streamValue_add {src : Src} {b : Bsu} (hok : BsuOk src b) {m : Nat} (hm : m ≤ bitsLeft src b) (n : Nat) :
    streamValue src b (m + n) = streamValue src b m * 2 ^ n + streamValue src (cursorAfter src b m) n := by
  induction n with
  | zero => simp [streamValue]
  | succ n ih => rw [← Nat.add_assoc, streamValue, ih, streamValue, streamBit_after m n hok hm, Nat.pow_succ]; ring

/-- The walk of `pop_vlc` to a key the table holds, no shorter prefix being a key (R194, R196). -/
theorem popVlcFrom_of_match {src : Src} (vlc : List VlcRow) (t : BitVec 8) (d : Nat) : ∀ {b : Bsu} (depth key : Nat) {sym : Word},
    BsuOk src b → 0 < d → d ≤ depth → d ≤ bitsLeft src b →
    tableLookup vlc t (key * 2 ^ d + streamValue src b d) = some sym →
    (∀ e, 0 < e → e < d → tableLookup vlc t (key * 2 ^ e + streamValue src b e) = none) →
    popVlcFrom src vlc t depth key b = .ok (key * 2 ^ d + streamValue src b d, sym) (cursorAfter src b d) := by
  induction d with
  | zero => intro b depth key sym hok h0; omega
  | succ d ih =>
    intro b depth key sym hok _ hdep hleft hsome hnone
    have hpos : 0 < bitsLeft src b := by omega
    have hn := bitsLeft_next hok hpos
    obtain ⟨dep, rfl⟩ := Nat.exists_eq_add_of_le' (by omega : 1 ≤ depth)
    have hone : streamValue src b 1 = (streamBit src b 0).toNat := by simp [streamValue]
    rw [popVlcFrom, microBind_of_ok (popBit_of_pos hok hpos)]
    rcases Nat.eq_zero_or_pos d with rfl | hd
    · have hk : 2 * key + (streamBit src b 0).toNat = key * 2 ^ (0 + 1) + streamValue src b (0 + 1) := by
        rw [Nat.zero_add, hone]; ring
      rw [hk, hsome]
      rfl
    · have hk : 2 * key + (streamBit src b 0).toNat = key * 2 ^ 1 + streamValue src b 1 := by rw [hone]; ring
      have hstep : ∀ e, (2 * key + (streamBit src b 0).toNat) * 2 ^ e + streamValue src (cursorAfter src b 1) e
          = key * 2 ^ (e + 1) + streamValue src b (e + 1) := fun e => by
        rw [streamValue_next hok hpos, Nat.pow_succ]; ring
      rw [hk, hnone 1 (by omega) (by omega), ← hk]
      simp only
      rw [ih dep _ hok.next hd (by omega) (by omega) (by rw [hstep]; exact hsome)
        (fun e he hlt => by rw [hstep]; exact hnone (e + 1) (by omega) (by omega)), cursorAfter_next hok hpos, hstep]

/-- The walk of `pop_vlc` that meets no key, to the depth or to the end of the bits (R194). -/
theorem popVlcFrom_of_none {src : Src} (vlc : List VlcRow) (t : BitVec 8) (depth : Nat) : ∀ {b : Bsu} (key : Nat), BsuOk src b →
    (∀ e, 0 < e → e ≤ depth → e ≤ bitsLeft src b → tableLookup vlc t (key * 2 ^ e + streamValue src b e) = none) →
    popVlcFrom src vlc t depth key b =
      if depth ≤ bitsLeft src b then .fault .malformedVlc t.toNat (cursorAfter src b depth) else endOfBits (Nat × Word) src b := by
  induction depth with
  | zero => intro b key hok _; simp [popVlcFrom, microFault, cursorAfter_zero src hok.1]
  | succ depth ih =>
    intro b key hok hnone
    rcases Nat.eq_zero_or_pos (bitsLeft src b) with h | hpos
    · have hp : popBit src b = endOfBits Bool src b := popBit_endOfBits hok h
      rw [popVlcFrom, microBind_of_fault hp, h, if_neg (by omega), endOfBits, h]
    · have hn := bitsLeft_next hok hpos
      have hone : streamValue src b 1 = (streamBit src b 0).toNat := by simp [streamValue]
      have hk : 2 * key + (streamBit src b 0).toNat = key * 2 ^ 1 + streamValue src b 1 := by rw [hone]; ring
      have hstep : ∀ e, (2 * key + (streamBit src b 0).toNat) * 2 ^ e + streamValue src (cursorAfter src b 1) e
          = key * 2 ^ (e + 1) + streamValue src b (e + 1) := fun e => by
        rw [streamValue_next hok hpos, Nat.pow_succ]; ring
      rw [popVlcFrom, microBind_of_ok (popBit_of_pos hok hpos), hk, hnone 1 (by omega) (by omega) (by omega), ← hk]
      simp only
      rw [ih _ hok.next (fun e he hle hleft => by rw [hstep]; exact hnone (e + 1) (by omega) (by omega) (by omega)),
        cursorAfter_next hok hpos, endOfBits_next hok hpos]
      by_cases hle : depth + 1 ≤ bitsLeft src b
      · rw [if_pos (by omega), if_pos hle]
      · rw [if_neg (by omega), if_neg hle]

/-- `pop_vlc` that meets a symbol, with the key it met. -/
theorem popVlc_ok_iff {src : Src} {vlc : List VlcRow} {t : BitVec 8} {b b' : Bsu} {sym : Word} :
    popVlc src vlc t b = .ok sym b' ↔ ∃ key, popVlcKey src vlc t b = .ok (key, sym) b' := by
  unfold popVlc microBind
  cases h : popVlcKey src vlc t b with
  | ok e b1 =>
    simp only [microPure, MicroResult.ok.injEq]
    exact ⟨fun ⟨h1, h2⟩ => ⟨e.1, by rw [← h1], h2⟩, fun ⟨key, h1, h2⟩ => ⟨by rw [h1], h2⟩⟩
  | fault f i b1 => simp

/-- `pop_vlc` that faults, faults as its walk does. -/
theorem popVlc_fault_iff {src : Src} {vlc : List VlcRow} {t : BitVec 8} {b b' : Bsu} {f : FaultKind} {i : Int} :
    popVlc src vlc t b = .fault f i b' ↔ popVlcKey src vlc t b = .fault f i b' := by
  unfold popVlc microBind
  cases popVlcKey src vlc t b <;> simp [microPure]

/-- What a walk gives is in the table under the key it gives (R194). -/
theorem tableLookup_of_popVlcFrom {src : Src} {vlc : List VlcRow} {t : BitVec 8} {depth : Nat} : ∀ {key : Nat} {b b' : Bsu} {e : Nat × Word},
    popVlcFrom src vlc t depth key b = .ok e b' → tableLookup vlc t e.1 = some e.2 := by
  induction depth with
  | zero => intro key b b' e h; simp [popVlcFrom, microFault] at h
  | succ depth ih =>
    intro key b b' e h
    obtain ⟨bit, b1, -, h⟩ := microBind_ok h
    cases hs : tableLookup vlc t (2 * key + bit.toNat) with
    | none =>
      rw [hs] at h
      exact ih h
    | some sym =>
      rw [hs] at h
      injection h with h
      subst h
      exact hs

/-- A symbol of the coefficient tables has bits 31:19 zero (R193). -/
theorem tableLookup_lt {vlc : List VlcRow} {t : BitVec 8} {key : Nat} {sym : Word} (ht : t.toNat < 2)
    (h : tableLookup vlc t key = some sym) : sym.toNat < 2 ^ 19 := by
  unfold tableLookup at h
  split at h
  · cases h
  · obtain ⟨r, -, rfl⟩ := Option.map_eq_some_iff.mp h
    simp only [tableSymbol, ht, if_true, BitVec.toNat_and, BitVec.toNat_ofNat]
    exact lt_of_le_of_lt Nat.and_le_right (by decide)

/-- `pop_exp_golomb()` on a prefix of `z` zeros and a 1, `z` below 32 (R171): its value with the suffix there, else the bits run out. -/
theorem popUe_of_prefix {src : Src} {b : Bsu} (hok : BsuOk src b) {z : Nat} (h1 : z < bitsLeft src b)
    (h2 : ∀ k < z, streamBit src b k = false) (h3 : streamBit src b z = true) (hz : z < 32) :
    popUe src b =
      if 2 * z + 1 ≤ bitsLeft src b then
        .ok (streamValue src b (2 * z + 1) % 2 ^ z + 2 ^ z - 1) (cursorAfter src b (2 * z + 1))
      else endOfBits Nat src b := by
  have hok2 : BsuOk src (cursorAfter src b (z + 1)) := hok.after _
  have hl := bitsLeft_after (z + 1) hok (by omega)
  have hsum : ∀ k, cursorAfter src (cursorAfter src b (z + 1)) k = cursorAfter src b (z + 1 + k) :=
    fun k => cursorAfter_add (z + 1) k hok (by omega)
  unfold popUe
  rw [microBind_of_ok (popLength_of_prefix z hok h1 h2 h3), if_neg (by omega), Nat.add_sub_cancel]
  by_cases hle : 2 * z + 1 ≤ bitsLeft src b
  · rw [if_pos hle, microBind_of_ok (by rw [popInt_cases hok2, if_pos (by omega)]), microPure, hsum,
      show z + 1 + z = 2 * z + 1 by omega]
    have hv := streamValue_add hok (m := z + 1) (by omega) z
    rw [show z + 1 + z = 2 * z + 1 by omega] at hv
    rw [hv, Nat.mul_comm (streamValue src b (z + 1)), Nat.mul_add_mod, Nat.mod_eq_of_lt (streamValue_lt _ _ _)]
  · rw [if_neg hle, microBind_of_fault (by rw [popInt_cases hok2, if_neg (by omega), endOfBits]), hl, hsum, endOfBits,
      show z + 1 + (bitsLeft src b - (z + 1)) = bitsLeft src b by omega]

/-- `pop_exp_golomb()` on a prefix of 32 zeros or more is out of range (R171). -/
theorem popUe_of_long {src : Src} {b : Bsu} (hok : BsuOk src b) {z : Nat} (h1 : z < bitsLeft src b)
    (h2 : ∀ k < z, streamBit src b k = false) (h3 : streamBit src b z = true) (hz : 32 ≤ z) :
    popUe src b = .fault .golombRange (z + 1 : Nat) (cursorAfter src b (z + 1)) := by
  unfold popUe
  rw [microBind_of_ok (popLength_of_prefix z hok h1 h2 h3), if_pos (by omega)]
  rfl

/-- `pop_exp_golomb()` when every bit left is 0 (R171). -/
theorem popUe_of_zeros {src : Src} {b : Bsu} (hok : BsuOk src b) (h : ∀ k < bitsLeft src b, streamBit src b k = false) :
    popUe src b = endOfBits Nat src b := by
  unfold popUe
  rw [microBind_of_fault (by rw [popLength_of_zeros _ hok rfl h, endOfBits]), endOfBits]

end Sys2Proof.Machine
end

