-- ==== Sys2Proof/Laws/Coef.lean ====
section
/-! SUPPORT. The run/level loop of `COEF` (R215) on a stream whose symbols are known. -/

namespace Sys2Proof.Machine

/-- The model's dequantisation is `wrap32(level * 2^shift)` (R220). -/
theorem dequant_eq (level : Int) (shift : BitVec 5) : dequant level shift = BitVec.ofInt 32 (level * 2 ^ shift.toNat) := by
  simp [dequant]

/-- Symbols that all fall inside the block are at most as many as the cells left. -/
theorem placeSymbols_length {qt : List QEntry} {n pos : Nat} {m m' : List Word} {cs : List CoefSym}
    (h : placeSymbols qt n pos m cs = some m') : cs = [] ∨ pos + cs.length ≤ n * n := by
  induction cs generalizing pos m with
  | nil => exact .inl rfl
  | cons c cs ih =>
    right
    unfold placeSymbols at h
    split at h
    · cases h
    · next hle =>
      rcases ih h with rfl | hl
      · simp; omega
      · simp only [List.length_cons]; omega

/-- Placing some symbols and then more. -/
theorem placeSymbols_append {qt : List QEntry} {n pos : Nat} {m m' : List Word} {cs ds : List CoefSym}
    (h : placeSymbols qt n pos m cs = some m') :
    placeSymbols qt n pos m (cs ++ ds) = placeSymbols qt n (pos + scanAfter cs) m' ds := by
  induction cs generalizing pos m with
  | nil => simp only [placeSymbols, Option.some.injEq] at h; simp [h, scanAfter]
  | cons c cs ih =>
    unfold placeSymbols at h
    split at h
    · cases h
    · next hle =>
      rw [List.cons_append, placeSymbols, if_neg hle]
      simp only
      rw [ih h]
      congr 1
      simp only [scanAfter, List.map_cons, List.sum_cons]
      omega

/-- The loop after symbols none of which is the last: what is left of it runs from there. -/
theorem coefLoop_readsOn {symbol : Micro CoefSym} {qt : List QEntry} {n : Nat} {cs : List CoefSym} :
    ∀ {fuel pos count : Nat} {m m' : List Word} {b b' : Bsu}, readsOn symbol cs b b' → placeSymbols qt n pos m cs = some m' →
      coefLoop symbol qt n (fuel + cs.length) pos count m b =
        coefLoop symbol qt n fuel (pos + scanAfter cs) (count + cs.length) m' b' := by
  induction cs with
  | nil =>
    intro fuel pos count m m' b b' hr hp
    simp only [placeSymbols, Option.some.injEq] at hp
    simp only [readsOn] at hr
    subst hp hr
    simp [scanAfter]
  | cons c cs ih =>
    rintro fuel pos count m m' b b' ⟨b1, hsym, hlast, hrest⟩ hp
    unfold placeSymbols at hp
    split at hp
    · cases hp
    · next hle =>
      rw [List.length_cons, ← Nat.add_assoc, coefLoop, microBind_of_ok hsym, if_neg hle]
      simp only [hlast, Bool.false_eq_true, if_false, dequant_eq]
      rw [ih hrest hp]
      congr 1
      · simp only [scanAfter, List.map_cons, List.sum_cons]; omega
      · omega

/-- The loop on a whole block's symbols (R215): the matrix with them placed, their number, and the cursor after them. -/
theorem coefLoop_of_symbols {symbol : Micro CoefSym} {qt : List QEntry} {n : Nat} {first : List CoefSym} {final : CoefSym}
    {m m' : List Word} {b b1 b2 : Bsu} (hr : readsOn symbol first b b1) (hs : symbol b1 = .ok final b2) (hl : final.last = true)
    (hp : placeSymbols qt n 0 m (first ++ [final]) = some m') :
    coefLoop symbol qt n (n * n + 1) 0 0 m b = .ok (m', first.length + 1) b2 := by
  have hlen : first.length + 1 ≤ n * n := by
    rcases placeSymbols_length hp with h | h
    · simp at h
    · simpa using h
  obtain ⟨m1, hm1⟩ : ∃ m1, placeSymbols qt n 0 m first = some m1 := by
    clear hr hs hlen
    generalize 0 = pos at hp
    induction first generalizing pos m with
    | nil => exact ⟨m, rfl⟩
    | cons c cs ih =>
      rw [List.cons_append] at hp
      unfold placeSymbols at hp ⊢
      split at hp
      · cases hp
      · next hle => rw [if_neg hle]; exact ih _ hp
  rw [placeSymbols_append hm1] at hp
  obtain ⟨k, hk⟩ := Nat.exists_eq_add_of_le hlen
  rw [show n * n + 1 = (k + 2) + first.length by omega, coefLoop_readsOn hr hm1, coefLoop, microBind_of_ok hs]
  unfold placeSymbols at hp
  split at hp
  · cases hp
  · next hle =>
    rw [if_neg hle]
    simp only [hl, if_true, microPure, dequant_eq]
    simp only [placeSymbols, Option.some.injEq] at hp
    rw [hp, Nat.zero_add]

/-- The loop on a stream that goes wrong after some symbols (R215): at a symbol that faults, or at one beyond the block. -/
theorem coefLoop_after {symbol : Micro CoefSym} {qt : List QEntry} {n : Nat} {first : List CoefSym} {m m' : List Word} {b b1 : Bsu}
    (hr : readsOn symbol first b b1) (hp : placeSymbols qt n 0 m first = some m') :
    (∀ f i b2, symbol b1 = .fault f i b2 → coefLoop symbol qt n (n * n + 1) 0 0 m b = .fault f i b2) ∧
    (∀ c b2, symbol b1 = .ok c b2 → n * n ≤ scanAfter first + c.run →
      coefLoop symbol qt n (n * n + 1) 0 0 m b = .fault .coefOverrun (scanAfter first + c.run : Nat) b2) := by
  have hlen : first.length ≤ n * n := by
    rcases placeSymbols_length hp with rfl | h
    · simp
    · omega
  obtain ⟨k, hk⟩ := Nat.exists_eq_add_of_le hlen
  rw [show n * n + 1 = (k + 1) + first.length by omega, coefLoop_readsOn hr hp]
  simp only [coefLoop, Nat.zero_add]
  refine ⟨fun f i b2 hs => microBind_of_fault hs, fun c b2 hs hle => ?_⟩
  rw [microBind_of_ok hs, if_pos hle]
  rfl

/-! What a coefficient symbol word says (R193). -/

theorem symLevel_eq (sym : Word) : symLevel sym = sym.toNat % 2 ^ 12 := by simp [symLevel, BitVec.extractLsb'_toNat]

theorem symRun_eq (sym : Word) : symRun sym = sym.toNat / 2 ^ 12 % 2 ^ 6 := by
  simp [symRun, BitVec.extractLsb'_toNat, Nat.shiftRight_eq_div_pow]

theorem symLast_eq {sym : Word} (h : sym.toNat < 2 ^ 19) : symLast sym = decide (sym.toNat / 2 ^ 18 = 1) := by
  rw [symLast, BitVec.getLsbD, Nat.testBit_eq_decide_div_mod_eq, Nat.mod_eq_of_lt (by omega)]

/-- A plain symbol: its word's fields, and the sign its code gives (R216 b). -/
theorem coefSymbol_plain {k : CoefParams} {src : Src} {rom : Rom} {tab : BitVec 8} {key : Nat} {sym : Word} {b b1 b2 : Bsu}
    {negative : Bool} (h : popVlcKey src rom.vlc tab b = .ok (key, sym) b1) (hl : symLevel sym ≠ 0)
    (hs : popCode src (signCodeOf k rom tab key) b1 = .ok negative b2) :
    coefSymbol k src rom tab b =
      .ok ⟨symLast sym, symRun sym, if negative then -(symLevel sym : Int) else (symLevel sym : Int)⟩ b2 := by
  rw [coefSymbol, microBind_of_ok h]
  simp only [hl, ne_eq, not_false_eq_true, if_true]
  rw [microBind_of_ok hs, microPure]

/-- An escape: what its path gives (R216 c). -/
theorem coefSymbol_escape {k : CoefParams} {src : Src} {rom : Rom} {tab : BitVec 8} {key : Nat} {sym : Word} {b b1 b2 : Bsu}
    {path : EscapePath} (h : popVlcKey src rom.vlc tab b = .ok (key, sym) b1) (hl : symLevel sym = 0)
    (hs : popCode src (escapeCodeOf k rom tab key) b1 = .ok path b2) :
    coefSymbol k src rom tab b = escapeSymbol k src rom tab (symLast sym) path b2 := by
  rw [coefSymbol, microBind_of_ok h]
  simp only [hl, ne_eq, not_true_eq_false, if_false]
  rw [microBind_of_ok hs]

end Sys2Proof.Machine
end

