-- ==== Sys2Proof/Laws/Effects.lean ====
section
/-! SUPPORT. Everything a command can do, said once: `exec_cases` gives for each command the shape of the state it ends in, so that a
claim over all commands is a short case analysis. -/

namespace Sys2Proof.Machine

/-- A cursor inside its window stays so, and so does a window of 8 bits (R30, R31). -/
def Keeps (src : Src) (b b' : Bsu) : Prop :=
  (b.bitpos.toNat < windowWidth src.w16 → b'.bitpos.toNat < windowWidth src.w16) ∧
  (src.w16 = false → b.win.toNat < 256 → b'.win.toNat < 256)

/-- A micro-operation keeps the cursor inside its window and raises only the faults listed. -/
def Tame {α : Type} (src : Src) (fs : List FaultKind) (m : Micro α) : Prop :=
  ∀ b, match m b with
    | .ok _ b' => Keeps src b b'
    | .fault f _ _ => f ∈ fs

theorem Keeps.refl (src : Src) (b : Bsu) : Keeps src b b := ⟨id, fun _ => id⟩

theorem Keeps.trans {src : Src} {a b c : Bsu} (h : Keeps src a b) (g : Keeps src b c) : Keeps src a c :=
  ⟨fun x => g.1 (h.1 x), fun w x => g.2 w (h.2 w x)⟩

theorem Tame.pure {α : Type} (src : Src) (fs : List FaultKind) (a : α) : Tame src fs (microPure a) := fun b => Keeps.refl src b

theorem Tame.fault {α : Type} (src : Src) {fs : List FaultKind} {f : FaultKind} (hf : f ∈ fs) (info : Int) :
    Tame src fs (microFault f info : Micro α) := fun _ => hf

theorem Tame.bind {α β : Type} {src : Src} {fs : List FaultKind} {m : Micro α} {k : α → Micro β} (hm : Tame src fs m)
    (hk : ∀ a, Tame src fs (k a)) : Tame src fs (microBind m k) := by
  intro b
  have h := hm b
  unfold microBind
  cases hmb : m b with
  | fault f i b1 => rw [hmb] at h; exact h
  | ok a b1 =>
    rw [hmb] at h
    have h2 := hk a b1
    simp only
    cases hkb : k a b1 with
    | fault f i b2 => rw [hkb] at h2; exact h2
    | ok c b2 => rw [hkb] at h2; exact h.trans h2

theorem Tame.mono {α : Type} {src : Src} {fs gs : List FaultKind} {m : Micro α} (h : Tame src fs m) (hs : fs ⊆ gs) : Tame src gs m := by
  intro b
  have := h b
  cases hm : m b with
  | ok a b' => rw [hm] at this; exact this
  | fault f i b' => rw [hm] at this; exact hs this

theorem windowOf_small (src : Src) (bs : List Byte) (h : src.w16 = false) : (windowOf src bs).toNat < 256 := by
  simp only [windowOf, h, Bool.false_eq_true, if_false, BitVec.toNat_setWidth]
  have := (bs.getD 0 0#8).isLt
  omega

theorem tame_fetch (src : Src) (n : Nat) : Tame src [.truncatedStream] (fetch src n) := by
  intro b
  by_cases h : n ≠ 0 ∧ src.len < b.pos.toNat + n
  · rw [fetch, if_pos h]; exact List.mem_singleton.mpr rfl
  · rw [fetch, if_neg h]; exact ⟨id, fun _ => id⟩

theorem tame_popBit (src : Src) : Tame src [.truncatedStream] (popBit src) := by
  have htake : ∀ b : Bsu, Keeps src b { b with bitpos := BitVec.ofNat 4 ((b.bitpos.toNat + 1) % windowWidth src.w16) } := fun b =>
    ⟨fun h => by
      rcases windowWidth_cases src.w16 with hw | hw <;> rw [hw] <;> simp only [BitVec.toNat_ofNat] <;> omega, fun _ => id⟩
  have ht : Tame src [.truncatedStream] (takeBit src) := htake
  intro b
  by_cases hz : b.bitpos = 0#4
  · have hr : Tame src [.truncatedStream] (refill src) := by
      refine (tame_fetch src _).bind fun bs b => ?_
      exact ⟨id, fun h _ => windowOf_small src bs h⟩
    rw [show popBit src b = microBind (refill src) (fun _ => takeBit src) b by simp [popBit, hz]]
    exact hr.bind (fun _ => ht) b
  · rw [show popBit src b = takeBit src b by simp [popBit, hz]]
    exact ht b

theorem tame_popIntFrom (src : Src) (n : Nat) : ∀ v, Tame src [.truncatedStream] (popIntFrom src n v) := by
  induction n with
  | zero => exact fun v => Tame.pure src _ v
  | succ n ih => exact fun v => (tame_popBit src).bind fun bit => ih _

theorem tame_popInt (src : Src) (n : Nat) : Tame src [.truncatedStream] (popInt src n) := tame_popIntFrom src n 0

theorem tame_popSint (src : Src) (n : Nat) : Tame src [.truncatedStream] (popSint src n) :=
  (tame_popBit src).bind fun _ => (tame_popInt src _).bind fun _ => Tame.pure src _ _

theorem tame_popLengthFrom (src : Src) (fuel : Nat) : ∀ z, Tame src [.truncatedStream] (popLengthFrom src fuel z) := by
  induction fuel with
  | zero => exact fun z => (tame_popBit src).bind fun _ => Tame.pure src _ _
  | succ fuel ih =>
    refine fun z => (tame_popBit src).bind fun bit => ?_
    split
    · exact Tame.pure src _ _
    · exact ih _

theorem tame_popLength (src : Src) : Tame src [.truncatedStream] (popLength src) := fun b => tame_popLengthFrom src _ 0 b

theorem tame_popUe (src : Src) : Tame src [.truncatedStream, .golombRange] (popUe src) := by
  refine ((tame_popLength src).mono (by simp)).bind fun len => ?_
  split
  · exact Tame.fault src (by simp) _
  · exact ((tame_popInt src _).mono (by simp)).bind fun _ => Tame.pure src _ _

theorem tame_popSe (src : Src) : Tame src [.truncatedStream, .golombRange] (popSe src) :=
  (tame_popUe src).bind fun _ => Tame.pure src _ _

theorem tame_popVlcFrom (src : Src) (vlc : List VlcRow) (t : BitVec 8) (depth : Nat) :
    ∀ key, Tame src [.truncatedStream, .malformedVlc] (popVlcFrom src vlc t depth key) := by
  induction depth with
  | zero => exact fun key => Tame.fault src (by simp) _
  | succ depth ih =>
    refine fun key => ((tame_popBit src).mono (by simp)).bind fun bit => ?_
    split
    · exact Tame.pure src _ _
    · exact ih _

theorem tame_popVlc (src : Src) (vlc : List VlcRow) (t : BitVec 8) : Tame src [.truncatedStream, .malformedVlc] (popVlc src vlc t) :=
  (tame_popVlcFrom src vlc t _ 1).bind fun _ => Tame.pure src _ _

theorem tame_popCodeFrom {α : Type} (src : Src) (code : List Bool → CodeStep α) (fuel : Nat) :
    ∀ bits, Tame src [.truncatedStream, .malformedVlc] (popCodeFrom src code fuel bits) := by
  induction fuel with
  | zero =>
    intro bits
    unfold popCodeFrom
    split
    · exact Tame.pure src _ _
    · exact Tame.fault src (by simp) _
    · exact ((tame_popBit src).mono (by simp)).bind fun _ => Tame.fault src (by simp) _
  | succ fuel ih =>
    intro bits
    unfold popCodeFrom
    split
    · exact Tame.pure src _ _
    · exact Tame.fault src (by simp) _
    · exact ((tame_popBit src).mono (by simp)).bind fun _ => ih _

theorem tame_popCode {α : Type} (src : Src) (code : List Bool → CodeStep α) :
    Tame src [.truncatedStream, .malformedVlc] (popCode src code) := fun b => tame_popCodeFrom src code _ [] b

theorem tame_rawEscape (src : Src) (role : EscFRole) (announced : Bool) :
    Tame src [.truncatedStream, .malformedVlc] (rawEscape src role announced) :=
  ((tame_popBit src).mono (by simp)).bind fun _ =>
    ((tame_popInt src _).mono (by simp)).bind fun _ => ((tame_popSint src _).mono (by simp)).bind fun _ => Tame.pure src _ _

theorem tame_coefSymbol (k : CoefParams) (src : Src) (rom : Rom) (tab : BitVec 8) :
    Tame src [.truncatedStream, .malformedVlc] (coefSymbol k src rom tab) := by
  refine (tame_popVlcFrom src _ _ _ _).bind fun entry => ?_
  split
  · exact (tame_popCode src _).bind fun _ => Tame.pure src _ _
  · refine (tame_popCode src _).bind fun path => ?_
    cases path with
    | residueLevel last run base => exact Tame.pure src _ _
    | residueRun last level base => exact Tame.pure src _ _
    | raw => exact tame_rawEscape src k.role _

theorem tame_coefLoop {src : Src} {symbol : Micro CoefSym} (h : Tame src [.truncatedStream, .malformedVlc, .coefOverrun] symbol)
    (qt : List QEntry) (n fuel : Nat) :
    ∀ pos count m, Tame src [.truncatedStream, .malformedVlc, .coefOverrun] (coefLoop symbol qt n fuel pos count m) := by
  induction fuel with
  | zero => exact fun pos _ _ => Tame.fault src (by simp) _
  | succ fuel ih =>
    refine fun pos count m => h.bind fun c => ?_
    split
    · exact Tame.fault src (by simp) _
    · simp only
      split
      · exact Tame.pure src _ _
      · exact ih _ _ _

/-- The shape of the state a command ends in when it neither is refused nor faults. -/
@[reducible] def Done (i : Instr) (s t : State) : Prop :=
  match i with
  | .readU8 => ∃ p v, t = { s with pos := p, ret0 := v }
  | .readBytes _ => ∃ p bs, t = { s.appendOut bs with pos := p }
  | .resetBits => t = { s with bitpos := 0#4 }
  | .seek => t = { s with pos := s.a0, bitpos := 0#4 }
  | .popBit | .popInt _ | .popSint _ | .popLength | .popUe | .popSe | .popVlc _ =>
    ∃ b v, Keeps s.src s.bsu b ∧ t = { s.setBsu b with ret0 := v }
  | .setQuant q => t = { s.loadQuant q with qv := true }
  | .addQuant => s.qv = true ∧ ∃ q, t = { s.loadQuant q with qv := true }
  | .setDcttab _ => ∃ d, t = { s with dctTab := d }
  | .coef sel plane => s.framev = true ∧ plane.toNat < 3 ∧
      s.inside plane.toNat s.blockX s.blockY (coefSide sel) (coefSide sel) = true ∧
      ∃ b v f, Keeps s.src s.bsu b ∧
        t = { (s.setBsu b).writeBlock plane.toNat s.blockX s.blockY (coefSide sel) (coefSide sel) f with ret0 := v }
  | .ipred _ plane => s.framev = true ∧ plane.toNat < 3 ∧ s.inside plane.toNat s.blockX s.blockY s.blockW s.blockW = true ∧
      ∃ f, t = s.writeBlock plane.toNat s.blockX s.blockY s.blockW s.blockW f
  | .pmodeReset => s.framev = true ∧
      t = { s with pmc := List.replicate (Config.modeCacheSize s.width s.height) 9, pmcv := true }
  | .ipredP _ plane => s.framev = true ∧ s.pmcv = true ∧ plane.toNat < 3 ∧
      s.inside plane.toNat s.blockX s.blockY s.blockW s.blockW = true ∧
      ∃ b v f pmc, Keeps s.src s.bsu b ∧ pmc.length = s.pmc.length ∧
        t = { (s.setBsu b).writeBlock plane.toNat s.blockX s.blockY s.blockW s.blockW f with pmc := pmc, ret0 := v }
  | .mc _ plane => s.framev = true ∧ plane.toNat < 3 ∧ s.inside plane.toNat s.blockX s.blockY s.blockW s.blockH = true ∧
      ∃ f, t = s.writeBlock plane.toNat s.blockX s.blockY s.blockW s.blockH f
  | .rotate => s.framev = true ∧
      t = { s with cur := nextSlot s.cur, valid := (s.valid ||| slotBit s.cur.val) &&& ~~~(slotBit (nextSlot s.cur).val) }
  | .emitFrame => s.framev = true ∧ ∃ bs, t = s.appendOut bs
  | .mvpReset => s.framev = true ∧ t = { s with mvp := List.replicate (s.mbw + 1) zeroMv, alsave := zeroMv, mvpv := true }
  | .mvpRefresh => s.mvpv = true ∧ s.a0.toNat < s.mbw ∧
      ∃ al p v w, t = { s with alsave := al, mvp := s.mvp.set (s.a0.toNat + 1) p, ret0 := v, ret1 := w }
  | .mvpSet => s.mvpv = true ∧ s.a0.toNat < s.mbw ∧ ∃ p, t = { s with mvp := s.mvp.set (s.a0.toNat + 1) p }
  | .median3 => ∃ v, t = { s with ret0 := v }
  | .adec _ _ => ∃ bs v, t = { s.afterPayload.appendOut bs with ret0 := v }
  | .resetUnit => t = s.toReset

/-- What an accepted command can end in: its own shape, or one of the faults of R332, early or late (`ADEC` late, with its payload
already taken). -/
@[reducible] def Ends (i : Instr) (s t : State) : Prop :=
  Done i s t ∨ (∃ f ∈ faultsOf i, ∃ info, t = s.raise f info) ∨
    (∃ f ∈ faultsOf i, ∃ info p, t = { s with pos := p }.raiseLate f info)

theorem ends_raise {i : Instr} {s : State} {f : FaultKind} {info : Int} (h : f ∈ faultsOf i) : Ends i s (s.raise f info) :=
  .inr (.inl ⟨f, h, info, rfl⟩)

/-- A command that runs a micro-operation: its faults are those listed, its value and cursor go on. -/
theorem ends_runMicro {α : Type} {i : Instr} {s : State} {fs : List FaultKind} {m : Micro α} {k : α → State → State}
    (hm : Tame s.src fs m) (hfs : fs ⊆ faultsOf i) (hk : ∀ a b, Keeps s.src s.bsu b → Ends i s (k a (s.setBsu b))) :
    Ends i s (runMicro s m k) := by
  have h := hm s.bsu
  unfold runMicro
  cases hmb : m s.bsu with
  | ok a b => rw [hmb] at h; exact hk a b h
  | fault f info b =>
    rw [hmb] at h
    simp only
    split
    · exact ends_raise (hfs h)
    · exact .inr (.inr ⟨f, hfs h, info, s.pos, rfl⟩)

theorem imaHeader_faults {k : ImaParams} {payload : List Byte} {c : Nat} {f : FaultKind}
    (h : imaHeader k payload c = .error f) : f = .truncatedStream ∨ f = .badAudioData := by
  unfold imaHeader at h
  split at h
  · simp only at h
    split at h
    · injection h with h; exact .inr h.symm
    · cases h
  · injection h with h; exact .inl h.symm

theorem imaHeaders_faults {k : ImaParams} {payload : List Byte} {f : FaultKind} {cs : List Nat}
    (h : imaHeaders k payload cs = .error f) : f = .truncatedStream ∨ f = .badAudioData := by
  induction cs with
  | nil => cases h
  | cons c cs ih =>
    unfold imaHeaders at h
    split at h
    · next g hg => injection h with h; subst h; exact imaHeader_faults hg
    · split at h
      · next g hg => injection h with h; subst h; exact ih hg
      · cases h

theorem imaLoop_faults {k : ImaParams} {payload : List Byte} {chans fuel off : Nat} {hs : List ImaChan} {f : FaultKind}
    (h : imaLoop k payload chans fuel off hs = .error f) : f = .truncatedStream := by
  induction fuel generalizing off hs with
  | zero => cases h
  | succ fuel ih =>
    unfold imaLoop at h
    split at h
    · cases h
    · split at h
      · injection h with h; exact h.symm
      · simp only at h
        split at h
        · next g hg => injection h with h; subst h; exact ih hg
        · cases h

theorem dspBody_faults {k : DspParams} {coef : Nat → Int} {c : DspChan} {i : Nat} {bs : List Byte} {f : FaultKind}
    (h : dspBody k coef c i bs = .error f) : f = .badAudioData := by
  induction bs generalizing c i with
  | nil => simp [dspBody] at h
  | cons b bs ih =>
    unfold dspBody at h
    split at h
    · split at h
      · injection h with h; exact h.symm
      · exact ih h
    · simp only at h
      split at h
      · next g hg => injection h with h; subst h; exact ih hg
      · cases h

theorem dspChannel_faults {k : DspParams} {part : List Byte} {f : FaultKind} (h : dspChannel k part = .error f) :
    f = .truncatedStream ∨ f = .badAudioData := by
  unfold dspChannel at h
  split at h
  · injection h with h; exact .inl h.symm
  · split at h
    · next g hg => injection h with h; subst h; exact .inr (dspBody_faults hg)
    · cases h

theorem dspChannels_faults {k : DspParams} {parts : List (List Byte)} {f : FaultKind}
    (h : dspChannels k parts = .error f) : f = .truncatedStream ∨ f = .badAudioData := by
  induction parts with
  | nil => cases h
  | cons part parts ih =>
    unfold dspChannels at h
    split at h
    · next g hg => injection h with h; subst h; exact dspChannel_faults hg
    · split at h
      · next g hg => injection h with h; subst h; exact ih hg
      · cases h

theorem decoded_faults {x : Except FaultKind (List (List Int))} {f : FaultKind} (h : decoded x = .error f) : x = .error f := by
  cases x with
  | error g => exact congrArg _ (by injection h)
  | ok y => cases h

/-- The faults the audio decoders can raise (R301). -/
theorem decodeCodec_faults {ki : ImaParams} {kd : DspParams} {codec : BitVec 4} {payload : List Byte} {chans : Nat} {f : FaultKind}
    (h : decodeCodec ki kd codec payload chans = .error f) : f = .truncatedStream ∨ f = .badAudioData := by
  unfold decodeCodec at h
  split at h
  · cases h
  · split at h
    · have h := decoded_faults h
      unfold imaChannels at h
      split at h
      · next g hg => injection h with h; subst h; exact imaHeaders_faults hg
      · exact .inl (imaLoop_faults h)
    · unfold decodeDsp at h
      split at h
      · injection h with h; exact .inr h.symm
      · have h := decoded_faults h
        unfold Except.map at h
        split at h
        · next g hg => injection h with h; subst h; exact dspChannels_faults hg
        · cases h

/-- A command that takes bytes: it goes on with only `POS` moved, or faults at once (R141, R142). -/
theorem ends_fetch {i : Instr} {s : State} (n : Nat) {k : List Byte → State → State} (hfs : .truncatedStream ∈ faultsOf i)
    (hk : ∀ bs p, Ends i s (k bs { s with pos := p })) : Ends i s (runMicro s (fetch s.src n) k) := by
  unfold runMicro
  by_cases h : n ≠ 0 ∧ s.src.len < s.bsu.pos.toNat + n
  · rw [fetch, if_pos h]
    simp only [if_true]
    exact ends_raise hfs
  · rw [fetch, if_neg h]
    exact hk _ _

/-- A command that is refused or runs a body whose ends are known. -/
theorem perform_ends {i : Instr} (hi : i ≠ .resetUnit) {s t : State} {body : State → State} (h : perform s body = .next t)
    (hb : Ends i s (body s)) :
    (s.faulted = true ∧ i ≠ .resetUnit ∧ t = s) ∨ ((s.faulted = false ∨ i = .resetUnit) ∧ Ends i s t) := by
  rcases perform_cases h with ⟨hf, rfl⟩ | ⟨hf, rfl⟩
  · exact .inl ⟨hf, hi, rfl⟩
  · exact .inr ⟨.inl hf, hb⟩

theorem ends_pop {i : Instr} {s : State} {fs : List FaultKind} {m : Micro Nat} (hm : Tame s.src fs m) (hfs : fs ⊆ faultsOf i)
    (hd : ∀ b v, Keeps s.src s.bsu b → Done i s { s.setBsu b with ret0 := v }) : Ends i s (popToRet0 s m) :=
  ends_runMicro hm hfs fun _ b hb => .inl (hd b _ hb)

theorem ends_popSigned {i : Instr} {s : State} {fs : List FaultKind} {m : Micro Int} (hm : Tame s.src fs m) (hfs : fs ⊆ faultsOf i)
    (hd : ∀ b v, Keeps s.src s.bsu b → Done i s { s.setBsu b with ret0 := v }) : Ends i s (popToRet0Signed s m) :=
  ends_runMicro hm hfs fun _ b hb => .inl (hd b _ hb)

theorem plane_lt {plane : BitVec 2} : plane ≠ 3#2 → plane.toNat < 3 := by revert plane; decide

/-- Everything a command can do: refused while faulted, or, accepted, one of the ends above. -/
theorem exec_cases {i : Instr} {s t : State} (h : exec i s = .next t) :
    (s.faulted = true ∧ i ≠ .resetUnit ∧ t = s) ∨ ((s.faulted = false ∨ i = .resetUnit) ∧ Ends i s t) := by
  cases i with
  | readU8 =>
    change execReadU8 s = _ at h
    unfold execReadU8 at h
    exact perform_ends (by simp) h (ends_fetch 1 (by simp [faultsOf]) fun bs p => .inl ⟨p, _, rfl⟩)
  | readBytes cnt =>
    change execReadBytes cnt s = _ at h
    unfold execReadBytes at h
    exact perform_ends (by simp) h (ends_fetch _ (by simp [faultsOf]) fun bs p => .inl ⟨p, bs, rfl⟩)
  | resetBits =>
    change execResetBits s = _ at h
    unfold execResetBits at h
    exact perform_ends (by simp) h (.inl rfl)
  | seek =>
    change execSeek s = _ at h
    unfold execSeek at h
    exact perform_ends (by simp) h (.inl rfl)
  | popBit =>
    change execPopBit s = _ at h
    unfold execPopBit at h
    exact perform_ends (by simp) h (ends_pop ((tame_popBit _).bind fun _ => Tame.pure _ _ _) (by simp [faultsOf]) fun b v hb => ⟨b, v, hb, rfl⟩)
  | popInt n =>
    change execPopInt n s = _ at h
    unfold execPopInt at h
    refine perform_ends (by simp) h ?_
    split
    · exact ends_raise (by simp [faultsOf])
    · exact ends_pop (tame_popInt _ _) (by simp [faultsOf]) fun b v hb => ⟨b, v, hb, rfl⟩
  | popSint n =>
    change execPopSint n s = _ at h
    unfold execPopSint at h
    refine perform_ends (by simp) h ?_
    split
    · exact ends_raise (by simp [faultsOf])
    · exact ends_popSigned (tame_popSint _ _) (by simp [faultsOf]) fun b v hb => ⟨b, v, hb, rfl⟩
  | popLength =>
    change execPopLength s = _ at h
    unfold execPopLength at h
    exact perform_ends (by simp) h (ends_pop (tame_popLength _) (by simp [faultsOf]) fun b v hb => ⟨b, v, hb, rfl⟩)
  | popUe =>
    change execPopUe s = _ at h
    unfold execPopUe at h
    exact perform_ends (by simp) h (ends_pop (tame_popUe _) (by simp [faultsOf]) fun b v hb => ⟨b, v, hb, rfl⟩)
  | popSe =>
    change execPopSe s = _ at h
    unfold execPopSe at h
    exact perform_ends (by simp) h (ends_popSigned (tame_popSe _) (by simp [faultsOf]) fun b v hb => ⟨b, v, hb, rfl⟩)
  | popVlc t =>
    change execPopVlc t s = _ at h
    unfold execPopVlc at h
    exact perform_ends (by simp) h (ends_runMicro (tame_popVlc _ _ _) (by simp [faultsOf]) fun a b hb => .inl ⟨b, a, hb, rfl⟩)
  | setQuant q =>
    change execSetQuant q s = _ at h
    unfold execSetQuant at h
    exact perform_ends (by simp) h (.inl rfl)
  | addQuant =>
    change execAddQuant s = _ at h
    unfold execAddQuant at h
    refine perform_ends (by simp) h ?_
    split
    · exact ends_raise (by simp [faultsOf])
    · next hq =>
      split
      · exact ends_raise (by simp [faultsOf])
      · exact .inl ⟨by simpa using hq, _, rfl⟩
  | setDcttab n =>
    change execSetDcttab n s = _ at h
    unfold execSetDcttab at h
    refine perform_ends (by simp) h ?_
    split
    · exact ends_raise (by simp [faultsOf])
    · exact .inl ⟨_, rfl⟩
  | coef sel plane =>
    change execCoef sel plane s = _ at h
    unfold execCoef at h
    refine perform_ends (by simp) h ?_
    simp only [coefBody]
    split
    · exact ends_raise (by simp [faultsOf])
    · next h1 =>
      split
      · exact ends_raise (by simp [faultsOf])
      · next h2 =>
        split
        · exact ends_raise (by simp [faultsOf])
        · next h3 =>
          refine ends_runMicro (fs := [.truncatedStream, .malformedVlc, .coefOverrun])
            (tame_coefLoop ((tame_coefSymbol _ _ _ _).mono (by simp)) _ _ _ _ _ _) (by simp [faultsOf]) fun a b hb => .inl ?_
          simp only [not_or] at h1 h2
          exact ⟨by simpa using h1.1, plane_lt h2.2, by simpa using h3, b, _, _, hb, rfl⟩
  | ipred sel plane =>
    change execIpred sel plane s = _ at h
    unfold execIpred at h
    refine perform_ends (by simp) h ?_
    split
    · exact ends_raise (by simp [faultsOf])
    · next h1 =>
      split
      · exact ends_raise (by simp [faultsOf])
      · next h2 =>
        split
        · exact ends_raise (by simp [faultsOf])
        · next h3 =>
          simp only [not_or, State.intraOperandsBad, Bool.or_eq_true, beq_iff_eq] at h2
          exact .inl ⟨by simpa using h1, plane_lt h2.2.1.1, by simpa using h3, _, rfl⟩
  | pmodeReset =>
    change execPmodeReset s = _ at h
    unfold execPmodeReset at h
    refine perform_ends (by simp) h ?_
    split
    · exact ends_raise (by simp [faultsOf])
    · next h1 => exact .inl ⟨by simpa using h1, rfl⟩
  | ipredP sel plane =>
    change execIpredP sel plane s = _ at h
    unfold execIpredP at h
    refine perform_ends (by simp) h ?_
    split
    · exact ends_raise (by simp [faultsOf])
    · next h1 =>
      split
      · exact ends_raise (by simp [faultsOf])
      · next h2 =>
        split
        · exact ends_raise (by simp [faultsOf])
        · next h3 =>
          refine ends_runMicro (tame_popCode _ _) (by simp [faultsOf]) fun a b hb => .inl ?_
          simp only [not_or, State.intraOperandsBad, Bool.or_eq_true, beq_iff_eq] at h1 h2
          exact ⟨by simpa using h1.1, by simpa using h1.2, plane_lt h2.2.1.1, by simpa using h3, b, _, _, _, hb, by simp [updateCache], rfl⟩
  | mc sel plane =>
    change execMc sel plane s = _ at h
    unfold execMc at h
    refine perform_ends (by simp) h ?_
    simp only [mcBody]
    split
    · exact ends_raise (by simp [faultsOf])
    · next h1 =>
      split
      · exact ends_raise (by simp [faultsOf])
      · next h2 =>
        split
        · exact ends_raise (by simp [faultsOf])
        · split
          · exact ends_raise (by simp [faultsOf])
          · next h3 =>
            split
            · exact ends_raise (by simp [faultsOf])
            · simp only [not_or] at h2
              exact .inl ⟨by simpa using h1, plane_lt h2.2.2.1, by simpa using h3, _, rfl⟩
  | rotate =>
    change execRotate s = _ at h
    unfold execRotate at h
    refine perform_ends (by simp) h ?_
    split
    · exact ends_raise (by simp [faultsOf])
    · next h1 => exact .inl ⟨by simpa using h1, rfl⟩
  | emitFrame =>
    change execEmitFrame s = _ at h
    unfold execEmitFrame at h
    refine perform_ends (by simp) h ?_
    split
    · exact ends_raise (by simp [faultsOf])
    · next h1 =>
      split
      · exact ends_raise (by simp [faultsOf])
      · exact .inl ⟨by simpa using h1, _, rfl⟩
  | mvpReset =>
    change execMvpReset s = _ at h
    unfold execMvpReset at h
    refine perform_ends (by simp) h ?_
    split
    · exact ends_raise (by simp [faultsOf])
    · next h1 => exact .inl ⟨by simpa using h1, rfl⟩
  | mvpRefresh =>
    change execMvpRefresh s = _ at h
    unfold execMvpRefresh at h
    refine perform_ends (by simp) h ?_
    split
    · exact ends_raise (by simp [faultsOf])
    · next h1 =>
      split
      · exact ends_raise (by simp [faultsOf])
      · next h2 => exact .inl ⟨by simpa using h1, by omega, _, _, _, _, rfl⟩
  | mvpSet =>
    change execMvpSet s = _ at h
    unfold execMvpSet at h
    refine perform_ends (by simp) h ?_
    split
    · exact ends_raise (by simp [faultsOf])
    · next h1 =>
      split
      · exact ends_raise (by simp [faultsOf])
      · next h2 => exact .inl ⟨by simpa using h1, by omega, _, rfl⟩
  | median3 =>
    change execMedian3 s = _ at h
    unfold execMedian3 at h
    exact perform_ends (by simp) h (.inl ⟨_, rfl⟩)
  | adec codec chan =>
    change execAdec codec chan s = _ at h
    unfold execAdec at h
    refine perform_ends (by simp) h ?_
    simp only [adecBody]
    split
    · exact ends_raise (by simp [faultsOf])
    · split
      · exact ends_raise (by simp [faultsOf])
      · split
        · exact ends_raise (by simp [faultsOf])
        · unfold finishAudio
          cases hr : decodeCodec Config.ima Config.dsp codec s.payload chan.toNat with
          | ok r => exact .inl ⟨r.1, _, rfl⟩
          | error f =>
            have hf : f ∈ faultsOf (.adec codec chan) := by
              rcases decodeCodec_faults hr with rfl | rfl <;> simp [faultsOf]
            exact .inr (.inr ⟨f, hf, _, _, rfl⟩)
  | resetUnit =>
    refine .inr ⟨.inr rfl, .inl ?_⟩
    injection h with h
    exact h.symm

end Sys2Proof.Machine
end

