-- ==== Sys2Proof/Laws/PerInstr.lean ====
section
/-! SUPPORT. Per command: the word the encoder makes selects the command's own row of the opcode table, `(c & mask) == match`
(R111), with the masks and matches of opcode_table.json. -/

namespace Sys2Proof.Laws.EncodingRow

/-- The mask of a row of the opcode table: the bits of format Z, N or K, T, C and A that are fixed (R101). -/
def mask : Instr → Word
  | .readBytes _ => 0xFF000000#32
  | .popInt _ | .popSint _ | .setQuant _ | .setDcttab _ | .coef _ _ | .ipred _ _ | .ipredP _ _ | .mc _ _ => 0xFFFFFFC0#32
  | .popVlc _ => 0xFFFFFF00#32
  | .adec _ _ => 0xFFFFF000#32
  | .readU8 | .resetBits | .seek | .popBit | .popLength | .popUe | .popSe | .addQuant | .pmodeReset | .rotate | .emitFrame
  | .mvpReset | .mvpRefresh | .mvpSet | .median3 | .resetUnit => 0xFFFFFFFF#32

/-- The match of a row of the opcode table (R104). -/
def pattern : Instr → Word
  | .readU8 => 0x01000000#32
  | .readBytes _ => 0x02000000#32
  | .resetBits => 0x03000000#32
  | .seek => 0x04000000#32
  | .popBit => 0x10000000#32
  | .popInt _ => 0x11000000#32
  | .popSint _ => 0x12000000#32
  | .popLength => 0x13000000#32
  | .popUe => 0x14000000#32
  | .popSe => 0x15000000#32
  | .popVlc _ => 0x18000000#32
  | .setQuant _ => 0x20000000#32
  | .addQuant => 0x21000000#32
  | .setDcttab _ => 0x22000000#32
  | .coef _ _ => 0x23000000#32
  | .ipred _ _ => 0x30000000#32
  | .pmodeReset => 0x31000000#32
  | .ipredP _ _ => 0x32000000#32
  | .mc _ _ => 0x40000000#32
  | .rotate => 0x41000000#32
  | .emitFrame => 0x42000000#32
  | .mvpReset => 0x43000000#32
  | .mvpRefresh => 0x44000000#32
  | .mvpSet => 0x45000000#32
  | .median3 => 0x46000000#32
  | .adec _ _ => 0x50000000#32
  | .resetUnit => 0xF0000000#32

/-- The word of a command selects its row (R111). -/
def Statement (i : Instr) : Prop := encode i &&& mask i = pattern i

theorem readU8 : Statement .readU8 := rfl
theorem readBytes (cnt : BitVec 24) : Statement (.readBytes cnt) := by
  apply BitVec.eq_of_getLsbD_eq
  intro k hk
  simp only [mask, pattern, encode, commandWord, BitVec.getLsbD_and, BitVec.getLsbD_append]
  interval_cases k <;> simp
theorem resetBits : Statement .resetBits := rfl
theorem seek : Statement .seek := rfl
theorem popBit : Statement .popBit := rfl
theorem popInt (n : BitVec 6) : Statement (.popInt n) := by unfold Statement; revert n; decide
theorem popSint (n : BitVec 6) : Statement (.popSint n) := by unfold Statement; revert n; decide
theorem popLength : Statement .popLength := rfl
theorem popUe : Statement .popUe := rfl
theorem popSe : Statement .popSe := rfl
theorem popVlc (t : BitVec 8) : Statement (.popVlc t) := by
  apply BitVec.eq_of_getLsbD_eq
  intro k hk
  simp only [mask, pattern, encode, commandWord, immT, BitVec.getLsbD_and, BitVec.getLsbD_append]
  interval_cases k <;> simp
theorem setQuant (q : BitVec 6) : Statement (.setQuant q) := by unfold Statement; revert q; decide
theorem addQuant : Statement .addQuant := rfl
theorem setDcttab (n : BitVec 6) : Statement (.setDcttab n) := by unfold Statement; revert n; decide
theorem coef (sel : BitVec 4) (plane : BitVec 2) : Statement (.coef sel plane) := by unfold Statement; revert sel plane; decide
theorem ipred (sel : BitVec 4) (plane : BitVec 2) : Statement (.ipred sel plane) := by unfold Statement; revert sel plane; decide
theorem pmodeReset : Statement .pmodeReset := rfl
theorem ipredP (sel : BitVec 4) (plane : BitVec 2) : Statement (.ipredP sel plane) := by unfold Statement; revert sel plane; decide
theorem mc (sel : BitVec 4) (plane : BitVec 2) : Statement (.mc sel plane) := by unfold Statement; revert sel plane; decide
theorem rotate : Statement .rotate := rfl
theorem emitFrame : Statement .emitFrame := rfl
theorem mvpReset : Statement .mvpReset := rfl
theorem mvpRefresh : Statement .mvpRefresh := rfl
theorem mvpSet : Statement .mvpSet := rfl
theorem median3 : Statement .median3 := rfl
theorem adec (codec : BitVec 4) (chan : BitVec 8) : Statement (.adec codec chan) := by
  apply BitVec.eq_of_getLsbD_eq
  intro k hk
  simp only [mask, pattern, encode, commandWord, immA, BitVec.getLsbD_and, BitVec.getLsbD_append]
  interval_cases k <;> simp
theorem resetUnit : Statement .resetUnit := rfl

end Sys2Proof.Laws.EncodingRow
end

