-- ==== Sys2Proof/Tests/Slice0.lean ====
section
/-! SUPPORT. The model's own tests: ill-formed commands, words written out from the encodings, single steps with the results of
95_test_vectors.md, and for each statement a state and operands that meet its hypotheses. -/

namespace Sys2Proof.Tests

open Sys2Proof.Machine

/-! One proof at a time: each kernel evaluation would otherwise hold a thread of its own. -/
set_option Elab.async false

/-! Well-formedness: one ill-formed command per check (R104, R110). -/

theorem test_wf_popInt : Instr.wellFormed (.popInt 33#6) = false := by decide
theorem test_wf_popSint : Instr.wellFormed (.popSint 0#6) = false ∧ Instr.wellFormed (.popSint 33#6) = false := by decide
theorem test_wf_setDcttab : Instr.wellFormed (.setDcttab 2#6) = false := by decide
theorem test_wf_coef : Instr.wellFormed (.coef 2#4 0#2) = false ∧ Instr.wellFormed (.coef 0#4 3#2) = false := by decide
theorem test_wf_ipred : Instr.wellFormed (.ipred 9#4 0#2) = false ∧ Instr.wellFormed (.ipred 8#4 3#2) = false := by decide
theorem test_wf_ipredP : Instr.wellFormed (.ipredP 1#4 0#2) = false ∧ Instr.wellFormed (.ipredP 0#4 3#2) = false := by decide
theorem test_wf_mc : Instr.wellFormed (.mc 0#4 0#2) = false ∧ Instr.wellFormed (.mc 6#4 0#2) = false ∧
    Instr.wellFormed (.mc 1#4 3#2) = false := by decide
theorem test_wf_adec : Instr.wellFormed (.adec 3#4 1#8) = false ∧ Instr.wellFormed (.adec 0#4 0#8) = false := by decide
theorem test_wf_accepts : Instr.wellFormed (.popInt 32#6) = true ∧ Instr.wellFormed (.popSint 1#6) = true ∧
    Instr.wellFormed (.mc 5#4 2#2) = true ∧ Instr.wellFormed (.ipred 8#4 2#2) = true ∧ Instr.wellFormed (.adec 2#4 255#8) = true := by
  decide

/-! Decoding: each command's word, written out bit by bit from the formats of R101 and the opcodes of R104 (`op`, then `imm24`). -/

theorem test_dec_readU8 : decode 0b00000001_000000000000000000000000#32 = .ok .readU8 := by rfl
theorem test_dec_readBytes : decode 0b00000010_100000000000000000000011#32 = .ok (.readBytes 0x800003#24) := by rfl
theorem test_dec_resetBits : decode 0b00000011_000000000000000000000000#32 = .ok .resetBits := by rfl
theorem test_dec_seek : decode 0b00000100_000000000000000000000000#32 = .ok .seek := by rfl
theorem test_dec_popBit : decode 0b00010000_000000000000000000000000#32 = .ok .popBit := by rfl
theorem test_dec_popInt : decode 0b00010001_000000000000000000_001101#32 = .ok (.popInt 13#6) := by rfl
theorem test_dec_popSint : decode 0b00010010_000000000000000000_100000#32 = .ok (.popSint 32#6) := by rfl
theorem test_dec_popLength : decode 0b00010011_000000000000000000000000#32 = .ok .popLength := by rfl
theorem test_dec_popUe : decode 0b00010100_000000000000000000000000#32 = .ok .popUe := by rfl
theorem test_dec_popSe : decode 0b00010101_000000000000000000000000#32 = .ok .popSe := by rfl
theorem test_dec_popVlc : decode 0b00011000_0000000000000000_10000111#32 = .ok (.popVlc 0x87#8) := by rfl
theorem test_dec_setQuant : decode 0b00100000_000000000000000000_111111#32 = .ok (.setQuant 63#6) := by rfl
theorem test_dec_addQuant : decode 0b00100001_000000000000000000000000#32 = .ok .addQuant := by rfl
theorem test_dec_setDcttab : decode 0b00100010_000000000000000000_000001#32 = .ok (.setDcttab 1#6) := by rfl
theorem test_dec_coef : decode 0b00100011_000000000000000000_10_0001#32 = .ok (.coef 1#4 2#2) := by rfl
theorem test_dec_ipred : decode 0b00110000_000000000000000000_01_1000#32 = .ok (.ipred 8#4 1#2) := by rfl
theorem test_dec_pmodeReset : decode 0b00110001_000000000000000000000000#32 = .ok .pmodeReset := by rfl
theorem test_dec_ipredP : decode 0b00110010_000000000000000000_10_0000#32 = .ok (.ipredP 0#4 2#2) := by rfl
theorem test_dec_mc : decode 0b01000000_000000000000000000_01_0101#32 = .ok (.mc 5#4 1#2) := by rfl
theorem test_dec_rotate : decode 0b01000001_000000000000000000000000#32 = .ok .rotate := by rfl
theorem test_dec_emitFrame : decode 0b01000010_000000000000000000000000#32 = .ok .emitFrame := by rfl
theorem test_dec_mvpReset : decode 0b01000011_000000000000000000000000#32 = .ok .mvpReset := by rfl
theorem test_dec_mvpRefresh : decode 0b01000100_000000000000000000000000#32 = .ok .mvpRefresh := by rfl
theorem test_dec_mvpSet : decode 0b01000101_000000000000000000000000#32 = .ok .mvpSet := by rfl
theorem test_dec_median3 : decode 0b01000110_000000000000000000000000#32 = .ok .median3 := by rfl
theorem test_dec_adec : decode 0b01010000_000000000000_10000001_0010#32 = .ok (.adec 2#4 0x81#8) := by rfl
theorem test_dec_resetUnit : decode 0b11110000_000000000000000000000000#32 = .ok .resetUnit := by rfl

/-- Vectors F1 to F4 and F8: no such opcode, and must-be-zero bits set. -/
theorem test_dec_rejects : decode 0x00000000#32 = .error (.illegalCommand 0x00#8) ∧
    decode 0x99000001#32 = .error (.illegalCommand 0x99#8) ∧ decode 0x10000001#32 = .error .badOperand ∧
    decode 0x11000040#32 = .error .badOperand ∧ decode 0x18000100#32 = .error .badOperand ∧
    decode 0x50001000#32 = .error .badOperand ∧ decode 0xF0000001#32 = .error .badOperand := by
  refine ⟨rfl, rfl, rfl, rfl, rfl, rfl, rfl⟩

/-! Small states. -/

/-- The bytes of a list as the bytes of a source, from address 0. -/
def bytesAt (bs : List Nat) : Memory := bs.zipIdx.map fun p => (p.2, BitVec.ofNat 8 p.1)

/-- The machine after reset with a source bound (R381). -/
def bound (bs : List Nat) : State := { State.reset with source := bytesAt bs, len := BitVec.ofNat 28 bs.length }

/-- The machine after reset with a 16×16 geometry. -/
def framed : State := { State.reset with frame := 0x00100010#32, framev := true }

/-- The state a command ends in. -/
def after (i : Instr) (s : State) : State :=
  match exec i s with
  | .next t => t
  | .fault _ => s
  | .refused _ => s

/-- Tables of vectors V1 to V5: `TAB[7]`, `TAB[8]`, and the toy `TAB[0]` of 95 section 2.5 with its sign and escape codes. -/
def toyRom : Rom where
  vlc := [⟨7#8, 2#32, 10#32⟩, ⟨7#8, 6#32, 11#32⟩, ⟨7#8, 14#32, 12#32⟩, ⟨8#8, 2#32, 1#32⟩, ⟨8#8, 4#32, 2#32⟩,
    ⟨0#8, 2#32, 0x40001#32⟩, ⟨0#8, 6#32, 0x01014#32⟩, ⟨0#8, 7#32, 0#32⟩]
  signCodes := [2, 6].map fun key => ((0#8, key), .node (.leaf false) (.leaf true))
  escapeCodes := [((0#8, 7), .leaf .raw)]
  levelResidue := []
  runResidue := []
  modeCodes := []

/-- The toy transforms of 95 section 2.5; the codes are those of the toy tables. -/
def toyParams : CoefParams where
  it4 := id
  it8 := id
  resShift := 6#5
  role := .last
  signCode := fun _ _ _ _ => .malformed 0#8
  escapeCode := fun _ _ _ _ => .malformed 0#8
  levelResidue := fun _ _ _ => 0
  runResidue := fun _ _ _ => 0

/-- The toy table of 95 section 2.5 for quantizer 37: raster scan, shift 2. -/
def toyTable (n : Nat) : List QEntry := (List.range (n * n)).map fun i => ⟨i / n, i % n, 2#5⟩

/-- The start of vector Q8: 16-bit window, 16×16, quantizer set, the 4×4 block at the origin 128 throughout. -/
def coefStart (bs : List Nat) : State :=
  { bound bs with
    w16 := true, frame := 0x00100010#32, framev := true, qv := true, quantQ := 37#6, qt4 := toyTable 4, qt8 := toyTable 8
    rom := toyRom
    planes := (blockCells 4 4).map fun c => (planeAddr 0 0 c.1 c.2, 128#8) }

/-- The start of vectors M1 to M9: slot 0 completed and holding `16 * y + x`, slot 1 current, the 4×4 block at (4, 4). -/
def motionStart (mv : Word) : State :=
  { framed with
    cur := 1, valid := 1#6, a0 := 0x00040004#32, a1 := 0x00040004#32, a2 := mv
    planes := (blockCells 16 16).map fun c => (planeAddr 0 0 c.1 c.2, BitVec.ofNat 8 (16 * c.1 + c.2)) }

/-- The first row of the block of vectors M1 to M9, as written to slot 1. -/
def motionRow (s : State) : List Nat := (List.range 4).map fun i => (s.pixel 1 0 4 (4 + i)).toNat

/-- `MBW = 2` with the predictor array after row 0 of vector M13. -/
def predictorStart : State :=
  { State.reset with
    frame := 0x00100020#32, framev := true, mvpv := true
    mvp := [⟨0#16, 0#16⟩, ⟨4#16, 2#16⟩, ⟨8#16, 0xFFFA#16⟩] }

/-- The default parameters of IMA-ADPCM (R307, R308, R309). -/
def imaDefault : ImaParams where
  headerChoice := fun _ _ => 0
  bodyChoice := fun _ _ _ _ => 0
  diff := fun n step =>
    let d := step / 8 + (if n / 4 % 2 = 1 then step else 0) + (if n / 2 % 2 = 1 then step / 2 else 0) +
      (if n % 2 = 1 then step / 4 else 0)
    if n / 8 % 2 = 1 then -(d : Int) else d
  index := fun n => [-1, -1, -1, -1, 2, 4, 6, 8].getD n 0
  bigEndian := false
  nibbleLowFirst := true

/-- The default parameters of DSP-ADPCM (R313, R314). -/
def dspDefault : DspParams where
  layoutChoice := fun _ _ _ => 0
  partSize := fun chans len _ => len / chans
  missing := fun _ _ _ => 0
  bigEndian := false
  nibbleHighFirst := true

/-! Single steps, with the results of 95_test_vectors.md. -/

/-- B1. -/
theorem test_readU8 : (after .readU8 (bound [0x4C, 0x32])).ret0 = 0x4C#32 ∧ (after .readU8 (bound [0x4C, 0x32])).pos = 1#32 :=
  by decide +kernel
theorem test_readU8_truncated : (after .readU8 { bound [0x4C, 0x32] with pos := 2#32 }).fault = 0x00000205#32 := by decide +kernel
/-- B2. -/
theorem test_readBytes : (after (.readBytes 2#24) { bound [0x10, 0x20, 0x30, 0x40] with pos := 1#32 }).out = [0x20#8, 0x30#8] :=
  by decide +kernel
theorem test_readBytes_truncated :
    (after (.readBytes 2#24) { bound [0x10, 0x20, 0x30, 0x40] with pos := 3#32 }).fault = 0x00000305#32 := by decide +kernel
/-- B5. -/
theorem test_resetBits : (after .resetBits { bound [0xA5, 0x3C] with pos := 1#32, bitpos := 3#4 }).bitpos = 0#4 :=
  by decide +kernel
/-- B6. -/
theorem test_seek : (after .seek { bound [1, 2, 3, 4] with a0 := 9#32 }).pos = 9#32 := by decide +kernel
/-- Window modes, 95 section 2.2: the first bit popped in W8 and in W16LE. -/
theorem test_popBit : (after .popBit (bound [0xA5, 0x3C])).ret0 = 1#32 ∧
    (after .popBit { bound [0xA5, 0x3C] with w16 := true, le := true }).ret0 = 0#32 := by decide +kernel
theorem test_popBit_window : (after .popBit { bound [0xA5, 0x3C] with w16 := true, le := true }).win = 0x3CA5#16 :=
  by decide +kernel
/-- I2. -/
theorem test_popInt : (after (.popInt 13#6) (bound [0xA5, 0x3C, 0xFF])).ret0 = 5287#32 := by decide +kernel
/-- I4. -/
theorem test_popInt_le :
    (after (.popInt 13#6) { bound [0xA5, 0x3C, 0xFF, 0x00] with w16 := true, le := true }).ret0 = 1940#32 := by decide +kernel
/-- `POP_SINT 12` on `80 00` and `80 10`. -/
theorem test_popSint : (after (.popSint 12#6) (bound [0x80, 0x00])).ret0 = 0xFFFFF800#32 := by decide +kernel
theorem test_popSint_negative : (after (.popSint 12#6) (bound [0x80, 0x10])).ret0 = 0xFFFFF801#32 := by decide +kernel
/-- `POP_LENGTH` on `00 01` and `00 00`. -/
theorem test_popLength : (after .popLength (bound [0x00, 0x01])).ret0 = 16#32 := by decide +kernel
theorem test_popLength_truncated : (after .popLength (bound [0x00, 0x00])).fault = 0x00000205#32 := by decide +kernel
/-- 95 section 2.3, `k = 254` and the range fault. -/
theorem test_popUe : (after .popUe (bound [0x01, 0xFE])).ret0 = 254#32 := by decide +kernel
theorem test_popUe_range : (after .popUe (bound [0, 0, 0, 0, 0x80])).fault = 0x00002117#32 := by decide +kernel
/-- 95 section 2.3, `k = 6` and `k = 15`. -/
theorem test_popSe : (after .popSe (bound [0x38])).ret0 = 0xFFFFFFFD#32 := by decide +kernel
theorem test_popSe_positive : (after .popSe (bound [0x08, 0x00])).ret0 = 8#32 := by decide +kernel
/-- V1, and R193: a symbol of table 1 has bits 31:19 zero. -/
theorem test_popVlc : (after (.popVlc 7#8) { bound [0xB7] with rom := toyRom }).ret0 = 11#32 ∧
    (after (.popVlc 1#8) { bound [0x00] with rom := { toyRom with vlc := [⟨1#8, 2#32, 0xFFFC1005#32⟩] } }).ret0 = 0x00041005#32 :=
  by decide +kernel
theorem test_popVlc_malformed :
    (after (.popVlc 7#8) { bound [0xE0] with rom := toyRom }).fault = 0x00000706#32 := by decide +kernel
/-- Q1. -/
theorem test_setQuant : (after (.setQuant 20#6) State.reset).quantWord = 0x14#32 ∧ (after (.setQuant 20#6) State.reset).initWord = 1#32 :=
  by decide +kernel
/-- Q2, Q3. -/
theorem test_addQuant : (after .addQuant { State.reset with qv := true, quantQ := 20#6, a0 := 0xFFFFFFFD#32 }).quantQ = 17#6 :=
  by decide +kernel
theorem test_addQuant_range :
    (after .addQuant { State.reset with qv := true, quantQ := 2#6, a0 := 0xFFFFFFFD#32 }).fault = 0xFFFFFF12#32 :=
  by decide +kernel
/-- Q6. -/
theorem test_setDcttab : (after (.setDcttab 1#6) State.reset).quantWord = 0x100#32 := by decide +kernel
theorem test_setDcttab_range : (after (.setDcttab 2#6) State.reset).fault = 0x00000011#32 := by decide +kernel
/-- Q8: the first two rows after the toy block. -/
theorem test_coef :
    let t := coefBody toyParams 0#4 0#2 (coefStart [0x9C, 0x3F, 0x9C, 0x00])
    ((List.range 4).map fun x => (t.pixel 0 0 0 x).toNat) = [128, 129, 128, 128] ∧
    ((List.range 4).map fun x => (t.pixel 0 0 1 x).toNat) = [128, 121, 128, 128] ∧ t.ret0 = 2#32 := by decide +kernel
/-- Q9. -/
theorem test_coef_overrun : (coefBody toyParams 0#4 0#2 (coefStart [0x92, 0x49, 0x24, 0x80])).fault = 0x00001113#32 :=
  by decide +kernel
/-- P1, P5. -/
theorem test_ipred : (after (.ipred 3#4 0#2) { framed with a1 := 0x00040004#32 }).pixel 0 0 3 3 = 128#8 := by decide +kernel
theorem test_ipred_square : (after (.ipred 0#4 0#2) { framed with a1 := 0x00040008#32 }).fault = 0x00000011#32 :=
  by decide +kernel
/-- P7. -/
theorem test_pmodeReset : (after .pmodeReset State.reset).fault = 0x00000018#32 := by decide +kernel
/-- P6. -/
theorem test_ipredP : (after (.ipredP 0#4 0#2) framed).fault = 0x00000018#32 := by decide +kernel
/-- M1, M7. -/
theorem test_mc : motionRow (after (.mc 1#4 0#2) (motionStart 0#32)) = [68, 69, 70, 71] := by decide +kernel
theorem test_mc_bounds : (after (.mc 1#4 0#2) (motionStart 0x00000011#32)).fault = 0x00000015#32 := by decide +kernel
/-- M2 and M5, with the two values of `MC_ROUND`. -/
theorem test_mc_half : motionRow (mcBody 1 1#4 0#2 (motionStart 0xFFFE0003#32)) = [54, 55, 56, 57] ∧
    motionRow (mcBody 0 1#4 0#2 (motionStart 0x0000FFFF#32)) = [67, 68, 69, 70] := by decide +kernel
/-- M10. -/
theorem test_rotate : (after .rotate framed).ringWord = 0x0101#32 := by decide +kernel
theorem test_rotate_wraps : (after .rotate { framed with cur := 5, valid := 0x1F#6 }).ringWord = 0x3E00#32 := by decide +kernel
/-- M11. -/
theorem test_emitFrame : (after .emitFrame framed).fault = 0x00000114#32 := by decide +kernel
/-- P6's first row of the frame emitted: a completed slot's bytes come first, plane 0 first. -/
theorem test_emitFrame_first : ((motionStart 0#32).planeBytes 0 0).take 18 =
    (List.range 18).map (BitVec.ofNat 8) := by decide +kernel
/-- M13. -/
theorem test_mvpReset : (after .mvpReset { State.reset with frame := 0x00100020#32, framev := true }).mvp.length = 3 :=
  by decide +kernel
theorem test_mvpRefresh :
    let t := after .mvpRefresh { predictorStart with
      mvp := [⟨0#16, 0#16⟩, ⟨2#16, 2#16⟩, ⟨8#16, 0xFFFA#16⟩], alsave := ⟨4#16, 2#16⟩, a0 := 1#32 }
    t.ret0 = 4#32 ∧ t.ret1 = 2#32 := by decide +kernel
/-- M14. -/
theorem test_mvpRefresh_column : (after .mvpRefresh { predictorStart with a0 := 2#32 }).fault = 0x00000011#32 := by decide +kernel
/-- R284's example. -/
theorem test_mvpSet : (after .mvpSet { predictorStart with a0 := 1#32, a1 := 0xFFFA0008#32 }).mvp.getD 2 zeroMv = ⟨8#16, 0xFFFA#16⟩ :=
  by decide +kernel
/-- M15. -/
theorem test_median3 : (after .median3 { State.reset with a0 := 5#32, a1 := 5#32, a2 := 0xFFFFFFF9#32 }).ret0 = 5#32 :=
  by decide +kernel
theorem test_median3_extremes :
    (after .median3 { State.reset with a0 := 0x80000000#32, a1 := 0#32, a2 := 0x7FFFFFFF#32 }).ret0 = 0#32 := by decide +kernel
/-- 95 section 2.8, raw PCM; and R301: `POS` past `LEN` becomes `LEN`. -/
theorem test_adec_pcm :
    (after (.adec 0#4 2#8) (bound [0x34, 0x12, 0xFE, 0xFF])).out = [0x34#8, 0x12#8, 0xFE#8, 0xFF#8] ∧
    (after (.adec 0#4 2#8) (bound [0x34, 0x12, 0xFE])).ret0 = 0#32 ∧
    (after (.adec 0#4 2#8) { bound [0x34, 0x12] with pos := 9#32 }).pos = 2#32 ∧
    (after (.adec 1#4 1#8) { bound [0x34, 0x12] with pos := 9#32 }).fault = 0x00000205#32 := by decide +kernel
/-- 95 section 2.8, codec selection. -/
theorem test_adec_codec : (after (.adec 3#4 0#8) State.reset).fault = 0x00000302#32 ∧
    (after (.adec 4#4 1#8) State.reset).fault = 0x00000416#32 ∧ (after (.adec 0#4 0#8) State.reset).fault = 0x00000011#32 :=
  by decide +kernel
/-- A2: the first samples of a rising stream, and the predictor clamped at its end; the stereo payload of 95 section 2.8. -/
theorem test_ima : (imaRun imaDefault ⟨0, 0⟩ (List.replicate 12 7)).1 =
      [11, 41, 104, 240, 533, 1164, 2521, 5431, 11667, 25039, 32767, 32767] ∧
    (decodeIma imaDefault ([0x10#8, 0#8, 0#8, 0#8, 0xF0#8, 0xFF#8, 8#8, 0#8] ++ 0x17#8 :: List.replicate 127 0#8 ++
      0x9F#8 :: List.replicate 127 0#8) 2).toOption.map (fun r => (r.1.take 8, r.2)) =
      some ([0x1B#8, 0#8, 0xD2#8, 0xFF#8, 0x21#8, 0#8, 0xC6#8, 0xFF#8], 256) := by decide +kernel
/-- R305: with a cut header a truncated stream, whichever header is channel 0's; two headers in either order. -/
theorem test_ima_header_order :
    let swapped := { imaDefault with headerChoice := fun _ i => i }
    imaHeaderOrder swapped 2 = [1, 0] ∧
    decodeIma imaDefault [0xFF, 0xFF, 0, 0, 1, 2] 2 = .error .truncatedStream ∧
    decodeIma swapped [0xFF, 0xFF, 0, 0, 1, 2] 2 = .error .truncatedStream ∧
    decodeIma swapped [0, 0, 89, 0, 0, 0, 88, 0] 2 = .error .badAudioData := by decide +kernel
/-- D4: the low bytes of its ten samples; D9. -/
theorem test_dsp : (decodeDsp dspDefault ([0#8, 8#8] ++ List.replicate 32 0#8 ++ [100#8] ++ List.replicate 3 0#8 ++
      2#8 :: List.replicate 7 0#8 ++ 2#8 :: List.replicate 7 0#8 ++ [2#8, 0#8, 0#8, 0x1F#8, 0x80#8, 0x7F#8, 0#8, 0#8])
      1).toOption.map (fun r => r.1.map BitVec.toNat) =
      some [104, 0, 100, 0, 68, 0, 68, 0, 96, 0, 92, 0, 92, 0, 92, 0, 92, 0, 92, 0] ∧
    (decodeDsp dspDefault (List.replicate 77 0#8) 2).toOption = none := by decide +kernel
/-- The step table of R306 at the indices 95 section 2.8 prints. -/
theorem test_stepSize : [0, 11, 26, 86, 88].map stepSize = [7, 21, 89, 27085, 32773] := by decide +kernel
/-- F5, F7. -/
theorem test_resetUnit : (after .resetUnit { State.reset with fault := 0x706#32 }).statusWord = 6#32 := by decide +kernel
theorem test_refused : (after .popBit { bound [0xA5] with fault := 0x706#32 }).pos = 0#32 := by decide +kernel
/-- F10, F11, F12. -/
theorem test_host_writes : (hostSet 0x0C 0xFFFFFFFF#32 State.reset).cfgWord = 3#32 ∧
    (hostSet 0x14 0xFFFFFFFF#32 State.reset).regRead .word 0x14 = 0x0FFFFFFF#32 ∧
    (hostSet 0x44 0x00100011#32 State.reset).framev = false := by decide +kernel
/-- P3's raw escape: `f` 1, run 5, level -100. -/
theorem test_popEsc19 :
    let r := popEsc19 { bound [0x1E, 0x2F, 0xCE, 0x00] with w16 := true, pos := 2#32, bitpos := 6#4, win := 0x1E2F#16 }
    r.2.1 = 1#32 ∧ r.2.2.1 = 5#32 ∧ r.2.2.2 = -100 := by decide +kernel
/-- The same bits as an escape (R219, C2): `f` is `last`, or the level's sign beside the `last` of the announcing symbol. -/
theorem test_rawEscape :
    let s := { bound [0x1E, 0x2F, 0xCE, 0x00] with w16 := true, pos := 2#32, bitpos := 6#4, win := 0x1E2F#16 }
    let b : Bsu := ⟨4#32, 9#4, 0xCE00#16⟩
    escapeSymbol { coefParams with role := .last } s.src toyRom 0#8 false .raw s.bsu = .ok ⟨true, 5, -100⟩ b ∧
    escapeSymbol { coefParams with role := .sign } s.src toyRom 0#8 false .raw s.bsu = .ok ⟨false, 5, 100⟩ b := by decide +kernel
/-- P1: the fragment record's index and payload. -/
theorem test_fragment :
    let r := fragmentRecord (bound [0x6E, 0xAF, 0x37, 0xBC, 0x40, 0x06, 0xDE, 0xAD, 0xBE, 0xEF, 0x00])
    r.2.1 = 2#32 ∧ r.2.2 = true ∧ r.1.out = [0xDE#8, 0xAD#8, 0xBE#8, 0xEF#8] := by decide +kernel
/-- The host's next step runs the word put before it. -/
theorem test_withFetchWord : (match step (State.reset.withFetchWord 32 0x20000014) with
    | .next t => t.quantQ
    | .fault _ => 0#6
    | .refused _ => 0#6) = 20#6 := by decide +kernel

/-! For each statement that has hypotheses, a state and operands that meet them all, a case for each clause at a boundary. -/

/-- A machine that is faulted. -/
def faulty : State := { bound [0xA5] with fault := 0x00000706#32 }

/-- A 16×16 geometry with a block at a position and of a size, and the mode cache and quantizer set. -/
def blockAt (a0 a1 : Word) : State :=
  { framed with qv := true, qt4 := toyTable 4, qt8 := toyTable 8, pmcv := true, rom := toyRom, a0 := a0, a1 := a1 }

theorem witness_DecodeSelectsRow : (0xFFFFFFC0#32, 0x20000000#32) ∈ opcodeTable ∧
    0x2000003F#32 &&& 0xFFFFFFC0#32 = 0x20000000#32 ∧ (0xFFFFFFFF#32, 0x01000000#32) ∈ opcodeTable ∧
    0x01000000#32 &&& 0xFFFFFFFF#32 = 0x01000000#32 := by decide +kernel

theorem witness_DecodingOrder : faulty.faulted = true ∧ opField 0x01000000#32 ≠ 0xF0#8 ∧
    State.reset.faulted = false ∧ (∀ r ∈ opcodeMap, r.1 ≠ opField 0x99000001#32) ∧
    (0x10#8, 0xFFFFFF#24) ∈ opcodeMap ∧ 0x10#8 = opField 0x10000001#32 ∧ immField 0x10000001#32 &&& 0xFFFFFF#24 ≠ 0#24 ∧
    (0x11#8, 0xFFFFC0#24) ∈ opcodeMap ∧ 0x11#8 = opField 0x1100003F#32 ∧ immField 0x1100003F#32 &&& 0xFFFFC0#24 = 0#24 ∧
    32 < (33#6).toNat ∧ (0#6).toNat = 0 ∧ 1 < (2#6).toNat := by
  have h : opField 0x99000001#32 = 0x99#8 := rfl
  exact ⟨by decide +kernel, by decide +kernel, by decide +kernel, by rw [h]; simp [opcodeMap], by decide +kernel⟩

theorem witness_OnlyResetLeavesFault : faulty.faulted = true ∧ 0xF0000001#32 ≠ 0xF0000000#32 ∧
    (AccessWidth.byte ≠ .word ∨ (0 : Nat) ≠ 0) ∧ (AccessWidth.word ≠ .word ∨ (0x20 : Nat) ≠ 0) ∧
    (∃ t, hostMove (.write .word 0 0xF0000000#32) faulty = .next t ∧ t.faulted = false) ∧
    (∃ t, hostMove .hardReset faulty = .next t ∧ t.faulted = false) ∧
    (∃ t, hostMove (.read .word 8) faulty = .next t ∧ t.faulted = true) := by
  refine ⟨by decide +kernel, by decide, .inl (by decide), .inr (by decide), ?_⟩
  refine ⟨⟨_, rfl, ?_⟩, ⟨_, rfl, ?_⟩, ⟨_, rfl, ?_⟩⟩ <;> decide +kernel

theorem witness_FaultsPerCommand : State.reset.faulted = false ∧ (∃ t, exec .rotate State.reset = .next t ∧ t.fault ≠ 0#32) ∧
    ∃ t, exec .rotate framed = .next t ∧ t.fault = 0#32 := by
  refine ⟨by decide +kernel, ⟨_, rfl, by decide +kernel⟩, ⟨_, rfl, by decide +kernel⟩⟩

theorem witness_StepRunsDecodedCommand : decode 0x20000014#32 = .ok (.setQuant 20#6) ∧
    ({ State.reset with script := [.write .word 0 0x20000014#32] } : State).script = .write .word 0 0x20000014#32 :: [] := ⟨rfl, rfl⟩

theorem witness_ByteReads : (bound [7]).faulted = false ∧ (bound [7]).pos.toNat < (bound [7]).len.toNat ∧
    (bound []).faulted = false ∧ (bound []).len.toNat ≤ (bound []).pos.toNat ∧
    (bound [7, 8]).pos.toNat + (2#24).toNat ≤ (bound [7, 8]).len.toNat ∧
    (3#24 ≠ 0#24 ∧ (bound [7, 8]).len.toNat < (bound [7, 8]).pos.toNat + (3#24).toNat) := by decide +kernel

theorem witness_RealignAndSeek : (bound [7]).faulted = false := by decide +kernel

/-- A window with its last bit left, an exhausted one with the source's last window to come, and one with nothing to come. -/
theorem witness_PopBitResult :
    (let s := { bound [0xA5] with bitpos := 7#4, pos := 1#32 }
     s.faulted = false ∧ s.bitpos.toNat < windowWidth s.w16 ∧ s.bitpos ≠ 0#4) ∧
    (let s := { bound [0xA5, 0x3C] with w16 := true, le := true }
     s.faulted = false ∧ s.bitpos.toNat < windowWidth s.w16 ∧ s.bitpos = 0#4 ∧
        s.pos.toNat + windowWidth s.w16 / 8 ≤ s.len.toNat) ∧
    (let s := { bound [0xA5] with w16 := true }
     s.faulted = false ∧ s.bitpos.toNat < windowWidth s.w16 ∧ s.bitpos = 0#4 ∧
        s.len.toNat < s.pos.toNat + windowWidth s.w16 / 8) := by decide +kernel

theorem witness_PopIntResult :
    let s := bound [0xA5, 0x3C, 0xFF, 0x01]
    s.faulted = false ∧ s.bitpos.toNat < windowWidth s.w16 ∧ ((32#6).toNat ≤ 32 ∧ (32#6).toNat ≤ s.unread) ∧
      ((0#6).toNat ≤ 32 ∧ (0#6).toNat ≤ s.unread) ∧ 32 < (33#6).toNat ∧
      ((bound [0xA5]).unread < (9#6).toNat ∧ (9#6).toNat ≤ 32) := by decide +kernel

theorem witness_ConcatenationLaw :
    let s := bound [0xA5, 0x3C]
    s.faulted = false ∧ s.bitpos.toNat < windowWidth s.w16 ∧ 16 ≤ s.unread := by decide +kernel

theorem witness_PopSintResult :
    let s := bound [0x80, 0x10]
    s.faulted = false ∧ s.bitpos.toNat < windowWidth s.w16 ∧
      (1 ≤ (16#6).toNat ∧ (16#6).toNat ≤ 32 ∧ (16#6).toNat ≤ s.unread) ∧
      (1 ≤ (1#6).toNat ∧ (1#6).toNat ≤ 32 ∧ (1#6).toNat ≤ s.unread) ∧ ((0#6).toNat = 0 ∧ 32 < (33#6).toNat) ∧
      (1 ≤ (17#6).toNat ∧ (17#6).toNat ≤ 32 ∧ s.unread < (17#6).toNat) := by decide +kernel

theorem witness_PopLengthResult :
    (bound [0x00, 0x01]).faulted = false ∧ (bound [0x00, 0x01]).bitpos.toNat < windowWidth (bound [0x00, 0x01]).w16 ∧
      (bound [0x00, 0x01]).unary 15 ∧ (bound [0x80]).unary 0 ∧ (bound [0x00, 0x00]).onlyZeros ∧ (bound []).onlyZeros := by
  unfold State.unary State.onlyZeros; decide +kernel

/-- The longest prefix allowed, the shortest too long, a suffix cut short, and no prefix at all. -/
theorem witness_PopUeResult :
    (let s := bound [0, 0, 0, 1, 0xFF, 0xFF, 0xFF, 0xFE]
     s.faulted = false ∧ s.bitpos.toNat < windowWidth s.w16 ∧ s.unary 31 ∧ 31 < 32 ∧ 2 * 31 + 1 ≤ s.unread) ∧
    ((bound [0, 0, 0, 0, 0x80]).unary 32 ∧ (bound [0x80]).unary 0 ∧ 2 * 0 + 1 ≤ (bound [0x80]).unread) ∧
    ((bound [0x01]).unary 7 ∧ (bound [0x01]).unread < 2 * 7 + 1) ∧ (bound [0x00]).onlyZeros := by
  unfold State.unary State.onlyZeros; decide +kernel

/-- `x = 254` and the largest `x`. -/
theorem witness_PopUeUndoesEncoder :
    (let s := bound [0x01, 0xFE]
     s.faulted = false ∧ s.bitpos.toNat < windowWidth s.w16 ∧ 254 ≤ 2 ^ 32 - 2 ∧ 1 ≤ 8 ∧ 2 ^ (8 - 1) ≤ 254 + 1 ∧ 254 + 1 < 2 ^ 8 ∧
        2 * 8 - 1 ≤ s.unread ∧ s.nextBits (2 * 8 - 1) = 254 + 1) ∧
    (let s := bound [0, 0, 0, 1, 0xFF, 0xFF, 0xFF, 0xFE]
     2 ^ (32 - 1) ≤ (2 ^ 32 - 2) + 1 ∧ (2 ^ 32 - 2) + 1 < 2 ^ 32 ∧ 2 * 32 - 1 ≤ s.unread ∧
        s.nextBits (2 * 32 - 1) = (2 ^ 32 - 2) + 1) := by decide +kernel

theorem witness_PopSeResult :
    (let s := bound [0, 0, 0, 1, 0xFF, 0xFF, 0xFF, 0xFE]
     s.faulted = false ∧ s.bitpos.toNat < windowWidth s.w16 ∧ s.unary 31 ∧ 31 < 32 ∧ 2 * 31 + 1 ≤ s.unread) ∧
    (bound [0, 0, 0, 0, 0x80]).unary 32 ∧ ((bound [0x01]).unary 7 ∧ (bound [0x01]).unread < 2 * 7 + 1) ∧
    (bound [0x00]).onlyZeros := by
  unfold State.unary State.onlyZeros; decide +kernel

/-- `v = -3`, and the two ends of the range, whose codes are 2^32 - 2 and 2^32 - 3. -/
theorem witness_PopSeUndoesEncoder :
    (let s := bound [0x38]
     s.faulted = false ∧ s.bitpos.toNat < windowWidth s.w16 ∧ 2 ^ (3 - 1) ≤ zigzagCode (-3) + 1 ∧ zigzagCode (-3) + 1 < 2 ^ 3 ∧
        2 * 3 - 1 ≤ s.unread ∧ s.nextBits (2 * 3 - 1) = zigzagCode (-3) + 1) ∧
    (let s := bound [0, 0, 0, 1, 0xFF, 0xFF, 0xFF, 0xFE]
     2 ^ (32 - 1) ≤ zigzagCode (-(2 ^ 31 - 1)) + 1 ∧ zigzagCode (-(2 ^ 31 - 1)) + 1 < 2 ^ 32 ∧ 2 * 32 - 1 ≤ s.unread ∧
        s.nextBits (2 * 32 - 1) = zigzagCode (-(2 ^ 31 - 1)) + 1) ∧
    (let s := bound [0, 0, 0, 1, 0xFF, 0xFF, 0xFF, 0xFC]
     2 ^ (32 - 1) ≤ zigzagCode (2 ^ 31 - 1) + 1 ∧ zigzagCode (2 ^ 31 - 1) + 1 < 2 ^ 32 ∧
        s.nextBits (2 * 32 - 1) = zigzagCode (2 ^ 31 - 1) + 1) := by decide +kernel

/-- A code of table 7, its malformed walk, a table without codes, and bits that run out first. -/
theorem witness_PopVlcResult :
    (let s := { bound [0xB7] with rom := toyRom }
     s.faulted = false ∧ s.bitpos.toNat < windowWidth s.w16 ∧ 2 ≤ tableDepth s.rom.vlc 7#8 ∧ 2 ≤ s.unread ∧
        tableLookup s.rom.vlc 7#8 (2 ^ 2 + s.nextBits 2) = some 11#32 ∧
        ∀ e < 2, 1 ≤ e → tableLookup s.rom.vlc 7#8 (2 ^ e + s.nextBits e) = none) ∧
    (let s := { bound [0xE0] with rom := toyRom }
     tableDepth s.rom.vlc 7#8 ≤ s.unread ∧
        ∀ e < tableDepth s.rom.vlc 7#8 + 1, 1 ≤ e → tableLookup s.rom.vlc 7#8 (2 ^ e + s.nextBits e) = none) ∧
    (let s := { bound [] with rom := toyRom }
     tableDepth s.rom.vlc 9#8 = 0 ∧ s.unread < tableDepth s.rom.vlc 7#8) := by decide +kernel

theorem witness_SetQuantAndDcttab : State.reset.faulted = false ∧ 1 < (2#6).toNat := by decide +kernel

theorem witness_AddQuantResult :
    (let s := { State.reset with qv := true, quantQ := 60#6, a0 := 3#32 }
     s.faulted = false ∧ s.qv = true ∧ ((63#6).toNat : Int) = s.quantQ.toNat + s.a0.toInt) ∧
    (let s := { State.reset with qv := true, quantQ := 60#6, a0 := 4#32 }
     63 < (s.quantQ.toNat : Int) + s.a0.toInt) ∧
    (let s := { State.reset with qv := true, quantQ := 2#6, a0 := 0xFFFFFFFD#32 }
     (s.quantQ.toNat : Int) + s.a0.toInt < 0) ∧ State.reset.qv = false := by decide +kernel

/-- The bits 10 0, a symbol of run 1 and level 20, and 0 1, the last symbol, of level -1. -/
def coefBits : State := coefStart [0x88, 0x00]

/-- The cursor of `coefBits` after its first symbol and after its last. -/
def coefCursor (n : Nat) : Bsu := ⟨2#32, BitVec.ofNat 4 n, 0x8800#16⟩

theorem coefBits_reads :
    coefSymbol coefParams coefBits.src toyRom 0#8 coefBits.bsu = .ok ⟨false, 1, 20⟩ (coefCursor 3) ∧
    coefSymbol coefParams coefBits.src toyRom 0#8 (coefCursor 3) = .ok ⟨true, 0, -1⟩ (coefCursor 5) := by decide +kernel

/-- A walk of an empty table 0; a plain symbol and its sign; an escape and its path. -/
theorem witness_CoefSymbolFields :
    (let s := { coefBits with rom := { toyRom with vlc := [] } }
     s.faulted = false ∧ s.framev = true ∧ s.qv = true ∧ s.dctTab = false ∧ s.fits 0 4 4 ∧ s.fits 2 8 8 ∧
        popVlc s.src s.rom.vlc 0#8 s.bsu = .fault .malformedVlc 0 s.bsu) ∧
    (popVlc coefBits.src toyRom.vlc 0#8 coefBits.bsu = .ok 0x01014#32 (coefCursor 2) ∧ (0x01014#32).toNat % 2 ^ 12 ≠ 0 ∧
      tableLookup toyRom.vlc 0#8 6 = some 0x01014#32 ∧
      popCode coefBits.src (signCodeOf coefParams toyRom 0#8 6) (coefCursor 2) = .ok false (coefCursor 3)) ∧
    (let s := coefStart [0xC0, 0x00]
     popVlc s.src toyRom.vlc 0#8 s.bsu = .ok 0#32 ⟨2#32, 2#4, 0xC000#16⟩ ∧ tableLookup toyRom.vlc 0#8 7 = some 0#32 ∧
        popCode s.src (escapeCodeOf coefParams toyRom 0#8 7) ⟨2#32, 2#4, 0xC000#16⟩ =
          .ok .raw ⟨2#32, 2#4, 0xC000#16⟩) := by
  unfold State.fits; decide +kernel

theorem witness_CoefResult :
    coefBits.faulted = false ∧ coefBits.framev = true ∧ coefBits.qv = true ∧ coefBits.dctTab = false ∧ (0#2) ≠ 3#2 ∧
    coefBits.qt4 = toyTable 4 ∧ coefBits.fits 0 4 4 ∧ coefBits.rom = toyRom ∧
    readsOn (coefSymbol coefParams coefBits.src toyRom 0#8) [⟨false, 1, 20⟩] coefBits.bsu (coefCursor 3) ∧
    coefSymbol coefParams coefBits.src toyRom 0#8 (coefCursor 3) = .ok ⟨true, 0, -1⟩ (coefCursor 5) ∧
    (∃ m, placeSymbols (toyTable 4) 4 0 (List.replicate 16 0#32) [⟨false, 1, 20⟩, ⟨true, 0, -1⟩] = some m) ∧
    coefBits.fits 0 8 8 ∧ coefBits.qt8 = toyTable 8 ∧
    ∃ m, placeSymbols (toyTable 8) 8 0 (List.replicate 64 0#32) [⟨false, 1, 20⟩, ⟨true, 0, -1⟩] = some m := by
  refine ⟨by decide +kernel, rfl, rfl, rfl, by decide, rfl, ?_, rfl, ⟨_, coefBits_reads.1, rfl, rfl⟩, coefBits_reads.2, ⟨_, rfl⟩,
    ?_, rfl, ⟨_, rfl⟩⟩ <;> (unfold State.fits; decide +kernel)

/-- Symbols read one after the other and compared with those of a list. -/
def runSymbols (symbol : Micro CoefSym) : List CoefSym → Bsu → Option Bsu
  | [], b => some b
  | c :: cs, b =>
    match symbol b with
    | .ok d b1 => if d = c ∧ c.last = false then runSymbols symbol cs b1 else none
    | .fault _ _ _ => none

theorem readsOn_of_runSymbols (symbol : Micro CoefSym) (cs : List CoefSym) (b b' : Bsu) (h : runSymbols symbol cs b = some b') :
    readsOn symbol cs b b' := by
  induction cs generalizing b with
  | nil => exact (Option.some.inj h).symm
  | cons c cs ih =>
    rw [runSymbols] at h
    split at h
    · rename_i d b1 hd
      split at h
      · rename_i hc
        exact ⟨b1, hc.1 ▸ hd, hc.2, ih _ h⟩
      · cases h
    · cases h

/-- A symbol cut short, and the ninth of nine symbols of run 1 in a 4×4 block. -/
theorem witness_CoefStreamFaults :
    coefBits.faulted = false ∧ coefBits.fits 0 4 4 ∧
    readsOn (coefSymbol coefParams coefBits.src toyRom 0#8) [] coefBits.bsu coefBits.bsu ∧
    (∃ m, placeSymbols (toyTable 4) 4 0 (List.replicate 16 0#32) [] = some m) ∧
    (let long := { coefBits with bitpos := 15#4, win := 0x0001#16, pos := 2#32 }
     coefSymbol coefParams long.src toyRom 0#8 long.bsu = .fault .truncatedStream 2 ⟨2#32, 0#4, 0x0001#16⟩) ∧
    (let long := coefStart [0x92, 0x49, 0x24, 0x92, 0x49, 0x24]
     readsOn (coefSymbol coefParams long.src toyRom 0#8) (List.replicate 8 ⟨false, 1, 20⟩) long.bsu ⟨4#32, 8#4, 0x2492#16⟩ ∧
      (∃ m, placeSymbols (toyTable 4) 4 0 (List.replicate 16 0#32) (List.replicate 8 ⟨false, 1, 20⟩) = some m) ∧
      coefSymbol coefParams long.src toyRom 0#8 ⟨4#32, 8#4, 0x2492#16⟩ = .ok ⟨false, 1, 20⟩ ⟨4#32, 11#4, 0x2492#16⟩ ∧
      4 * 4 ≤ scanAfter (List.replicate 8 ⟨false, 1, 20⟩) + 1) := by
  refine ⟨by decide +kernel, by unfold State.fits; decide +kernel, rfl, ⟨_, rfl⟩, by decide +kernel,
    readsOn_of_runSymbols _ _ _ _ (by decide +kernel), ⟨_, rfl⟩, by decide +kernel, by decide +kernel⟩

theorem witness_RawEscapeFields :
    let s := { bound [0x80, 0x50, 0xC0] with w16 := false }
    s.bitpos.toNat < windowWidth s.src.w16 ∧ s.src.len < 2 ^ 28 ∧ 19 ≤ bitsLeft s.src s.bsu := by decide +kernel

theorem witness_InverseTransformOrder : 3 < 4 ∧ 0 < 4 ∧ 7 < 8 := by decide

/-- The smallest block at the origin, and the largest. -/
theorem witness_IpredResult :
    (let s := blockAt 0#32 0x00040004#32
     s.faulted = false ∧ s.framev = true ∧ (8#4).toNat ≤ 8 ∧ 0#2 ≠ 3#2 ∧ s.squareBlock ∧ s.fits 0 s.blockW s.blockW) ∧
    (let s := blockAt 0#32 0x00100010#32
     (0#4).toNat ≤ 8 ∧ s.squareBlock ∧ s.fits 0 s.blockW s.blockW) ∧
    (let s := blockAt 0x00040004#32 0x00040004#32
     s.squareBlock ∧ s.fits 2 s.blockW s.blockW) := by
  unfold State.squareBlock State.fits; decide +kernel

theorem witness_IpredDcOrigin :
    let s := blockAt 0#32 0x00100010#32
    s.faulted = false ∧ s.framev = true ∧ 0#2 ≠ 3#2 ∧ s.a0 = 0#32 ∧ s.squareBlock ∧ s.fits 0 s.blockW s.blockW := by
  unfold State.squareBlock State.fits; decide +kernel

/-- Two states that differ only in a pixel of the block at (4, 4). -/
theorem witness_IntraCausality :
    let s := { framed with planes := [(planeAddr 0 0 5 5, 1#8)] }
    let u := { framed with planes := [(planeAddr 0 0 5 5, 2#8)] }
    s.frame = u.frame ∧ s.pixel 0 0 5 5 ≠ u.pixel 0 0 5 5 ∧
      (∀ r c, r < 4 ∨ (c < 4 ∧ r < 4 + 4) → r < s.planeH 0 → c < s.planeW 0 →
        s.pixel s.cur.val 0 r c = u.pixel u.cur.val 0 r c) := by
  refine ⟨rfl, by decide +kernel, fun r c h _ hc => ?_⟩
  have hw : c < 16 := hc
  have ne : planeAddr 0 0 5 5 ≠ planeAddr 0 0 r c := by unfold planeAddr; omega
  have zero : framed.cur.val = 0 := rfl
  simp only [State.pixel, State.planeByte, zero, Memory.read, if_neg ne]

theorem witness_BlockTraps :
    State.reset.faulted = false ∧ State.reset.framev = false ∧ State.reset.qv = false ∧ State.reset.pmcv = false ∧
    (let s := blockAt 0x0000000D#32 0x00040004#32
     s.faulted = false ∧ s.framev = true ∧ s.qv = true ∧ s.pmcv = true ∧ 1 < (2#4).toNat ∧ 8 < (9#4).toNat ∧ (1#4) ≠ 0#4 ∧
        s.squareBlock ∧ ¬ s.fits 0 4 4 ∧ ¬ s.fits 0 s.blockW s.blockW) ∧
    ¬ (blockAt 0#32 0x00040002#32).squareBlock ∧ ¬ (blockAt 0x00000001#32 0#32).fits 1 8 8 := by
  unfold State.squareBlock State.fits; decide +kernel

theorem witness_PmodeResetResult : framed.faulted = false ∧ framed.framev = true ∧ State.reset.faulted = false ∧
    State.reset.framev = false := by decide +kernel

/-- A state whose mode code, whatever context is selected, is a given one. -/
def modeAll (tree : BitTree ModeLeaf) : State :=
  let s := { blockAt 0#32 0x00040004#32 with source := bytesAt [0x80], len := 1#28 }
  { s with rom := { toyRom with modeCodes := List.replicate (Config.modeContext s.pmc 0 s.blockX s.blockY s.blockW + 1) tree } }

theorem modeAll_code (tree : BitTree ModeLeaf) :
    modeCode (modeAll tree).rom (modeAll tree).pmc 0 (modeAll tree).blockX (modeAll tree).blockY (modeAll tree).blockW =
      tree.step := by
  simp [modeCode, modeAll, State.blockX, State.blockY, State.blockW]

theorem witness_IpredPResult :
    (let s := modeAll (.node (.leaf ⟨0, 0⟩) (.leaf ⟨8, 0⟩))
     s.faulted = false ∧ s.framev = true ∧ s.pmcv = true ∧ 0#2 ≠ 3#2 ∧ s.squareBlock ∧ s.fits 0 s.blockW s.blockW ∧
        ∃ b', popCode s.src (modeCode s.rom s.pmc 0 s.blockX s.blockY s.blockW) s.bsu = .ok ⟨8, 0⟩ b') ∧
    (let s := modeAll (.malformed 3#8)
     s.squareBlock ∧ s.fits 0 s.blockW s.blockW ∧
        popCode s.src (modeCode s.rom s.pmc 0 s.blockX s.blockY s.blockW) s.bsu = .fault .malformedVlc 3 s.bsu) := by
  have block : ∀ tree, (modeAll tree).squareBlock ∧ (modeAll tree).fits 0 (modeAll tree).blockW (modeAll tree).blockW := by
    intro tree
    have h0 : (modeAll tree).a0 = 0#32 := rfl
    have h1 : (modeAll tree).a1 = 0x00040004#32 := rfl
    have hf : (modeAll tree).frame = 0x00100010#32 := rfl
    simp only [State.squareBlock, State.fits, State.blockX, State.blockY, State.blockW, State.blockH, State.planeW, State.planeH,
      State.width, State.height, h0, h1, hf]
    decide +kernel
  refine ⟨⟨rfl, rfl, rfl, by decide, (block _).1, (block _).2, ?_⟩, (block _).1, (block _).2, ?_⟩
  · rw [modeAll_code]
    exact ⟨⟨1#32, 1#4, 0x80#16⟩, by decide +kernel⟩
  · rw [modeAll_code]
    rfl

/-- A code that reads one bit 1 as mode 8 (R257, R258): the mode in `RET0`, one bit gone. -/
theorem test_ipredP_mode :
    let s := modeAll (.node (.leaf ⟨0, 0⟩) (.leaf ⟨8, 0⟩))
    ∃ t, exec (.ipredP 0#4 0#2) s = .next t ∧ t.ret0 = 8#32 ∧ t.bitpos = 1#4 := by
  intro s
  have read : popCode s.src (modeCode s.rom s.pmc 0 s.blockX s.blockY s.blockW) s.bsu = .ok ⟨8, 0⟩ ⟨1#32, 1#4, 0x80#16⟩ := by
    rw [modeAll_code]
    decide +kernel
  have ready : s.framev = true ∧ s.pmcv = true ∧ s.intraOperandsBad 0#2 = false ∧
      s.inside 0 s.blockX s.blockY s.blockW s.blockW = true := by decide +kernel
  change ∃ t, execIpredP 0#4 0#2 s = .next t ∧ _
  refine ⟨_, (perform_of_clear (s := s) rfl _).trans rfl, ?_⟩
  simp only [ready, BitVec.toNat_ofNat, Nat.zero_mod, runMicro_of_ok read, Bool.true_eq_false, or_self, ne_eq, not_true_eq_false,
    Bool.false_eq_true, if_false]
  exact ⟨rfl, rfl⟩

/-- Vectors M2 and M5 and the zero vector: (3, -2), (-1, 0), (0, 0). -/
theorem witness_McResult :
    (let s := motionStart 0xFFFE0003#32
     s.faulted = false ∧ s.framev = true ∧ 1 ≤ (1#4).toNat ∧ (1#4).toNat ≤ 5 ∧ 0#2 ≠ 3#2 ∧ motionSize s.blockW ∧
        motionSize s.blockH ∧ 0 = (s.cur.val + 6 - (1#4).toNat) % 6 ∧ s.valid.getLsbD 0 = true ∧ s.fits 0 s.blockW s.blockH ∧
        (3 : Int) = (s.a2.extractLsb' 0 16).toInt ∧ (-2 : Int) = (s.a2.extractLsb' 16 16).toInt ∧
        ((1 : Nat) : Int) = 3 % 2 ∧ ((0 : Nat) : Int) = -2 % 2 ∧ ((5 : Nat) : Int) = s.blockX + 3 / 2 ∧
        ((3 : Nat) : Int) = s.blockY + -2 / 2 ∧ 5 + s.blockW + 1 ≤ s.planeW 0 ∧ 3 + s.blockH + 0 ≤ s.planeH 0) ∧
    (let s := motionStart 0x0000FFFF#32
     (-1 : Int) = (s.a2.extractLsb' 0 16).toInt ∧ ((1 : Nat) : Int) = -1 % 2 ∧ ((3 : Nat) : Int) = s.blockX + -1 / 2) ∧
    (let s := { motionStart 0#32 with cur := 5, valid := 1#6 }
     0 = (s.cur.val + 6 - (5#4).toNat) % 6 ∧ s.valid.getLsbD 0 = true) := by
  unfold motionSize State.fits; decide +kernel

theorem witness_McZeroVectorCopies :
    let s := motionStart 0#32
    s.faulted = false ∧ s.framev = true ∧ 0#2 ≠ 3#2 ∧ motionSize s.blockW ∧ motionSize s.blockH ∧
      s.valid.getLsbD ((s.cur.val + 5) % 6) = true ∧ s.fits 0 s.blockW s.blockH ∧ s.a2 = 0#32 := by
  unfold motionSize State.fits; decide +kernel

/-- Vectors M7 (17 pixels to the right), M8 (an unfilled reference), and the operand checks. -/
theorem witness_McTraps :
    State.reset.faulted = false ∧ State.reset.framev = false ∧ 5 < (6#4).toNat ∧ (0#4).toNat = 0 ∧
    (let s := motionStart 0x00000011#32
     s.faulted = false ∧ s.framev = true ∧ motionSize s.blockW ∧ motionSize s.blockH ∧
        s.valid.getLsbD ((s.cur.val + 6 - (1#4).toNat) % 6) = true ∧ s.valid.getLsbD ((s.cur.val + 6 - (2#4).toNat) % 6) = false ∧
        (s.planeW 0 : Int) < (s.blockX + (17 : Int) / 2) + s.blockW + 17 % 2 ∧ (17 : Int) = (s.a2.extractLsb' 0 16).toInt) ∧
    (let s := motionStart 0x0000FFF6#32
     (s.blockX : Int) + (s.a2.extractLsb' 0 16).toInt / 2 < 0) := by
  unfold motionSize; decide +kernel

theorem witness_RotateResult : framed.faulted = false ∧ framed.framev = true ∧ State.reset.framev = false := by decide +kernel

theorem witness_EmitFrameResult :
    (let s := motionStart 0#32
     s.faulted = false ∧ s.framev = true ∧ frameLegal s.frame = true ∧ s.valid.getLsbD ((s.cur.val + 5) % 6) = true ∧
        15 < s.height ∧ 15 < s.width ∧ 7 < s.height / 2 ∧ 7 < s.width / 2) ∧
    (framed.faulted = false ∧ framed.framev = true ∧ framed.valid.getLsbD ((framed.cur.val + 5) % 6) = false) ∧
    State.reset.framev = false := by decide +kernel

theorem witness_MvpResetAndSet : framed.faulted = false ∧ framed.framev = true ∧ State.reset.framev = false ∧
    State.reset.mvpv = false ∧
    (let s := { predictorStart with a0 := 1#32 }
     s.faulted = false ∧ s.mvpv = true ∧ s.a0.toNat < s.width / 16) ∧
    (let s := { predictorStart with a0 := 2#32 }
     s.mvpv = true ∧ s.width / 16 ≤ s.a0.toNat) := by decide +kernel

/-- The first column, the last, and the first past the end. -/
theorem witness_MvpRefreshResult :
    (let s := { predictorStart with a0 := 0#32 }
     s.faulted = false ∧ s.mvpv = true ∧ s.mvp.length = s.width / 16 + 1 ∧ s.a0.toNat < s.width / 16 ∧
        s.mvp[s.a0.toNat]? = some ⟨0#16, 0#16⟩ ∧ s.mvp[s.a0.toNat + 1]? = some ⟨4#16, 2#16⟩) ∧
    (let s := { predictorStart with a0 := 1#32 }
     s.a0.toNat < s.width / 16 ∧ s.mvp[s.a0.toNat]? = some ⟨4#16, 2#16⟩ ∧ s.mvp[s.a0.toNat + 1]? = some ⟨8#16, 0xFFFA#16⟩) ∧
    (let s := { predictorStart with a0 := 2#32 }
     s.mvpv = true ∧ s.width / 16 ≤ s.a0.toNat) ∧ State.reset.mvpv = false := by decide +kernel

theorem witness_Median3Result : State.reset.faulted = false := by decide +kernel

/-- An empty payload and one of an odd length. -/
theorem witness_AdecPcmResult : (bound [0x34, 0x12, 0xFE]).faulted = false ∧ 2#8 ≠ 0#8 ∧
    (bound [0x34, 0x12, 0xFE]).payload.length = 3 ∧ (bound []).payload = [] := by decide +kernel

theorem witness_AdecSelection : State.reset.faulted = false ∧ 3#4 ∉ [0#4, 1#4, 2#4, 4#4] ∧ 5#4 ∉ [0#4, 1#4, 2#4, 4#4] ∧
    2#4 ∈ [0#4, 1#4, 2#4] := by decide +kernel

/-- The largest step index the header admits. -/
theorem witness_ImaRangeSafety : imaHeader imaDefault [0xFF, 0x7F, 88, 0] 0 = .ok ⟨32767, 88⟩ := by rfl

/-- Whatever the byte order, zeros are a header, and four times 0xFF is none: its index is -1. -/
theorem int16At_same (big : Bool) (n i : Nat) (v : Byte) (h : i + 1 < n) :
    int16At big (List.replicate n v) i = signedValue 16 (257 * v.toNat) := by
  have e : ∀ j, j < n → (List.replicate n v).getD j 0#8 = v := fun j hj => by simp [hj]
  simp only [int16At, e i (by omega), e (i + 1) h]
  cases big <;> simp only [if_true, Bool.false_eq_true, if_false] <;> congr 1 <;> omega

theorem imaHeaderGood_zeros (k : ImaParams) (n : Nat) (h : 4 ≤ n) : imaHeaderGood k (List.replicate n 0#8) 0 := by
  refine ⟨by simpa using h, ?_⟩
  rw [int16At_same _ _ _ _ (by omega)]
  decide

/-- One header and one subframe of zeros, and one byte more; a header cut short, and one with the index -1. -/
theorem witness_AdecImaOutput :
    (imaHeaderOrder Config.ima 1).getD 0 0 = 0 ∧ (∀ payload, imaArranged Config.ima payload 1 = payload) ∧
    (let s := bound (List.replicate 132 0)
     s.faulted = false ∧ 1#8 ≠ 0#8 ∧ s.payload.length = 4 * 1 + 128 * 1 * 1 + 0 ∧ imaHeaderGood Config.ima s.payload 0) ∧
    (let s := bound (List.replicate 133 0)
     s.payload.length = 4 * 1 + 128 * 1 * 1 + 1 ∧ 1 < 128 * 1 ∧ imaHeaderGood Config.ima s.payload 0) ∧
    (bound (List.replicate 3 0)).payload.length < 4 * 0 + 4 ∧
    (let s := bound (List.replicate 4 255)
     4 * 0 + 4 ≤ s.payload.length ∧ ¬ imaHeaderGood Config.ima s.payload 0) := by
  have e0 : (bound (List.replicate 132 0)).payload = List.replicate 132 0#8 := by decide +kernel
  have e1 : (bound (List.replicate 133 0)).payload = List.replicate 133 0#8 := by decide +kernel
  have e2 : (bound (List.replicate 4 255)).payload = List.replicate 4 255#8 := by decide +kernel
  simp only [e0, e1, e2]
  refine ⟨by simp [imaHeaderOrder, pickOrder, Nat.mod_one], fun _ => if_pos rfl,
    ⟨by decide +kernel, by decide, by decide +kernel, imaHeaderGood_zeros _ _ (by decide)⟩,
    ⟨by decide +kernel, by decide, imaHeaderGood_zeros _ _ (by decide)⟩, by decide +kernel, by decide, fun h => ?_⟩
  have hi := h.2.1
  rw [int16At_same _ _ _ _ (by decide)] at hi
  exact absurd hi (by decide)

/-- A header alone, a group of the highest pair, one of the first pair past it, and a header cut short. -/
theorem witness_DspSampleCount :
    (38 ≤ (List.replicate 38 0#8).length ∧
      ∀ g b, (List.replicate 38 0#8)[38 + 8 * g]? = some b → b.toNat / 16 < 8) ∧
    (38 ≤ (List.replicate 46 0x7F#8).length ∧
      ∀ g b, (List.replicate 46 0x7F#8)[38 + 8 * g]? = some b → b.toNat / 16 < 8) ∧
    ((List.replicate 46 0x80#8)[38 + 8 * 0]? = some 0x80#8 ∧ 8 ≤ (0x80#8).toNat / 16) ∧ (List.replicate 37 0#8).length < 38 := by
  have all : ∀ (n : Nat) (v : Byte), v.toNat / 16 < 8 → ∀ g b, (List.replicate n v)[38 + 8 * g]? = some b → b.toNat / 16 < 8 := by
    intro n v hv g b hb
    rw [List.getElem?_replicate] at hb
    split at hb
    · exact Option.some.inj hb ▸ hv
    · cases hb
  exact ⟨⟨by decide +kernel, all _ _ (by decide)⟩, ⟨by decide +kernel, all _ _ (by decide)⟩, by decide +kernel, by decide +kernel⟩

/-- One channel of zeros, a group of pair 8, a part cut short, and a length that two channels cannot share. -/
theorem witness_AdecDspOutput :
    (let s := bound (List.replicate 203 0)
     s.faulted = false ∧ 1#8 ≠ 0#8 ∧ s.payload.length % (1#8).toNat = 0 ∧ (∀ part ∈ dspParts Config.dsp s.payload 1, dspPartGood part)) ∧
    (let s := bound (List.replicate 39 0x80)
     s.payload.length % (1#8).toNat = 0 ∧ (dspParts Config.dsp s.payload 1)[0]? = some s.payload ∧ 38 ≤ s.payload.length ∧
        ¬ dspPartGood s.payload) ∧
    (let s := bound (List.replicate 37 0)
     (dspParts Config.dsp s.payload 1)[0]? = some s.payload ∧ s.payload.length < 38) ∧
    (bound (List.replicate 77 0)).payload.length % (2#8).toNat ≠ 0 := by
  have e0 : (bound (List.replicate 203 0)).payload = List.replicate 203 0#8 := by decide +kernel
  have e1 : (bound (List.replicate 39 0x80)).payload = List.replicate 39 0x80#8 := by decide +kernel
  refine ⟨⟨by decide +kernel, by decide, by decide +kernel, fun part hp => ?_⟩, ⟨by decide +kernel, rfl, by decide +kernel, fun h => ?_⟩,
    ⟨rfl, by decide +kernel⟩, by decide +kernel⟩
  · rw [dspParts, if_pos rfl, List.mem_singleton] at hp
    rw [hp, e0]
    refine ⟨by decide +kernel, fun g b hb => ?_⟩
    rw [List.getElem?_replicate] at hb
    split at hb
    · exact Option.some.inj hb ▸ by decide
    · cases hb
  · have := h.2 0 0x80#8 (by rw [e1]; rfl)
    exact absurd this (by decide)

theorem witness_DspSilentPayload :
    let s := bound (List.replicate 203 0)
    s.faulted = false ∧ s.pos = 0#32 ∧ s.len = 203#28 ∧ ∀ a < 203, s.sourceByte a = 0#8 := by decide +kernel

theorem witness_HostRegisterWrites : State.reset.faulted = false ∧ 0x10 ∉ [0x00, 0x0C, 0x14, 0x20, 0x24, 0x28, 0x44] ∧
    AccessWidth.half ≠ .word := by decide +kernel

theorem witness_HostRegisterReads : 0x2C ∉ [0x04, 0x08, 0x0C, 0x10, 0x14, 0x18, 0x1C, 0x20, 0x24, 0x28, 0x30, 0x34, 0x40, 0x44,
    0x48, 0x4C, 0x50] ∧ AccessWidth.double ≠ .word := by decide +kernel

/-- A command that ends without a fault and writes none of the registers claimed unchanged, and one that writes them. -/
theorem witness_RegisterWriters : (∃ t, exec .rotate framed = .next t ∧ t.fault = 0#32) ∧ Instr.rotate ≠ .resetUnit ∧
    writesRet0 .rotate = false ∧ movesPos .rotate = false ∧ popsBits .rotate = false ∧
    ∃ t, exec .seek framed = .next t ∧ t.fault = 0#32 :=
  ⟨⟨_, rfl, by decide +kernel⟩, by decide, rfl, rfl, rfl, ⟨_, rfl, by decide +kernel⟩⟩

theorem witness_UnitStateWriters : (∃ t, exec .seek framed = .next t ∧ t.fault = 0#32) ∧ Instr.seek ≠ .resetUnit ∧
    Instr.seek ≠ .addQuant ∧ (∀ q, Instr.seek ≠ .setQuant q) ∧ (∀ n, Instr.seek ≠ .setDcttab n) ∧ Instr.seek ≠ .rotate ∧
    Instr.seek ≠ .mvpReset ∧ Instr.seek ≠ .mvpRefresh ∧ Instr.seek ≠ .mvpSet ∧ Instr.seek ≠ .pmodeReset ∧
    ∀ sel plane, Instr.seek ≠ .ipredP sel plane := by
  refine ⟨⟨_, rfl, by decide +kernel⟩, ?_⟩
  simp

theorem witness_OutIsAppendOnly : (∃ t, exec (.readBytes 1#24) (bound [7]) = .next t) ∧ (∃ t, exec .popBit (bound []) = .next t) ∧
    appendsOut .popBit = false := ⟨⟨_, rfl⟩, ⟨_, rfl⟩, rfl⟩

theorem witness_OnlyCurrentSlotWritten : (∃ t, exec (.ipred 3#4 0#2) (blockAt 0#32 0x00040004#32) = .next t ∧ t.fault = 0#32) ∧
    inStore 5 2 65535 65535 ∧ 5 ≠ (blockAt 0#32 0x00040004#32).cur.val ∧
    (∃ t, exec .rotate framed = .next t ∧ t.fault = 0#32) ∧ writesPlanes .rotate = false := by
  refine ⟨⟨_, rfl, by decide +kernel⟩, by unfold inStore; decide, by decide +kernel, ⟨_, rfl, by decide +kernel⟩, rfl⟩

theorem witness_OperandReaders : (∃ t, exec .rotate framed = .next t ∧ t.fault = 0#32) ∧ readsA0 .rotate = false ∧
    readsA1 .rotate = false ∧ readsA2 .rotate = false := ⟨⟨_, rfl, by decide +kernel⟩, rfl, rfl, rfl⟩

theorem witness_SourceOnlyRebound :
    (∃ t, hostMove (.write .word 0 0x01000000#32) (bound [7]) = .next t ∧ t.fault = (bound [7]).fault) ∧
    HostMove.rebinds (.write .word 0 0x01000000#32) = false := ⟨⟨_, rfl, by decide +kernel⟩, rfl⟩

/-- A machine in the middle of a frame meets the invariant, and its next step runs a command. -/
theorem witness_InvKept :
    let s := { motionStart 0#32 with qv := true, quantQ := 5#6, qt4 := qtab4 5#6, qt8 := qtab8 5#6, script := [.write .word 0 0x41000000#32] }
    Invariant s ∧ ∃ t, step s = .next t := by
  refine ⟨?_, _, rfl⟩
  constructor
  case quantTables => exact fun _ _ => ⟨rfl, rfl⟩
  all_goals decide +kernel

end Sys2Proof.Tests
end

/-! PROOFS. The byte-level commands (40_bsu_byte.md): a command that is one byte fetch either goes on with the fetched bytes and `POS`
past them, or faults before anything changed (R141). -/

namespace Sys2Proof.Machine

/-- A command's fetch of bytes that are all there, or of none, goes on with them in address order; of the bit cursor only `POS` moves
(R141, R142). -/
theorem runMicro_fetch_of_available {s : State} {n : Nat} (h : n = 0 ∨ s.pos.toNat + n ≤ s.len.toNat)
    (k : List Byte → State → State) :
    runMicro s (fetch s.src n) k =
      k ((List.range n).map fun i => s.sourceByte (s.pos.toNat + i)) { s with pos := s.pos + BitVec.ofNat 32 n } := by
  rcases h with rfl | h
  · rw [runMicro_of_ok (fetch_zero s.src s.bsu)]
    simp
  · rw [runMicro_of_ok (fetch_of_le (src := s.src) (b := s.bsu) h)]
    rfl

/-- A command's fetch with a byte missing is an early fault: only `FAULT` changes (R141, R341 a). -/
theorem runMicro_fetch_of_truncated {s : State} (hf : s.faulted = false) {n : Nat} (hn : n ≠ 0)
    (h : s.len.toNat < s.pos.toNat + n) (k : List Byte → State → State) :
    runMicro s (fetch s.src n) k = s.faultedWith .truncatedStream (s.pos.toNat % 2 ^ 24 : Nat) := by
  have early : fetch s.src n s.bsu = .fault .truncatedStream (s.pos.toNat % 2 ^ 24 : Nat) s.bsu := fetch_of_lt hn h
  rw [runMicro_of_early early, raise_of_clear hf, State.faultedWith]

/-- `READ_U8` on a clear machine is the fetch of one byte into `RET0` (R143). -/
theorem exec_readU8 {s : State} (hf : s.faulted = false) :
    exec .readU8 s = .next (runMicro s (fetch s.src 1) fun bs s => { s with ret0 := (bs.getD 0 0#8).setWidth 32 }) := by
  rw [exec, execReadU8, perform_of_clear hf]

/-- `READ_BYTES` on a clear machine is the fetch of `cnt` bytes onto `OUT` (R144). -/
theorem exec_readBytes {s : State} (hf : s.faulted = false) (cnt : BitVec 24) :
    exec (.readBytes cnt) s = .next (runMicro s (fetch s.src cnt.toNat) fun bs s => s.appendOut bs) := by
  rw [exec, execReadBytes, perform_of_clear hf]

/-- Settles O9: both commands are one fetch, which is granted or refused as a whole. -/
theorem byteReads : Obligations.ByteReads := by
  intro cnt s hf
  have count_eq_zero : cnt.toNat = 0 ↔ cnt = 0#24 := by simp [← BitVec.toNat_inj]
  refine ⟨fun h => ?readU8, fun h => ?readU8Truncated, fun h => ?readBytes, fun hc h => ?readBytesTruncated⟩
  case readU8 =>
    rw [exec_readU8 hf, runMicro_fetch_of_available (.inr h)]
    simp
  case readU8Truncated =>
    rw [exec_readU8 hf, runMicro_fetch_of_truncated hf one_ne_zero (Nat.lt_succ_of_le h)]
  case readBytes =>
    rw [exec_readBytes hf, runMicro_fetch_of_available (h.imp_left count_eq_zero.mpr)]
    simp [State.appendOut]
  case readBytesTruncated =>
    rw [exec_readBytes hf, runMicro_fetch_of_truncated hf (mt count_eq_zero.mp hc) h]

end Sys2Proof.Machine

/-! PROOFS. The bit-level commands (41_bsu_bits.md): each runs one micro-operation, which either gives its value with the cursor so many
bits on, or runs out of bits (R160, R162). -/

namespace Sys2Proof.Machine

/-- A machine that keeps `BITPOS < W` (R30) has a cursor the stream lemmas speak of: `LEN` is 28 bits wide (R29). -/
theorem bsuOk_of_bitpos_lt {s : State} (hb : s.bitpos.toNat < windowWidth s.w16) : BsuOk s.src s.bsu :=
  ⟨hb, s.len.isLt⟩

/-- A command whose micro-operation gives a value after `n` bits goes on with it, the cursor `n` bits on. -/
theorem runMicro_of_popped {α : Type} {s : State} {m : Micro α} {a : α} {n : Nat}
    (h : m s.bsu = .ok a (cursorAfter s.src s.bsu n)) (k : α → State → State) : runMicro s m k = k a (s.popped n) :=
  runMicro_of_ok h k

/-- A command whose micro-operation runs out of bits records `TruncatedStream` with the `POS` of the refill that failed (R141, R162). -/
theorem runMicro_fault_of_endOfBits {α : Type} {s : State} (hf : s.faulted = false) {m : Micro α}
    (h : m s.bsu = endOfBits α s.src s.bsu) (k : α → State → State) : (runMicro s m k).fault = s.outOfBits :=
  runMicro_fault hf h k

/-- `POP_INT n` on a clear machine, `n` in range, is `pop_int(n)` into `RET0` (R164). -/
theorem exec_popInt {s : State} (hf : s.faulted = false) {n : BitVec 6} (hn : n.toNat ≤ 32) :
    exec (.popInt n) s = .next (popToRet0 s (popInt s.src n.toNat)) := by
  rw [exec, execPopInt, perform_of_clear hf, if_neg (by omega)]

/-- `POP_INT n` on a clear machine with `n` above 32 raises `BadOperand` and nothing else (R164, R111 test 4). -/
theorem exec_popInt_of_badOperand {s : State} (hf : s.faulted = false) {n : BitVec 6} (hn : 32 < n.toNat) :
    exec (.popInt n) s = .next (s.faultedWith .badOperand 0) := by
  rw [exec, execPopInt, perform_of_clear hf, if_pos hn, raise_of_clear hf, State.faultedWith]

/-- `POP_SINT n` on a clear machine, `n` in range, is `pop_signed_int(n)` into `RET0` (R167). -/
theorem exec_popSint {s : State} (hf : s.faulted = false) {n : BitVec 6} (h1 : 1 ≤ n.toNat) (hn : n.toNat ≤ 32) :
    exec (.popSint n) s = .next (popToRet0Signed s (popSint s.src n.toNat)) := by
  rw [exec, execPopSint, perform_of_clear hf, if_neg (by omega)]

/-- `POP_SINT n` on a clear machine with `n` out of range raises `BadOperand` and nothing else (R167, R111 test 4). -/
theorem exec_popSint_of_badOperand {s : State} (hf : s.faulted = false) {n : BitVec 6} (hn : n.toNat = 0 ∨ 32 < n.toNat) :
    exec (.popSint n) s = .next (s.faultedWith .badOperand 0) := by
  rw [exec, execPopSint, perform_of_clear hf, if_pos hn, raise_of_clear hf, State.faultedWith]

/-- `POP_LENGTH` on a clear machine is `pop_length()` into `RET0` (R169). -/
theorem exec_popLength {s : State} (hf : s.faulted = false) : exec .popLength s = .next (popToRet0 s (popLength s.src)) := by
  rw [exec, execPopLength, perform_of_clear hf]

/-- `POP_BIT` on a clear machine is `pop_bit()` into `RET0`, as 0 or 1 (R162). -/
theorem exec_popBit {s : State} (hf : s.faulted = false) :
    exec .popBit s = .next (popToRet0 s (microBind (popBit s.src) fun bit => microPure bit.toNat)) := by
  rw [exec, execPopBit, perform_of_clear hf]

/-- Settles O12: `pop_int(n)` gives the stream's value when the `n` bits are there, else it runs out of bits. -/
theorem popIntResult : Obligations.PopIntResult := by
  intro n s hf hb
  have hpop := popInt_cases (bsuOk_of_bitpos_lt hb) n.toNat
  refine ⟨fun hn hle => ?value, exec_popInt_of_badOperand hf, fun hn hlt => ?truncated⟩
  case value =>
    rw [exec_popInt hf hn, popToRet0, runMicro_of_popped (hpop.trans (if_pos hle))]
    rfl
  case truncated =>
    exact ⟨_, exec_popInt hf hn, runMicro_fault_of_endOfBits hf (hpop.trans (if_neg (Nat.not_le.mpr hlt))) _⟩

/-- Settles O14: as for `POP_INT`, with the two's-complement reading of the value. -/
theorem popSintResult : Obligations.PopSintResult := by
  intro n s hf hb
  have hpop (h1 : 1 ≤ n.toNat) := popSint_cases (bsuOk_of_bitpos_lt hb) h1
  refine ⟨fun h1 hn hle => ?value, exec_popSint_of_badOperand hf, fun h1 hn hlt => ?truncated⟩
  case value =>
    rw [exec_popSint hf h1 hn, popToRet0Signed, runMicro_of_popped ((hpop h1).trans (if_pos hle))]
    rfl
  case truncated =>
    exact ⟨_, exec_popSint hf h1 hn, runMicro_fault_of_endOfBits hf ((hpop h1).trans (if_neg (Nat.not_le.mpr hlt))) _⟩

/-- Settles O15: `pop_length()` stops at the 1 bit of a unary prefix; with only zeros left it pops them all and runs out of bits. -/
theorem popLengthResult : Obligations.PopLengthResult := by
  intro s hf hb
  have hok := bsuOk_of_bitpos_lt hb
  refine ⟨fun z hunary => ?one, fun hzeros => ?zeros⟩
  case one =>
    obtain ⟨hleft, hzero, hone⟩ := hunary
    rw [exec_popLength hf, popToRet0, runMicro_of_popped (popLength_of_prefix z hok hleft hzero hone)]
  case zeros =>
    exact ⟨_, exec_popLength hf, runMicro_fault_of_endOfBits hf (popLength_of_zeros _ hok rfl hzeros) _⟩

/-- `pop_bit()` from a window that still holds bits takes one of it (R162). -/
theorem popBit_of_window {src : Src} {b : Bsu} (hz : b.bitpos ≠ 0#4) : popBit src b = takeBit src b := if_neg hz

/-- `pop_bit()` from an exhausted window takes the top bit of the window it refills (R161, R162). -/
theorem popBit_of_refill {src : Src} {b : Bsu} (hz : b.bitpos = 0#4) (h : b.pos.toNat + windowWidth src.w16 / 8 ≤ src.len) :
    popBit src b =
      .ok ((windowOf src [src.byte b.pos.toNat, src.byte (b.pos.toNat + 1)]).getLsbD (windowWidth src.w16 - 1))
        ⟨b.pos + BitVec.ofNat 32 (windowWidth src.w16 / 8), 1#4,
          windowOf src [src.byte b.pos.toNat, src.byte (b.pos.toNat + 1)]⟩ := by
  rw [popBit, if_pos hz, microBind_of_ok (refill_of_le h)]
  rcases windowWidth_cases src.w16 with hw | hw <;> simp [takeBit, hz, hw]

/-- With the window exhausted and no whole window left in the source no bit is left (R161). -/
theorem bitsLeft_eq_zero_of_truncated {src : Src} {b : Bsu} (hz : b.bitpos = 0#4)
    (h : src.len < b.pos.toNat + windowWidth src.w16 / 8) : bitsLeft src b = 0 := by
  have no_window : (src.len - b.pos.toNat) / (windowWidth src.w16 / 8) = 0 := Nat.div_eq_zero_iff.mpr (by omega)
  rw [bitsLeft, if_pos hz, no_window, Nat.mul_zero]

/-- The bit `pop_bit()` gives is `RET0` as 0 or 1 (R162, R176). -/
theorem exec_popBit_of_ok {s : State} (hf : s.faulted = false) {bit : Bool} {b : Bsu} (h : popBit s.src s.bsu = .ok bit b) :
    exec .popBit s = .next { s.setBsu b with ret0 := BitVec.ofNat 32 bit.toNat } := by
  have value : microBind (popBit s.src) (fun bit => microPure bit.toNat) s.bsu = .ok bit.toNat b := microBind_of_ok h
  rw [exec_popBit hf, popToRet0, runMicro_of_ok value]

/-- Settles O11: a bit of the window, the top bit of a refilled one, or a refill that is refused whole. -/
theorem popBitResult : Obligations.PopBitResult := by
  intro s hf hb
  refine ⟨fun hz => ?window, fun hz hle => ?refill, fun hz hlt => ?truncated⟩
  case window => exact exec_popBit_of_ok hf (popBit_of_window (src := s.src) (b := s.bsu) hz)
  case refill => exact exec_popBit_of_ok hf (popBit_of_refill (src := s.src) (b := s.bsu) hz hle)
  case truncated =>
    have early := popBit_of_zero (bsuOk_of_bitpos_lt hb) (bitsLeft_eq_zero_of_truncated hz hlt)
    rw [exec_popBit hf, popToRet0, runMicro_of_early (microBind_of_fault early), raise_of_clear hf]
    rfl

end Sys2Proof.Machine

/-! PROOFS. The VLC command (42_bsu_vlc.md): `POP_VLC` is one walk of `pop_vlc`, which ends at the shortest key the stream matches, at
the table's depth, or where the bits run out (R194, R196). -/

namespace Sys2Proof.Machine

section
variable {src : Src} {vlc : List VlcRow} {t : BitVec 8} {b : Bsu}

/-- `pop_vlc(t)` gives the symbol of the shortest key the stream matches and consumes that key's bits (R194, R196). -/
theorem popVlc_of_match (hok : BsuOk src b) {d : Nat} {sym : Word} (hd : 1 ≤ d) (hdepth : d ≤ tableDepth vlc t)
    (hleft : d ≤ bitsLeft src b) (hsome : tableLookup vlc t (2 ^ d + streamValue src b d) = some sym)
    (hnone : ∀ e, 1 ≤ e → e < d → tableLookup vlc t (2 ^ e + streamValue src b e) = none) :
    popVlc src vlc t b = .ok sym (cursorAfter src b d) :=
  popVlc_ok_iff.mpr ⟨_, popVlcFrom_of_match vlc t d _ 1 hok hd hdepth hleft (by rwa [Nat.one_mul])
    fun e he hlt => by rw [Nat.one_mul]; exact hnone e he hlt⟩

/-- `pop_vlc(t)` that meets no key is malformed after `DEPTH[t]` bits, or runs out of bits before (R194). -/
theorem popVlc_of_none (hok : BsuOk src b)
    (hnone : ∀ e, 1 ≤ e → e ≤ tableDepth vlc t → e ≤ bitsLeft src b → tableLookup vlc t (2 ^ e + streamValue src b e) = none) :
    popVlc src vlc t b =
      if tableDepth vlc t ≤ bitsLeft src b then .fault .malformedVlc t.toNat (cursorAfter src b (tableDepth vlc t))
      else endOfBits Word src b := by
  have walk : popVlcKey src vlc t b = _ := popVlcFrom_of_none vlc t _ 1 hok fun e he hdepth hleft => by
    rw [Nat.one_mul]; exact hnone e he hdepth hleft
  split_ifs at walk ⊢ <;> exact popVlc_fault_iff.mpr walk

/-- `pop_vlc(t)` of an empty table is malformed at once: no bit is popped (R194). -/
theorem popVlc_of_empty (h : tableDepth vlc t = 0) : popVlc src vlc t b = .fault .malformedVlc t.toNat b := by
  rw [popVlc_fault_iff, popVlcKey, h, popVlcFrom, microFault]

end

/-- `POP_VLC t` on a clear machine is `pop_vlc(t)` into `RET0` (R194). -/
theorem exec_popVlc {s : State} (hf : s.faulted = false) (t : BitVec 8) :
    exec (.popVlc t) s = .next (runMicro s (popVlc s.src s.rom.vlc t) fun sym s => { s with ret0 := sym }) := by
  rw [exec, execPopVlc, perform_of_clear hf]

/-- Settles O20: the walk ends at the shortest key, at the table's depth, or where the bits run out; of an empty table it never starts. -/
theorem popVlcResult : Obligations.PopVlcResult := by
  intro t s hf hb
  have hok := bsuOk_of_bitpos_lt hb
  refine ⟨fun d sym hd hdepth hle hsome hnone => ?symbol, fun hnone => ⟨_, exec_popVlc hf t, ?noKey⟩, fun hempty => ?empty⟩
  case symbol =>
    rw [exec_popVlc hf, runMicro_of_popped (popVlc_of_match hok hd hdepth hle hsome hnone)]
  case noKey =>
    have walk := popVlc_of_none hok hnone
    by_cases hle : tableDepth s.rom.vlc t ≤ s.unread
    · rw [if_pos hle]
      exact runMicro_fault hf (walk.trans (if_pos hle)) _
    · rw [if_neg hle]
      exact runMicro_fault_of_endOfBits hf (walk.trans (if_neg hle)) _
  case empty =>
    rw [exec_popVlc hf, runMicro_of_early (popVlc_of_empty hempty), raise_of_clear hf, State.faultedWith]

end Sys2Proof.Machine

/-! PROOFS. The inverse transform (43_tqu_coef.md): each pass is read cell by cell (R222). -/

namespace Sys2Proof.Machine

section
variable {n r c : Nat}

/-- A cell of a square matrix written row by row. -/
theorem cell_rows (f : Nat → Nat → Word) (hr : r < n) (hc : c < n) :
    cell n ((List.range n).flatMap fun r => (List.range n).map (f r)) r c = f r c := by
  rw [cell, List.getD_eq_getElem?_getD, getElem?_rows n n f r c hr hc, Option.getD_some]

/-- The transpose swaps row and column (R222). -/
theorem cell_transpose (m : List Word) (hr : r < n) (hc : c < n) : cell n (transpose n m) r c = cell n m c r :=
  cell_rows (fun r c => cell n m c r) hr hc

/-- Row `r` of a pass is the transform of row `r` (R222). -/
theorem cell_rowPass (it : List Word → List Word) (m : List Word) (hr : r < n) (hc : c < n) :
    cell n (rowPass it n m) r c = (it ((List.range n).map (cell n m r))).getD c 0#32 :=
  cell_rows (fun r c => (it ((List.range n).map (cell n m r))).getD c 0#32) hr hc

/-- Row `r` of the transpose is column `r`. -/
theorem map_cell_transpose (m : List Word) (hr : r < n) :
    (List.range n).map (cell n (transpose n m) r) = (List.range n).map fun k => cell n m k r :=
  List.map_congr_left fun _ hk => cell_transpose m hr (List.mem_range.mp hk)

/-- Column `c` of a row pass is element `c` of each transformed row (R222). -/
theorem map_cell_rowPass (it : List Word → List Word) (m : List Word) (hc : c < n) :
    ((List.range n).map fun r => cell n (rowPass it n m) r c) =
      (List.range n).map fun r => (it ((List.range n).map (cell n m r))).getD c 0#32 :=
  List.map_congr_left fun _ hr => cell_rowPass it m (List.mem_range.mp hr) hc

/-- The shift by `RES_SHIFT` is cell by cell; a cell that is not there is 0 before and after (R222). -/
theorem cell_map_sshiftRight (m : List Word) (k : Nat) :
    cell n (m.map fun v => v.sshiftRight k) r c = (cell n m r c).sshiftRight k := by
  have shifted_default := List.getD_map (l := m) (n := r * n + c) (d := 0#32) fun v => v.sshiftRight k
  rwa [BitVec.zero_sshiftRight] at shifted_default

end

/-- Settles O28: the last transpose puts element `j` of the transform of column `i` at row `j`, column `i`. -/
theorem inverseTransformOrder : Obligations.InverseTransformOrder := by
  intro it shift n m j i hj hi
  have columns :
      cell n (transpose n (rowPass it n (transpose n (rowPass it n m)))) j i =
        (it ((List.range n).map fun r => cell n (rowPass it n m) r i)).getD j 0#32 := by
    rw [cell_transpose _ hj hi, cell_rowPass it _ hi hj, map_cell_transpose _ hi]
  rw [inverseTransform, cell_map_sshiftRight, columns, map_cell_rowPass it m hi]
  rfl

end Sys2Proof.Machine

/-! PROOFS. The quantizer commands (43_tqu_coef.md): `SET_QUANT`, `ADD_QUANT` and `SET_DCTTAB` each write their registers or raise one
early fault, which changes nothing but `FAULT` (R212 to R214, R341 a). -/

namespace Sys2Proof.Machine

section
variable {s : State} (hf : s.faulted = false)
include hf

/-- `SET_QUANT q` on a clear machine loads the quantizer with its tables and sets `INIT.QV` (R212). -/
theorem exec_setQuant (q : BitVec 6) : exec (.setQuant q) s = .next { s.loadQuant q with qv := true } := by
  rw [exec, execSetQuant, perform_of_clear hf]

/-- `SET_DCTTAB n` on a clear machine, `n` at most 1, writes `QUANT.DCTTAB` (R214). -/
theorem exec_setDcttab {n : BitVec 6} (hn : n.toNat ≤ 1) : exec (.setDcttab n) s = .next { s with dctTab := n == 1#6 } := by
  rw [exec, execSetDcttab, perform_of_clear hf, if_neg (by omega)]

/-- `SET_DCTTAB n` on a clear machine with `n` above 1 raises `BadOperand` and nothing else (R214, R111 test 4). -/
theorem exec_setDcttab_of_badOperand {n : BitVec 6} (hn : 1 < n.toNat) :
    exec (.setDcttab n) s = .next (s.faultedWith .badOperand 0) := by
  rw [exec, execSetDcttab, perform_of_clear hf, if_pos hn, raise_of_clear hf, State.faultedWith]

/-- `ADD_QUANT` on a clear machine without a quantizer raises `NotInitialised` and nothing else (R213). -/
theorem exec_addQuant_of_notInitialised (hqv : s.qv = false) :
    exec .addQuant s = .next (s.faultedWith .notInitialised 0) := by
  rw [exec, execAddQuant, perform_of_clear hf, if_pos hqv, raise_of_clear hf, State.faultedWith]

/-- `ADD_QUANT` on a clear machine whose integer sum is a quantizer loads it; `INIT.QV` already holds (R213, R36). -/
theorem exec_addQuant_of_sum (hqv : s.qv = true) {q : BitVec 6} (hsum : (s.quantQ.toNat : Int) + s.a0.toInt = q.toNat) :
    exec .addQuant s = .next (s.loadQuant q) := by
  have in_range : ¬ ((s.quantQ.toNat : Int) + sext32 s.a0 < 0 ∨ 63 < (s.quantQ.toNat : Int) + sext32 s.a0) := by
    rw [sext32]
    omega
  rw [exec, execAddQuant, perform_of_clear hf, if_neg (by simp [hqv]), if_neg in_range, sext32, hsum, BitVec.ofInt_natCast,
    BitVec.ofNat_toNat, BitVec.setWidth_eq, ← hqv]
  rfl

/-- `ADD_QUANT` on a clear machine whose integer sum is no quantizer raises `QuantRange` with the sum and nothing else (R213). -/
theorem exec_addQuant_of_quantRange (hqv : s.qv = true)
    (hsum : (s.quantQ.toNat : Int) + s.a0.toInt < 0 ∨ 63 < (s.quantQ.toNat : Int) + s.a0.toInt) :
    exec .addQuant s = .next (s.faultedWith .quantRange (s.quantQ.toNat + s.a0.toInt)) := by
  rw [exec, execAddQuant, perform_of_clear hf, if_neg (by simp [hqv]), sext32, if_pos hsum, raise_of_clear hf, State.faultedWith]

end

/-- Settles O21: `SET_QUANT` is the load of a quantizer, `SET_DCTTAB` one bit or `BadOperand`. -/
theorem setQuantAndDcttab : Obligations.SetQuantAndDcttab := by
  intro s hf
  exact ⟨exec_setQuant hf, exec_setDcttab hf (n := 0#6) (by decide), exec_setDcttab hf (n := 1#6) (by decide),
    fun _ => exec_setDcttab_of_badOperand hf⟩

/-- Settles O22: the command tests `INIT.QV`, then the integer sum, and only then loads it. -/
theorem addQuantResult : Obligations.AddQuantResult := by
  intro s hf
  exact ⟨exec_addQuant_of_notInitialised hf, fun _ hqv hsum => exec_addQuant_of_sum hf hqv hsum.symm,
    exec_addQuant_of_quantRange hf⟩

end Sys2Proof.Machine

/-! PROOFS. The intra-prediction unit (44_ipu_intra.md): a clear `IPRED` whose checks pass is one filled block, and at the frame's
origin the prediction of mode 3 is 128 throughout (R251, R254). -/

namespace Sys2Proof.Machine

/-- `IPRED` on a clear machine whose mode, block and plane pass the checks fills the block with the mode's prediction (R251). -/
theorem exec_ipred_of_fits {s : State} (hf : s.faulted = false) (hfr : s.framev = true) {sel : BitVec 4} (hsel : sel.toNat ≤ 8)
    {plane : BitVec 2} (hplane : plane ≠ 3#2) (hsq : s.squareBlock) (hfit : s.fits plane.toNat s.blockW s.blockW) :
    exec (.ipred sel plane) s = .next (s.fillIntra sel.toNat plane.toNat) := by
  have operands_ok : ¬ (8 < sel.toNat ∨ s.intraOperandsBad plane = true) := by
    rw [intraOperandsBad_iff]
    exact not_or.mpr ⟨Nat.not_lt.mpr hsel, not_or.mpr ⟨hplane, not_not.mpr hsq⟩⟩
  rw [exec, execIpred, perform_of_clear hf, if_neg (by simp [hfr]), if_neg operands_ok, if_neg (by simp [inside_of_fits hfit])]

/-- Inside a block that fits, `fillIntra` leaves the mode's prediction (R251). -/
theorem pixel_fillIntra_in {s : State} (mode : Nat) {plane : Nat} (hp : plane < 3) (hfit : s.fits plane s.blockW s.blockW) {r c : Nat}
    (hin : inBlock s.blockX s.blockY s.blockW s.blockW r c) :
    (s.fillIntra mode plane).pixel s.cur.val plane r c =
      s.intraBlock mode plane s.blockW s.blockX s.blockY (r - s.blockY) (c - s.blockX) := by
  have in_store : inStore s.cur.val plane r c := by
    obtain ⟨⟨-, hr⟩, -, hc⟩ := hin
    obtain ⟨hw, hh⟩ := hfit
    have width_le := planeW_le s plane
    have height_le := planeH_le s plane
    exact ⟨s.cur.isLt, hp, by omega, by omega⟩
  exact pixel_writeBlock_in s _ hp hfit in_store ⟨rfl, rfl, hin⟩

/-- The prediction of mode 3 at the frame's origin (R254). -/
theorem intraBlock_dc_origin (s : State) (plane n j i : Nat) : s.intraBlock 3 plane n 0 0 j i = 128#8 := by
  simp [State.intraBlock]

/-- Settles O30: the block is filled with mode 3's prediction, and `XY = 0` puts it at the frame's origin. -/
theorem ipredDcOrigin : Obligations.IpredDcOrigin := by
  intro plane s hf hfr hplane hxy hsq hfit
  have hx : s.blockX = 0 := by simp [State.blockX, hxy, lowHalf]
  have hy : s.blockY = 0 := by simp [State.blockY, hxy, highHalf]
  refine ⟨_, exec_ipred_of_fits hf hfr (by decide) hplane hsq hfit, fun r c hr hc => ?_⟩
  have hin : inBlock s.blockX s.blockY s.blockW s.blockW r c := by
    rw [hx, hy]
    exact ⟨⟨Nat.zero_le r, by omega⟩, Nat.zero_le c, by omega⟩
  rw [pixel_fillIntra_in _ (plane_lt hplane) hfit hin, hx, hy]
  exact intraBlock_dc_origin ..

end Sys2Proof.Machine

/-! PROOFS. Motion compensation (45_mcu_motion.md): a clear `MC` whose checks pass is one written block, and each of its pixels is the
average the two half bits pick (R271 to R273). -/

namespace Sys2Proof.Machine

/-- The whole-pixel displacement of a component is its value divided by 2, rounded down (R12, R272). -/
theorem wholePart_eq (v : BitVec 16) : wholePart v = v.toInt / 2 := rfl

/-- `MC_ROUND` is one bit (R273). -/
theorem roundBias_le_one : roundBias ≤ 1 := by
  rw [roundBias]
  split <;> decide

/-- A predicted pixel as a number: an average of bytes, with a bias of at most 1, is a byte again (R273). -/
theorem interpolate_toNat {round : Nat} (hr : round ≤ 1) (ex ey : Nat) (a b c d : Byte) :
    (interpolate round ex ey a b c d).toNat =
      if ex = 0 ∧ ey = 0 then a.toNat
      else if ey = 0 then (a.toNat + b.toNat + round) / 2
      else if ex = 0 then (a.toNat + c.toNat + round) / 2
      else (a.toNat + b.toNat + c.toNat + d.toNat + 2 * round) / 4 := by
  have byte_of_lt {n : Nat} (h : n < 256) : (BitVec.ofNat 8 n).toNat = n := by rw [BitVec.toNat_ofNat, Nat.mod_eq_of_lt h]
  by_cases hx : ex = 0
  · by_cases hy : ey = 0
    · simp [interpolate, hx, hy]
    · simp only [interpolate, hx, hy, and_false, if_true, if_false]
      exact byte_of_lt (by omega)
  · by_cases hy : ey = 0
    · simp only [interpolate, hx, hy, false_and, if_true, if_false]
      exact byte_of_lt (by omega)
    · simp only [interpolate, hx, hy, false_and, if_false]
      exact byte_of_lt (by omega)

/-- The source block at a column and a row that exist, when its widened sides stay in the plane (R271). -/
theorem sourceInside_of_le {s : State} {plane sx sy w h ex ey : Nat} (hx : sx + w + ex ≤ s.planeW plane)
    (hy : sy + h + ey ≤ s.planeH plane) : s.sourceInside plane sx sy w h ex ey = true := by
  simp only [State.sourceInside, Bool.and_eq_true, decide_eq_true_eq]
  omega

/-- `MC` on a clear machine whose operands, reference, block and source pass the checks fills the block with its prediction (R271). -/
theorem exec_mc_of_fits {s : State} {k : BitVec 4} {plane : BitVec 2} {sx sy ex ey : Nat} (hf : s.faulted = false)
    (hfr : s.framev = true) (h1 : 1 ≤ k.toNat) (h5 : k.toNat ≤ 5) (hplane : plane ≠ 3#2) (hw : motionSize s.blockW)
    (hh : motionSize s.blockH) (hvalid : s.slotValid (refSlot s.cur k.toNat) = true) (hfit : s.fits plane.toNat s.blockW s.blockH)
    (hex : halfBit (mvOf s.a2).dx = ex) (hey : halfBit (mvOf s.a2).dy = ey)
    (hsx : s.blockX + wholePart (mvOf s.a2).dx = sx) (hsy : s.blockY + wholePart (mvOf s.a2).dy = sy)
    (hsource : s.sourceInside plane.toNat sx sy s.blockW s.blockH ex ey = true) :
    exec (.mc k plane) s = .next (s.writeBlock plane.toNat s.blockX s.blockY s.blockW s.blockH
      (s.predicted roundBias (refSlot s.cur k.toNat) plane.toNat sx sy ex ey)) := by
  have operands_ok : ¬ (k.toNat = 0 ∨ 5 < k.toNat ∨ plane = 3#2 ∨ motionSide s.blockW = false ∨ motionSide s.blockH = false) := by
    simp only [(motionSide_iff _).mpr hw, (motionSide_iff _).mpr hh, hplane, Bool.true_eq_false, or_false]
    omega
  rw [exec, execMc, perform_of_clear hf, mcBody, hex, hey, hsx, hsy, if_neg (by simp [hfr]), if_neg operands_ok,
    if_neg (by simp [hvalid]), if_neg (by simp [inside_of_fits hfit]), if_neg (by simp [hsource])]
  rfl

/-- Settles O35: the checks pass, so the command is one written block of interpolated pixels. -/
theorem mcResult : Obligations.McResult := by
  rintro k plane s dx dy sx sy ex ey ref bias hf hfr h1 h5 hplane hw hh rfl hvalid hfit rfl rfl hex hey hsx hsy hxs hys rfl
  have half_dx : halfBit (mvOf s.a2).dx = ex := Int.ofNat_inj.mp ((halfBit_eq _).trans hex.symm)
  have half_dy : halfBit (mvOf s.a2).dy = ey := Int.ofNat_inj.mp ((halfBit_eq _).trans hey.symm)
  have whole_dx : s.blockX + wholePart (mvOf s.a2).dx = sx := by rw [wholePart_eq]; exact hsx.symm
  have whole_dy : s.blockY + wholePart (mvOf s.a2).dy = sy := by rw [wholePart_eq]; exact hsy.symm
  refine ⟨_, exec_mc_of_fits hf hfr h1 h5 hplane hw hh hvalid hfit half_dx half_dy whole_dx whole_dy (sourceInside_of_le hxs hys),
    rfl, fun slot p r c hs => ⟨fun hin => ?block, pixel_writeBlock_out s _ (plane_lt hplane) hfit hs⟩⟩
  case block =>
    rw [pixel_writeBlock_in s _ (plane_lt hplane) hfit hs hin, hin.2.1]
    exact interpolate_toNat roundBias_le_one ..

end Sys2Proof.Machine

/-! PROOFS. Frame output (45_mcu_motion.md): the bytes `EMIT_FRAME` appends are three rectangles of pixels, one after the other (R280). -/

namespace Sys2Proof.Machine

section
variable {s : State} {slot plane y x : Nat}

/-- How many bytes a plane has (R280). -/
theorem length_planeBytes : (s.planeBytes slot plane).length = s.planeH plane * s.planeW plane := length_rows ..

/-- U starts where Y ends, after one byte a luma pixel (R280). -/
theorem length_lumaBytes : (s.planeBytes slot 0).length = s.width * s.height :=
  length_planeBytes.trans (Nat.mul_comm ..)

/-- Where a plane stands among other bytes, its pixel of row `y`, column `x` is `y` rows and `x` bytes on (R280). -/
theorem getElem?_of_eq_append_planeBytes {bytes before after : List Byte} {start : Nat}
    (hbytes : bytes = before ++ s.planeBytes slot plane ++ after) (hstart : before.length = start) (hy : y < s.planeH plane)
    (hx : x < s.planeW plane) : bytes[start + y * s.planeW plane + x]? = some (s.pixel slot plane y x) := by
  have own : (s.planeBytes slot plane)[y * s.planeW plane + x]? = some (s.pixel slot plane y x) := getElem?_rows _ _ _ _ _ hy hx
  have within := (List.getElem?_eq_some_iff.mp own).1
  rw [hbytes, ← hstart, List.append_assoc, Nat.add_assoc, List.getElem?_append_right (Nat.le_add_right ..), Nat.add_sub_cancel_left,
    List.getElem?_append_left within, own]

/-- A legal frame is four times the size of one of its chroma planes: both its sides are even (R33, R79). -/
theorem width_mul_height_of_legal (hlegal : frameLegal s.frame = true) :
    s.width * s.height = 4 * (s.height / 2 * (s.width / 2)) := by
  simp only [frameLegal, Bool.and_eq_true, decide_eq_true_eq] at hlegal
  obtain ⟨⟨⟨-, width_mod⟩, -⟩, height_mod⟩ := hlegal
  have width_even : s.width = 2 * (s.width / 2) := by
    rw [State.width]
    omega
  have height_even : s.height = 2 * (s.height / 2) := by
    rw [State.height]
    omega
  calc s.width * s.height = 2 * (s.width / 2) * (2 * (s.height / 2)) := by rw [← width_even, ← height_even]
    _ = 4 * (s.height / 2 * (s.width / 2)) := by ring

/-- V starts where U ends: in a legal frame a quarter of the luma plane's size further on (R280, R79). -/
theorem length_lumaBytes_append_chromaBytes (hlegal : frameLegal s.frame = true) :
    (s.planeBytes slot 0 ++ s.planeBytes slot 1).length = s.width * s.height * 5 / 4 := by
  have chroma : (s.planeBytes slot 1).length = s.height / 2 * (s.width / 2) := length_planeBytes
  have size := width_mul_height_of_legal hlegal
  rw [List.length_append, length_lumaBytes, chroma]
  omega

/-- A legal frame is one and a half bytes a pixel (R280). -/
theorem length_frameBytes (hlegal : frameLegal s.frame = true) : (s.frameBytes slot).length = s.width * s.height * 3 / 2 := by
  have chroma : (s.planeBytes slot 2).length = s.height / 2 * (s.width / 2) := length_planeBytes
  have size := width_mul_height_of_legal hlegal
  rw [State.frameBytes, List.length_append, length_lumaBytes_append_chromaBytes hlegal, chroma]
  omega

end

section
variable {s : State} (hf : s.faulted = false)
include hf

/-- `EMIT_FRAME` on a clear machine appends the frame of the newest completed slot (R280, R274). -/
theorem exec_emitFrame_of_valid (hfr : s.framev = true) (hvalid : s.valid.getLsbD ((s.cur.val + 5) % 6) = true) :
    exec .emitFrame s = .next (s.appendOut (s.frameBytes ((s.cur.val + 5) % 6))) := by
  have slot_valid : s.slotValid (refSlot s.cur 1) = true := hvalid
  rw [exec, execEmitFrame, perform_of_clear hf, if_neg (by simp [hfr]), if_neg (by simp [slot_valid])]
  rfl

/-- `EMIT_FRAME` on a clear machine without a completed newest frame raises `RefInvalid(1)` and nothing else (R280). -/
theorem exec_emitFrame_of_refInvalid (hfr : s.framev = true) (hvalid : s.valid.getLsbD ((s.cur.val + 5) % 6) = false) :
    exec .emitFrame s = .next (s.faultedWith .refInvalid 1) := by
  have slot_invalid : s.slotValid (refSlot s.cur 1) = false := hvalid
  rw [exec, execEmitFrame, perform_of_clear hf, if_neg (by simp [hfr]), if_pos slot_invalid, raise_of_clear hf, State.faultedWith]

/-- `EMIT_FRAME` on a clear machine without a geometry raises `NotInitialised` and nothing else (R280). -/
theorem exec_emitFrame_of_notInitialised (hfr : s.framev = false) :
    exec .emitFrame s = .next (s.faultedWith .notInitialised 0) := by
  rw [exec, execEmitFrame, perform_of_clear hf, if_pos hfr, raise_of_clear hf, State.faultedWith]

end

/-- Settles O39: the frame is Y, then U, then V, so that each plane starts where the one before it ends. -/
theorem emitFrameResult : Obligations.EmitFrameResult := by
  intro s hf
  refine ⟨fun hfr hlegal hvalid => ?frame, exec_emitFrame_of_refInvalid hf, exec_emitFrame_of_notInitialised hf⟩
  case frame =>
    refine ⟨_, exec_emitFrame_of_valid hf hfr hvalid, length_frameBytes hlegal, fun y x hy hx => ?luma,
      fun y x hy hx => ⟨?u, ?v⟩⟩
    case luma =>
      have luma_first : s.frameBytes ((s.cur.val + 5) % 6) = [] ++ s.planeBytes _ 0 ++ _ := List.append_assoc ..
      have luma_byte := getElem?_of_eq_append_planeBytes (plane := 0) luma_first List.length_nil hy hx
      rwa [Nat.zero_add] at luma_byte
    case u => exact getElem?_of_eq_append_planeBytes (plane := 1) rfl length_lumaBytes hy hx
    case v =>
      exact getElem?_of_eq_append_planeBytes (plane := 2) (List.append_nil _).symm (length_lumaBytes_append_chromaBytes hlegal) hy hx

end Sys2Proof.Machine

/-! PROOFS. The median and the motion-vector predictor (45_mcu_motion.md): each command writes its registers or raises one early fault
(R282 to R285, R341 a); that the model's `median3` is the numeric median is `isMedian_median3`. -/

namespace Sys2Proof.Machine

/-- The median of three two's-complement numbers is one of them, so it fits their width (R14, R11). -/
theorem isMedian_ofInt_median3 {w : Nat} (a b c : BitVec w) :
    isMedian a.toInt b.toInt c.toInt (BitVec.ofInt w (median3 a.toInt b.toInt c.toInt)).toInt := by
  have median := isMedian_median3 a.toInt b.toInt c.toInt
  have fits : (BitVec.ofInt w (median3 a.toInt b.toInt c.toInt)).toInt = median3 a.toInt b.toInt c.toInt := by
    rcases median.1 with h | h | h <;> rw [h, BitVec.ofInt_toInt]
  rwa [fits]

section
variable {s : State} (hf : s.faulted = false)
include hf

/-- `MVP_RESET` on a clear machine with a geometry leaves `MBW + 1` zero vectors, a zero `ALSAVE` and `INIT.MVPV` (R282). -/
theorem exec_mvpReset (hfr : s.framev = true) : exec .mvpReset s =
    .next { s with mvp := List.replicate (s.mbw + 1) zeroMv, alsave := zeroMv, mvpv := true } := by
  rw [exec, execMvpReset, perform_of_clear hf, if_neg (by simp [hfr])]

/-- `MVP_RESET` on a clear machine without a geometry raises `NotInitialised` and nothing else (R282). -/
theorem exec_mvpReset_of_notInitialised (hfr : s.framev = false) :
    exec .mvpReset s = .next (s.faultedWith .notInitialised 0) := by
  rw [exec, execMvpReset, perform_of_clear hf, if_pos hfr, raise_of_clear hf, State.faultedWith]

/-- `MVP_SET` on a clear machine stores the vector of `A1` at the column of `A0` (R284). -/
theorem exec_mvpSet (hmv : s.mvpv = true) (hcol : s.a0.toNat < s.mbw) :
    exec .mvpSet s = .next { s with mvp := s.mvp.set (s.a0.toNat + 1) (mvOf s.a1) } := by
  rw [exec, execMvpSet, perform_of_clear hf, if_neg (by simp [hmv]), if_neg (Nat.not_le.mpr hcol)]

/-- `MVP_SET` on a clear machine without a predictor array raises `NotInitialised` and nothing else (R284). -/
theorem exec_mvpSet_of_notInitialised (hmv : s.mvpv = false) : exec .mvpSet s = .next (s.faultedWith .notInitialised 0) := by
  rw [exec, execMvpSet, perform_of_clear hf, if_pos hmv, raise_of_clear hf, State.faultedWith]

/-- `MVP_SET` on a clear machine with a column past the frame raises `BadOperand` and nothing else (R284). -/
theorem exec_mvpSet_of_badOperand (hmv : s.mvpv = true) (hcol : s.mbw ≤ s.a0.toNat) :
    exec .mvpSet s = .next (s.faultedWith .badOperand 0) := by
  rw [exec, execMvpSet, perform_of_clear hf, if_neg (by simp [hmv]), if_pos hcol, raise_of_clear hf, State.faultedWith]

/-- `MVP_REFRESH` on a clear machine stores the column's refreshed predictor, returns it and saves the old above vector (R283). -/
theorem exec_mvpRefresh (hmv : s.mvpv = true) (hcol : s.a0.toNat < s.mbw) {left above al : Mv}
    (hleft : s.mvp[s.a0.toNat]? = some left) (habove : s.mvp[s.a0.toNat + 1]? = some above)
    (hal : al = if s.a0.toNat = 0 then zeroMv else s.alsave) :
    exec .mvpRefresh s = .next { s with
      alsave := above
      mvp := s.mvp.set (s.a0.toNat + 1) (medianMv left al above)
      ret0 := (medianMv left al above).dx.signExtend 32
      ret1 := (medianMv left al above).dy.signExtend 32 } := by
  rw [exec, execMvpRefresh, perform_of_clear hf, if_neg (by simp [hmv]), if_neg (Nat.not_le.mpr hcol)]
  simp only [State.refreshed, List.getD_eq_getElem?_getD, hleft, habove, Option.getD_some, ← hal]

/-- `MVP_REFRESH` on a clear machine without a predictor array raises `NotInitialised` and nothing else (R283). -/
theorem exec_mvpRefresh_of_notInitialised (hmv : s.mvpv = false) :
    exec .mvpRefresh s = .next (s.faultedWith .notInitialised 0) := by
  rw [exec, execMvpRefresh, perform_of_clear hf, if_pos hmv, raise_of_clear hf, State.faultedWith]

/-- `MVP_REFRESH` on a clear machine with a column past the frame raises `BadOperand` and nothing else (R283). -/
theorem exec_mvpRefresh_of_badOperand (hmv : s.mvpv = true) (hcol : s.mbw ≤ s.a0.toNat) :
    exec .mvpRefresh s = .next (s.faultedWith .badOperand 0) := by
  rw [exec, execMvpRefresh, perform_of_clear hf, if_neg (by simp [hmv]), if_pos hcol, raise_of_clear hf, State.faultedWith]

/-- `MEDIAN3` on a clear machine writes the median of the signed operands to `RET0` (R285). -/
theorem exec_median3 :
    exec .median3 s = .next { s with ret0 := BitVec.ofInt 32 (median3 s.a0.toInt s.a1.toInt s.a2.toInt) } := by
  rw [exec, execMedian3, perform_of_clear hf, u32, sext32, sext32, sext32]

end

/-- Settles O41: per component the stored vector is the median of the neighbours read, which fits 16 bits. -/
theorem mvpRefreshResult : Obligations.MvpRefreshResult := by
  intro s hf
  refine ⟨fun hmv _ hcol left above al hleft habove hal => ?_, exec_mvpRefresh_of_notInitialised hf, exec_mvpRefresh_of_badOperand hf⟩
  exact ⟨medianMv left al above, isMedian_ofInt_median3 .., isMedian_ofInt_median3 .., exec_mvpRefresh hf hmv hcol hleft habove hal⟩

/-- Settles O42: the median of three words is one of them, so `RET0` holds it without wrapping. -/
theorem median3Result : Obligations.Median3Result := by
  intro s hf
  exact ⟨_, isMedian_ofInt_median3 .., exec_median3 hf⟩

/-- Settles O40: each command is its one write of the predictor array, or the fault of its first failed check. -/
theorem mvpResetAndSet : Obligations.MvpResetAndSet := by
  intro s hf
  exact ⟨exec_mvpReset hf, exec_mvpReset_of_notInitialised hf, exec_mvpSet hf, exec_mvpSet_of_notInitialised hf,
    exec_mvpSet_of_badOperand hf⟩

end Sys2Proof.Machine

/-! PROOFS. The audio decoders (46_apu_adpcm.md): DSP-ADPCM of a silent payload. Over zero bytes the history stays zero: every group names
the zero coefficients and every nibble is 0, so each sample is the rounding term `1024`, shifted out (R312). -/

namespace Sys2Proof.Machine

/-- Reading a constant list gives the constant, past its end too when that is the default. -/
theorem getD_replicate_default {α : Type} (d : α) (n i : Nat) : (List.replicate n d).getD i d = d := by
  rw [List.getD_eq_getElem?_getD, List.getElem?_getD_replicate_default_eq]

/-- A header value of zero bytes is zero in either byte order (R313). -/
theorem int16At_replicate_zero (big : Bool) (n i : Nat) : int16At big (List.replicate n 0#8) i = 0 := by
  simp only [int16At, getD_replicate_default]
  cases big <;> rfl

/-- Both nibbles of a zero byte are zero (R314). -/
theorem nibbleAt_zero (lowFirst : Bool) (i : Nat) : nibbleAt lowFirst 0#8 i = 0 := by
  cases lowFirst <;> simp [nibbleAt]

/-- With a zero history and a zero nibble the sample is zero, whatever the scale and the coefficients (R312). -/
theorem dspSample_silent (scale : Nat) (c1 c2 : Int) : dspSample ⟨scale, c1, c2, 0, 0⟩ 0 = 0 := by
  simp [dspSample, signedNibble, shiftRight, clamp16, clamp]

/-- A part of zero bytes keeps a zero history (R312, R317). -/
theorem dspHistory_replicate_zero (k : DspParams) (n i : Nat) : dspHistory k (List.replicate n 0#8) i = (0, 0) := by
  induction i with
  | zero => simp only [dspHistory, int16At_replicate_zero]
  | succ i ih => simp only [dspHistory, ih, getD_replicate_default, nibbleAt_zero, dspSample_silent]

/-- Zero bytes, enough for a header, are a good part: each group head names pair 0 (R315). -/
theorem dspPartGood_replicate_zero {n : Nat} (hn : 38 ≤ n) : dspPartGood (List.replicate n 0#8) := by
  refine ⟨by rwa [List.length_replicate], fun g b hb => ?_⟩
  obtain rfl : b = 0#8 := List.eq_of_mem_replicate (List.mem_of_getElem? hb)
  decide

/-- One channel has nothing to be levelled with. -/
theorem levelled_singleton (missing : Nat → Nat → Int) (ch : List Int) : levelled missing [ch] = [ch] := by
  simp [levelled]

/-- Zero samples of one channel are zero bytes, two a sample (R302). -/
theorem interleave_replicate_zero (n : Nat) : interleave [List.replicate n 0] n = List.replicate (n * 2) 0#8 := by
  have sample (i : Nat) : sampleBytes ((List.replicate n 0).getD i 0) = List.replicate 2 0#8 := by
    rw [getD_replicate_default]
    rfl
  simp only [interleave, List.flatMap_singleton, sample]
  rw [List.flatMap_def, List.map_const', List.length_range, List.flatten_replicate_replicate]

/-- One channel of zero bytes decodes to zero samples, as many as R316 counts. -/
theorem decodeDsp_replicate_zero (k : DspParams) {n count : Nat} (hn : 38 ≤ n)
    (hcount : dspCount (List.replicate n 0#8) - 32 = count) :
    decodeDsp k (List.replicate n 0#8) 1 = .ok (List.replicate (count * 2) 0#8, count) := by
  have hch : dspChannels k [List.replicate n 0#8] = .ok [List.replicate count 0] := by
    rw [dspChannels_good (by simpa using dspPartGood_replicate_zero hn)]
    simp [dspHistory_replicate_zero, hcount]
  rw [decodeDsp, if_neg (by simp [Nat.mod_one]), dspParts, if_pos rfl, hch]
  simp only [Except.map, levelled_singleton, decoded, List.getD_cons_zero, List.length_replicate, interleave_replicate_zero]

/-- `ADEC codec=2` on a clear machine, with a channel at least, is DSP-ADPCM of the payload (R301, R303). -/
theorem exec_adec_dsp {s : State} (hf : s.faulted = false) {chan : BitVec 8} (hchan : chan ≠ 0#8) :
    exec (.adec 2#4 chan) s = .next (finishAudio (decodeDsp Config.dsp s.payload chan.toNat) s.afterPayload) := by
  rw [exec, execAdec, perform_of_clear hf, adecBody, if_neg (by decide), if_neg (by decide), if_neg hchan, decodeCodec,
    if_neg (by decide), if_neg (by decide)]

/-- The payload of a source whose bytes from `POS` to `LEN` are zero (R300). -/
theorem payload_eq_replicate_zero {s : State} {n : Nat} (hpos : s.pos = 0#32) (hlen : s.len.toNat = n)
    (hzero : ∀ a < n, s.sourceByte a = 0#8) : s.payload = List.replicate n 0#8 := by
  rw [State.payload, hpos, hlen, List.eq_replicate_iff]
  refine ⟨by simp, fun b hb => ?_⟩
  obtain ⟨i, hi, rfl⟩ := List.mem_map.mp hb
  simpa using hzero i (by simpa using hi)

/-- `ADEC codec=2, chan=1` on zero bytes from the source's start to its end, enough for a header: as many zero samples as R316 counts,
at the end of `OUT`, and `POS` at `LEN` (R301, R317). -/
theorem exec_adec_dsp_silent {s : State} (hf : s.faulted = false) {n count : Nat} (hpos : s.pos = 0#32) (hlen : s.len.toNat = n)
    (hzero : ∀ a < n, s.sourceByte a = 0#8) (hn : 38 ≤ n) (hcount : dspCount (List.replicate n 0#8) - 32 = count) :
    exec (.adec 2#4 1#8) s = .next { s with
      pos := s.len.setWidth 32
      out := s.out ++ List.replicate (count * 2) 0#8
      outcnt := s.outcnt + BitVec.ofNat 32 (count * 2)
      ret0 := BitVec.ofNat 32 count } := by
  rw [exec_adec_dsp hf (by decide), payload_eq_replicate_zero hpos hlen hzero, show (1#8).toNat = 1 from rfl,
    decodeDsp_replicate_zero _ hn hcount]
  simp only [finishAudio, State.afterPayload, State.appendOut, List.length_replicate]

/-- Settles O49: 165 body bytes are 20 groups and 5 bytes, 288 samples, which are 256 without the warm-up. -/
theorem dspSilentPayload : Obligations.DspSilentPayload := by
  intro s hf hpos hlen hzero
  have count : dspCount (List.replicate 203 0#8) - 32 = 256 := by rw [dspCount, List.length_replicate]
  have run := exec_adec_dsp_silent hf hpos (by rw [hlen]; rfl) hzero (by decide) count
  simpa only [hlen, Nat.reduceMul, BitVec.reduceSetWidth] using run

end Sys2Proof.Machine

/-! PROOFS. Reset (70_reset_and_hazards.md): the machine at reset and every reset machine hold the same values of R50's table, and
`STATUS` follows from the fault word and the cursor (R25, R370). -/

namespace Sys2Proof.Machine

/-- No fault, the cursor at the end of the source and `BITPOS` 0 are `EOS` and `ALIGNED` alone in `STATUS` (R25). -/
theorem regRead_status_of_aligned_end {s : State} (hfault : s.fault = 0#32) (hend : s.len.toNat ≤ s.pos.toNat)
    (hbitpos : s.bitpos = 0#4) : s.regRead .word 0x04 = 6#32 := by
  have clear : s.faulted = false := (faulted_eq_false_iff s).mpr hfault
  have eos : s.eos = true := decide_eq_true hend
  have aligned : s.aligned = true := by simp [State.aligned, hbitpos]
  change s.statusWord = 6#32
  rw [State.statusWord, clear, eos, aligned]
  decide

/-- The machine at reset has the values of R50's table (R370). -/
theorem reset_atReset : AtReset State.reset where
  cursor := ⟨rfl, rfl⟩
  control := ⟨rfl, rfl, rfl, rfl⟩
  clear := ⟨rfl, rfl, rfl⟩
  quant := ⟨rfl, rfl⟩
  ring := ⟨rfl, rfl⟩
  init := ⟨rfl, rfl, rfl, rfl⟩
  status := regRead_status_of_aligned_end rfl le_rfl rfl

/-- What `toReset` keeps of the machine is nothing R50's table names: its values are those at reset (R50, R345). -/
theorem toReset_atReset (s : State) : AtReset s.toReset :=
  have ⟨cursor, control, clear, quant, ring, init, status⟩ := reset_atReset
  ⟨cursor, control, clear, quant, ring, init, status⟩

/-- Settles O50: both resets end in `toReset` of the state, a faulted one too, which keeps the source's bytes and the tables. -/
theorem resetLeaves : Obligations.ResetLeaves := by
  refine ⟨reset_atReset, fun s => ⟨⟨s.toReset, ?resetUnit, toReset_atReset s, s.toReset_source, s.toReset_rom⟩,
    ⟨s.toReset, ?hardReset, toReset_atReset s, s.toReset_source, s.toReset_rom⟩⟩⟩
  case resetUnit => rw [exec, execResetUnit]
  case hardReset => rw [hostMove]

end Sys2Proof.Machine

/-! PROOFS. Decoding (30_encoding.md part 1): a word is an opcode and an immediate, each opcode names one row of the opcode map, and a
row's immediate is made of its fields exactly when the format's must-be-zero bits are zero (R100, R101, R104, R111). -/

namespace Sys2Proof

/-! A command word and its two fields. -/

theorem opField_commandWord (op : BitVec 8) (imm : BitVec 24) : opField (commandWord op imm) = op :=
  BitVec.extractLsb'_append_eq_left

theorem immField_commandWord (op : BitVec 8) (imm : BitVec 24) : immField (commandWord op imm) = imm :=
  BitVec.extractLsb'_append_eq_right

theorem commandWord_fields (w : Word) : commandWord (opField w) (immField w) = w :=
  BitVec.extractLsb'_append_extractLsb'_eq_extractLsb' (by rfl) |>.trans (BitVec.extractLsb'_eq_self ..)

/-- Two words are one when both fields agree. -/
theorem commandWord_inj {op op' : BitVec 8} {imm imm' : BitVec 24} :
    commandWord op imm = commandWord op' imm' ↔ op = op' ∧ imm = imm' := by
  refine ⟨fun h => ?_, fun ⟨hop, himm⟩ => by rw [hop, himm]⟩
  have hop := congrArg opField h
  have himm := congrArg immField h
  rw [opField_commandWord, opField_commandWord] at hop
  rw [immField_commandWord, immField_commandWord] at himm
  exact ⟨hop, himm⟩

/-! The formats: an immediate made of fields has no must-be-zero bit set and gives them back, and every immediate without such a bit is
made of its fields (R101). Formats N, T and A have their fields in the low bits, below the must-be-zero bits. -/

theorem zero_append_and_high {m k : Nat} (low : BitVec k) : (0#m ++ low) &&& (BitVec.allOnes m ++ 0#k) = 0#(m + k) := by
  rw [BitVec.and_append, BitVec.zero_and, BitVec.and_zero, BitVec.zero_append_zero]

theorem zero_append_low_of_and_high {m k : Nat} {imm : BitVec (m + k)} (h : imm &&& (BitVec.allOnes m ++ 0#k) = 0#(m + k)) :
    0#m ++ imm.extractLsb' 0 k = imm := by
  have split : imm.extractLsb' k m ++ imm.extractLsb' 0 k = imm := BitVec.extractLsb'_append_extractLsb'
  have high_zero : imm.extractLsb' k m = 0#m := by
    rw [← split, BitVec.and_append, BitVec.and_allOnes] at h
    simpa [BitVec.extractLsb'_append_eq_left] using congrArg (·.extractLsb' k m) h
  rw [← high_zero, split]

theorem immN_and_mbzN (n : BitVec 6) : immN n &&& mbzN = 0#24 := zero_append_and_high (m := 18) n

theorem nField_immN (n : BitVec 6) : nField (immN n) = n := BitVec.extractLsb'_append_eq_right

theorem immN_nField {imm : BitVec 24} (h : imm &&& mbzN = 0#24) : immN (nField imm) = imm :=
  zero_append_low_of_and_high (m := 18) (k := 6) h

theorem immT_and_mbzT (t : BitVec 8) : immT t &&& mbzT = 0#24 := zero_append_and_high (m := 16) t

theorem tField_immT (t : BitVec 8) : tField (immT t) = t := BitVec.extractLsb'_append_eq_right

theorem immT_tField {imm : BitVec 24} (h : imm &&& mbzT = 0#24) : immT (tField imm) = imm :=
  zero_append_low_of_and_high (m := 16) (k := 8) h

theorem immK_and_mbzN (sel : BitVec 4) (plane : BitVec 2) : immK sel plane &&& mbzN = 0#24 := immN_and_mbzN (plane ++ sel)

theorem selField_immK (sel : BitVec 4) (plane : BitVec 2) : selField (immK sel plane) = sel := by
  rw [selField, immK, BitVec.extractLsb'_append_eq_of_add_le (by decide), BitVec.extractLsb'_append_eq_right]

theorem planeField_immK (sel : BitVec 4) (plane : BitVec 2) : planeField (immK sel plane) = plane := by
  rw [planeField, immK, BitVec.extractLsb'_append_eq_of_add_le (by decide), BitVec.extractLsb'_append_eq_left]

theorem immK_fields {imm : BitVec 24} (h : imm &&& mbzN = 0#24) : immK (selField imm) (planeField imm) = imm := by
  have fields : planeField imm ++ selField imm = nField imm := BitVec.extractLsb'_append_extractLsb'_eq_extractLsb' (by rfl)
  exact (congrArg immN fields).trans (immN_nField h)

theorem immA_and_mbzA (codec : BitVec 4) (chan : BitVec 8) : immA codec chan &&& mbzA = 0#24 :=
  zero_append_and_high (m := 12) (chan ++ codec)

theorem codecField_immA (codec : BitVec 4) (chan : BitVec 8) : codecField (immA codec chan) = codec := by
  rw [codecField, immA, BitVec.extractLsb'_append_eq_of_add_le (by decide), BitVec.extractLsb'_append_eq_right]

theorem chanField_immA (codec : BitVec 4) (chan : BitVec 8) : chanField (immA codec chan) = chan := by
  rw [chanField, immA, BitVec.extractLsb'_append_eq_of_add_le (by decide), BitVec.extractLsb'_append_eq_left]

theorem immA_fields {imm : BitVec 24} (h : imm &&& mbzA = 0#24) : immA (codecField imm) (chanField imm) = imm := by
  have fields : chanField imm ++ codecField imm = imm.extractLsb' 0 12 := BitVec.extractLsb'_append_extractLsb'_eq_extractLsb' (by rfl)
  rw [immA, fields]
  exact zero_append_low_of_and_high (m := 12) (k := 12) h

/-! The opcode map. -/

/-- No opcode has two rows (R104). -/
theorem row_eq_of_op_eq {r q : Row} (hr : r ∈ rows) (hq : q ∈ rows) (h : r.op = q.op) : r = q :=
  List.inj_on_of_nodup_map (f := Row.op) (by decide) hr hq h

/-- What a row builds of an immediate without a must-be-zero bit is the command of that word (R101, R104). -/
def Row.Encodes (r : Row) : Prop := ∀ imm, imm &&& r.mbz = 0#24 → encode (r.build imm) = commandWord r.op imm

theorem encodes_formatZ (i : Instr) {op : BitVec 8} (hi : encode i = commandWord op 0#24) : Row.Encodes ⟨op, mbzZ, fun _ => i⟩ := by
  intro imm h
  have imm_zero : imm = 0#24 := BitVec.and_allOnes.symm.trans h
  rw [imm_zero]
  exact hi

theorem encodes_formatN (f : BitVec 6 → Instr) {op : BitVec 8} (hf : ∀ n, encode (f n) = commandWord op (immN n)) :
    Row.Encodes ⟨op, mbzN, fun imm => f (nField imm)⟩ :=
  fun imm h => (hf (nField imm)).trans (congrArg _ (immN_nField h))

theorem encodes_formatK (f : BitVec 4 → BitVec 2 → Instr) {op : BitVec 8}
    (hf : ∀ sel plane, encode (f sel plane) = commandWord op (immK sel plane)) :
    Row.Encodes ⟨op, mbzN, fun imm => f (selField imm) (planeField imm)⟩ :=
  fun imm h => (hf (selField imm) (planeField imm)).trans (congrArg _ (immK_fields h))

theorem encodes_popVlc : Row.Encodes ⟨0x18#8, mbzT, fun imm => .popVlc (tField imm)⟩ :=
  fun _ h => congrArg (commandWord _) (immT_tField h)

theorem encodes_adec : Row.Encodes ⟨0x50#8, mbzA, fun imm => .adec (codecField imm) (chanField imm)⟩ :=
  fun _ h => congrArg (commandWord _) (immA_fields h)

theorem encodes_of_mem_rowsBsu : ∀ r ∈ rowsBsu, r.Encodes := by
  simp only [rowsBsu, List.forall_mem_cons]
  exact ⟨encodes_formatZ .readU8 rfl, fun _ _ => rfl, encodes_formatZ .resetBits rfl, encodes_formatZ .seek rfl,
    encodes_formatZ .popBit rfl, encodes_formatN .popInt fun _ => rfl, encodes_formatN .popSint fun _ => rfl,
    encodes_formatZ .popLength rfl, encodes_formatZ .popUe rfl, encodes_formatZ .popSe rfl, encodes_popVlc, List.forall_mem_nil _⟩

theorem encodes_of_mem_rowsVideo : ∀ r ∈ rowsVideo, r.Encodes := by
  simp only [rowsVideo, List.forall_mem_cons]
  exact ⟨encodes_formatN .setQuant fun _ => rfl, encodes_formatZ .addQuant rfl, encodes_formatN .setDcttab fun _ => rfl,
    encodes_formatK .coef fun _ _ => rfl, encodes_formatK .ipred fun _ _ => rfl, encodes_formatZ .pmodeReset rfl,
    encodes_formatK .ipredP fun _ _ => rfl, List.forall_mem_nil _⟩

theorem encodes_of_mem_rowsRest : ∀ r ∈ rowsRest, r.Encodes := by
  simp only [rowsRest, List.forall_mem_cons]
  exact ⟨encodes_formatK .mc fun _ _ => rfl, encodes_formatZ .rotate rfl, encodes_formatZ .emitFrame rfl, encodes_formatZ .mvpReset rfl,
    encodes_formatZ .mvpRefresh rfl, encodes_formatZ .mvpSet rfl, encodes_formatZ .median3 rfl, encodes_adec,
    encodes_formatZ .resetUnit rfl, List.forall_mem_nil _⟩

theorem encodes_of_mem_rows {r : Row} (hr : r ∈ rows) : r.Encodes := by
  rcases List.mem_append.mp hr with hr | hr
  · rcases List.mem_append.mp hr with hr | hr
    · exact encodes_of_mem_rowsBsu r hr
    · exact encodes_of_mem_rowsVideo r hr
  · exact encodes_of_mem_rowsRest r hr

/-- A word whose opcode no row has is rejected with the opcode (R110, R111 test 2). -/
theorem decode_of_unknown {w : Word} (h : ∀ r ∈ rows, r.op ≠ opField w) : decode w = .error (.illegalCommand (opField w)) := by
  have none : rows.find? (fun r => r.op == opField w) = none := List.find?_eq_none.mpr fun r hr => by simpa using h r hr
  rw [decode, none]

/-- A word whose opcode a row has decodes by that row, if its must-be-zero bits are zero (R111 test 3). -/
theorem decode_of_row {w : Word} {r : Row} (hr : r ∈ rows) (hop : r.op = opField w) :
    decode w = if immField w &&& r.mbz = 0#24 then .ok (r.build (immField w)) else .error .badOperand := by
  cases hfind : rows.find? (fun r => r.op == opField w) with
  | none => exact absurd (List.find?_eq_none.mp hfind r hr) (by simp [hop])
  | some q =>
    have hq : q.op = opField w := by simpa using List.find?_some hfind
    rw [decode, hfind, row_eq_of_op_eq hr (List.mem_of_find?_eq_some hfind) (hop.trans hq.symm)]

/-- Every word that decodes is the word of its command (R100, R130). -/
theorem eq_encode_of_decode {w : Word} {i : Instr} (h : decode w = .ok i) : w = encode i := by
  by_cases known : ∃ r ∈ rows, r.op = opField w
  · obtain ⟨r, hr, hop⟩ := known
    rw [decode_of_row hr hop] at h
    split at h
    · next hz =>
      obtain rfl : r.build (immField w) = i := by injection h
      rw [encodes_of_mem_rows hr _ hz, hop, commandWord_fields]
    · cases h
  · rw [decode_of_unknown fun r hr hop => known ⟨r, hr, hop⟩] at h
    cases h

/-- The word a row makes of an immediate without a must-be-zero bit decodes to the command the row builds of it (R111). -/
theorem decode_commandWord {op : BitVec 8} {imm : BitVec 24} {r : Row} {i : Instr}
    (hr : rows.find? (fun r => r.op == op) = some r) (hz : imm &&& r.mbz = 0#24) (hi : r.build imm = i) :
    decode (commandWord op imm) = .ok i := by
  rw [decode, opField_commandWord, hr, immField_commandWord, ← hi]
  exact if_pos hz

/-- Every command decodes from its own word (R100, R130). -/
theorem decode_encode (i : Instr) : decode (encode i) = .ok i := by
  cases i with
  | readBytes cnt => exact decode_commandWord (r := ⟨0x02#8, mbzC, _⟩) rfl (BitVec.and_zero (x := cnt)) rfl
  | popInt n => exact decode_commandWord rfl (immN_and_mbzN n) (congrArg Instr.popInt (nField_immN n))
  | popSint n => exact decode_commandWord rfl (immN_and_mbzN n) (congrArg Instr.popSint (nField_immN n))
  | popVlc t => exact decode_commandWord rfl (immT_and_mbzT t) (congrArg Instr.popVlc (tField_immT t))
  | setQuant q => exact decode_commandWord rfl (immN_and_mbzN q) (congrArg Instr.setQuant (nField_immN q))
  | setDcttab n => exact decode_commandWord rfl (immN_and_mbzN n) (congrArg Instr.setDcttab (nField_immN n))
  | coef sel plane =>
    exact decode_commandWord rfl (immK_and_mbzN sel plane)
      (congrArg₂ Instr.coef (selField_immK sel plane) (planeField_immK sel plane))
  | ipred sel plane =>
    exact decode_commandWord rfl (immK_and_mbzN sel plane)
      (congrArg₂ Instr.ipred (selField_immK sel plane) (planeField_immK sel plane))
  | ipredP sel plane =>
    exact decode_commandWord rfl (immK_and_mbzN sel plane)
      (congrArg₂ Instr.ipredP (selField_immK sel plane) (planeField_immK sel plane))
  | mc sel plane =>
    exact decode_commandWord rfl (immK_and_mbzN sel plane)
      (congrArg₂ Instr.mc (selField_immK sel plane) (planeField_immK sel plane))
  | adec codec chan =>
    exact decode_commandWord rfl (immA_and_mbzA codec chan)
      (congrArg₂ Instr.adec (codecField_immA codec chan) (chanField_immA codec chan))
  | _ => rfl

/-- Settles O2: a word that decodes is the word of its command, and every command decodes from its own word. -/
theorem decodeEncodeAgree : Obligations.DecodeEncodeAgree := by
  intro i w
  exact ⟨eq_encode_of_decode, fun h => h ▸ decode_encode i⟩

end Sys2Proof

namespace Sys2Proof.Machine

/-- The opcode map of the claims is that of the decoder (R101, R104). -/
theorem opcodeMap_eq : opcodeMap = rows.map fun r => (r.op, r.mbz) := rfl

/-- No opcode stands twice in the opcode map (R104). -/
theorem opcodeMap_eq_of_op_eq {r q : BitVec 8 × BitVec 24} (hr : r ∈ opcodeMap) (hq : q ∈ opcodeMap) (h : r.1 = q.1) : r = q :=
  List.inj_on_of_nodup_map (f := Prod.fst) (by decide) hr hq h

/-- A word whose opcode is not in the map is rejected with the opcode (R110). -/
theorem decode_of_not_mem_opcodeMap {w : Word} (h : ∀ r ∈ opcodeMap, r.1 ≠ opField w) :
    decode w = .error (.illegalCommand (opField w)) := by
  rw [opcodeMap_eq, List.forall_mem_map] at h
  exact decode_of_unknown h

/-- A word whose opcode is in the map, with a must-be-zero bit set, is rejected as `BadOperand` (R111 test 3). -/
theorem decode_of_mbz_ne_zero {w : Word} {r : BitVec 8 × BitVec 24} (hr : r ∈ opcodeMap) (hop : r.1 = opField w)
    (hz : immField w &&& r.2 ≠ 0#24) : decode w = .error .badOperand := by
  obtain ⟨row, hrow, rfl⟩ := List.mem_map.mp (opcodeMap_eq ▸ hr)
  rw [decode_of_row hrow hop]
  exact if_neg hz

/-- A word whose opcode is in the map, with no must-be-zero bit set, is some command's (R111). -/
theorem decode_of_mbz_eq_zero {w : Word} {r : BitVec 8 × BitVec 24} (hr : r ∈ opcodeMap) (hop : r.1 = opField w)
    (hz : immField w &&& r.2 = 0#24) : ∃ i, decode w = .ok i := by
  obtain ⟨row, hrow, rfl⟩ := List.mem_map.mp (opcodeMap_eq ▸ hr)
  rw [decode_of_row hrow hop]
  exact ⟨_, if_pos hz⟩

/-- Which words decode (R111). -/
theorem decode_ok_iff (w : Word) : (∃ i, decode w = .ok i) ↔ ∃ r ∈ opcodeMap, r.1 = opField w ∧ immField w &&& r.2 = 0#24 := by
  refine ⟨fun ⟨i, hi⟩ => ?_, fun ⟨r, hr, hop, hz⟩ => decode_of_mbz_eq_zero hr hop hz⟩
  by_cases known : ∃ r ∈ opcodeMap, r.1 = opField w
  · obtain ⟨r, hr, hop⟩ := known
    refine ⟨r, hr, hop, by_contra fun hz => ?_⟩
    rw [decode_of_mbz_ne_zero hr hop hz] at hi
    cases hi
  · rw [decode_of_not_mem_opcodeMap fun r hr hop => known ⟨r, hr, hop⟩] at hi
    cases hi

/-- `(c & mask) == match` of a row says that the word has the row's opcode and none of its must-be-zero bits (R101, R111). -/
theorem and_mask_eq_match_iff (w : Word) (r : BitVec 8 × BitVec 24) :
    w &&& (0xFF#8 ++ r.2) = r.1 ++ 0#24 ↔ r.1 = opField w ∧ immField w &&& r.2 = 0#24 := by
  have masked : w &&& (0xFF#8 ++ r.2) = commandWord (opField w) (immField w &&& r.2) := calc
    w &&& (0xFF#8 ++ r.2) = (opField w ++ immField w) &&& (BitVec.allOnes 8 ++ r.2) := congrArg (· &&& _) (commandWord_fields w).symm
    _ = _ := by rw [BitVec.and_append, BitVec.and_allOnes, commandWord]
  rw [masked, show r.1 ++ 0#24 = commandWord r.1 0#24 from rfl, commandWord_inj, eq_comm (a := opField w)]

/-- Settles O3: the rows' tests are the decoder's, and a word has one opcode. -/
theorem decodeSelectsRow : Obligations.DecodeSelectsRow := by
  refine ⟨fun w => ?_, fun w => ?_⟩
  · simp only [decode_ok_iff, opcodeTable, List.mem_map, exists_exists_and_eq_and, and_mask_eq_match_iff]
  · rw [opcodeTable, List.forall_mem_map]
    intro r hr
    rw [List.forall_mem_map]
    intro q hq
    rw [and_mask_eq_match_iff, and_mask_eq_match_iff]
    rintro ⟨hop, -⟩ ⟨hop', -⟩
    rw [opcodeMap_eq_of_op_eq hr hq (hop.trans hop'.symm)]

/-- Every command answers a next state, in every state (R100, R340). -/
theorem exec_next (i : Instr) (s : State) : ∃ t, exec i s = .next t := by
  cases i <;> exact ⟨_, rfl⟩

/-- While faulted a command other than `RESET_UNIT` changes nothing (R342). -/
theorem exec_of_faulted {i : Instr} {s : State} (hi : i ≠ .resetUnit) (hf : s.faulted = true) : exec i s = .next s := by
  obtain ⟨t, ht⟩ := exec_next i s
  rcases exec_cases ht with ⟨-, -, rfl⟩ | ⟨clear | reset, -⟩
  · exact ht
  · simp [hf] at clear
  · exact absurd reset hi

/-- While faulted a word that is no command changes nothing (R342, R345). -/
theorem reject_of_faulted {s : State} (hf : s.faulted = true) (r : Reject) : s.reject r = s := by
  cases r <;> exact raise_of_faulted hf ..

/-- While faulted a word that is not that of `RESET_UNIT` changes nothing (R342, R345). -/
theorem command_of_faulted {w : Word} {s : State} (hw : w ≠ 0xF0000000#32) (hf : s.faulted = true) : command w s = .next s := by
  cases hd : decode w with
  | error r => rw [command_of_reject hd, reject_of_faulted hf]
  | ok i =>
    have not_reset : i ≠ .resetUnit := fun hi => hw (by rw [eq_encode_of_decode hd, hi]; rfl)
    rw [command_of_decode hd, exec_of_faulted not_reset hf]

/-- Settles O4: the tests of R111 in their order, the first that fails being the word's outcome. -/
theorem decodingOrder : Obligations.DecodingOrder := by
  intro w s
  refine ⟨fun hf hop => ?refused, fun hf hunknown => ?illegal, fun r hr hop hz => ?mustBeZero, fun r hr hop hz => ?runs,
    fun hf n => ⟨exec_popInt_of_badOperand hf, exec_popSint_of_badOperand hf, exec_setDcttab_of_badOperand hf⟩⟩
  case refused => exact command_of_faulted (fun hw => hop (by rw [hw]; decide)) hf
  case illegal =>
    rw [command_of_reject (decode_of_not_mem_opcodeMap hunknown), State.reject, raise_of_clear hf]
    rfl
  case mustBeZero =>
    rw [command_of_reject (decode_of_mbz_ne_zero hr hop hz)]
    rfl
  case runs =>
    obtain ⟨i, hi⟩ := decode_of_mbz_eq_zero hr hop hz
    exact ⟨i, (eq_encode_of_decode hi).symm, command_of_decode hi s⟩

/-- Settles O1: each word's opcode, must-be-zero bits and fields, read off by the decoder (R101, R104). -/
theorem specWordsDecode : Obligations.SpecWordsDecode := by
  unfold Obligations.SpecWordsDecode
  decide

/-- Settles O8: the next move is taken off the queue and, being a command word that decodes, runs as its command. -/
theorem stepRunsDecodedCommand : Obligations.StepRunsDecodedCommand := by
  intro s w rest i hw
  have runs (u : State) (rest : List HostMove) (hu : u.script = .write .word 0 w :: rest) :
      step u = exec i { u with script := rest } := by
    rw [step_of_command hu, command_of_decode hw]
  refine ⟨runs s rest, fun nbits => ?_⟩
  have issued : (s.withFetchWord nbits w.toNat).script = .write .word 0 w :: s.script := by
    rw [State.withFetchWord, BitVec.ofNat_toNat, BitVec.setWidth_eq, State.issue_script]
  exact runs _ _ issued

end Sys2Proof.Machine

/-! PROOFS. The invariant (10_state.md sections 5 and 6): the machine at reset meets it, and each operation a step is made of keeps it, so
every end of a command and every move of the host does. -/

namespace Sys2Proof.Machine

theorem windowWidth_pos (w16 : Bool) : 0 < windowWidth w16 := by cases w16 <;> decide

/-- A window of 8 bits holds nothing above bit 7 (R31). -/
theorem windowBits_lt (v : BitVec 16) : (windowBits false v).toNat < 256 := by
  simp only [windowBits, Bool.false_eq_true, if_false, BitVec.toNat_and]
  exact Nat.lt_of_le_of_lt Nat.and_le_right (by decide)

/-- Every fault but the three reserved for the host's demultiplexer has a code MBD raises (R331). -/
theorem code_mem_faultCodes {f : FaultKind} (h : f ∉ [.unsupportedFormat, .malformedChunk, .malformedPacket]) :
    f.code.toNat ∈ faultCodes := by
  revert h
  cases f <;> decide

/-- No command raises a fault reserved for the host's demultiplexer (R332). -/
theorem code_mem_faultCodes_of_mem_faultsOf {i : Instr} {f : FaultKind} (h : f ∈ faultsOf i) : f.code.toNat ∈ faultCodes := by
  refine code_mem_faultCodes fun reserved => ?_
  simp only [List.mem_cons, List.not_mem_nil, or_false] at reserved
  rcases reserved with rfl | rfl | rfl <;> cases i <;> simp [faultsOf] at h

/-- Settles O59: at reset the memories are empty, no `INIT` bit is set and no slot is valid. -/
theorem resetInv : Obligations.ResetInv where
  planesWf := rfl
  sourceWf := rfl
  bitposLt := by decide
  winBits _ := by decide
  curInvalid := rfl
  validFrame _ := rfl
  frameLegal := rfl
  mvpFrame := nofun
  pmcFrame := nofun
  outCount := rfl
  takenLe := le_rfl
  faultCode := by decide
  quantTables _ := nofun
  mvpShape _ := nofun
  pmcShape _ := nofun

namespace Invariant

variable {s : State}

/-! The operations on the state. -/

/-- Reset keeps the bytes of the source, whose form the state before must have had (R50). -/
theorem toReset (h : Invariant s) : Invariant s.toReset := { resetInv with sourceWf := h.sourceWf }

theorem faulted_withFault (s : State) (f : FaultKind) (info : Int) : ({ s with fault := faultWord f info } : State).faulted ≠ false := by
  simp [State.faulted, faultWord_ne_zero]

/-- A machine with a fault word of a code MBD raises: what is claimed only of an unfaulted machine is not claimed of it. -/
theorem withFault (h : Invariant s) {f : FaultKind} (hf : f.code.toNat ∈ faultCodes) (info : Int) :
    Invariant { s with fault := faultWord f info } := by
  have stuck := faulted_withFault s f info
  exact { h with
    faultCode := (faultWord_code f info).symm ▸ hf
    quantTables := fun clear => absurd clear stuck
    mvpShape := fun clear => absurd clear stuck
    pmcShape := fun clear => absurd clear stuck }

theorem raise (h : Invariant s) {f : FaultKind} (hf : f.code.toNat ∈ faultCodes) (info : Int) : Invariant (s.raise f info) := by
  rw [State.raise]
  split
  · exact h
  · exact h.withFault hf info

/-- What R341 leaves of the state keeps the bounds of R30 and R31; the rest is not claimed of a faulted machine. -/
theorem raiseLate (h : Invariant s) {f : FaultKind} (hf : f.code.toNat ∈ faultCodes) (info : Int) : Invariant (s.raiseLate f info) := by
  rw [State.raiseLate]
  split
  · exact h
  · have stuck := faulted_withFault s.scramble f info
    exact { h.withFault hf info with
      planesWf := rfl
      bitposLt := by
        have := Nat.mod_lt (Config.residue s.draws).bitpos (windowWidth_pos s.w16)
        rcases windowWidth_cases s.w16 with hw | hw <;> simp only [State.scramble, hw, BitVec.toNat_ofNat] at this ⊢ <;> omega
      winBits := fun w8 => by
        rw [State.scramble_w16] at w8
        simp only [State.scramble, w8]
        exact windowBits_lt _
      quantTables := fun clear => absurd clear stuck
      mvpShape := fun clear => absurd clear stuck
      pmcShape := fun clear => absurd clear stuck }

theorem setBsu (h : Invariant s) {b : Bsu} (hb : Keeps s.src s.bsu b) : Invariant (s.setBsu b) :=
  { h with bitposLt := hb.1 h.bitposLt, winBits := fun w8 => hb.2 w8 (h.winBits w8) }

theorem appendOut (h : Invariant s) (bs : List Byte) : Invariant (s.appendOut bs) :=
  { h with
    outCount := by rw [State.appendOut_outcnt, State.appendOut_out, h.outCount, List.length_append, BitVec.ofNat_add]
    takenLe := by
      rw [State.appendOut_out, List.length_append]
      exact Nat.le_add_right_of_le h.takenLe }

theorem loadQuant (h : Invariant s) (q : BitVec 6) : Invariant { s.loadQuant q with qv := true } :=
  { h with quantTables := fun _ _ => ⟨rfl, rfl⟩ }

theorem writeBlock (h : Invariant s) (p x y w v : Nat) (f : Nat → Nat → Byte) : Invariant (s.writeBlock p x y w v f) :=
  { h with planesWf := writeCells_wf h.planesWf .. }

/-- Storing a vector at a column keeps the array's length and its left border (R45, R283, R284). -/
theorem setMvp (h : Invariant s) (k : Nat) (p : Mv) : Invariant { s with mvp := s.mvp.set (k + 1) p } :=
  have border_kept : (s.mvp.set (k + 1) p).getD 0 zeroMv = s.mvp.getD 0 zeroMv := by
    rw [List.getD_eq_getElem?_getD, List.getElem?_set_ne (Nat.succ_ne_zero k), List.getD_eq_getElem?_getD]
  { h with mvpShape := fun clear hmv =>
      have ⟨length, border⟩ := h.mvpShape clear hmv
      ⟨(List.length_set ..).trans length, border_kept.trans border⟩ }

end Invariant

/-- One bit of `VALID` is that slot's only (R34). -/
theorem getLsbD_slotBit : ∀ k < 6, ∀ slot < 6, (slotBit k).getLsbD slot = (slot == k) := by decide

/-- `VALID` after `ROTATE` (R279). -/
theorem getLsbD_rotated (valid : BitVec 6) (cur : Fin 6) {slot : Nat} (hslot : slot < 6) :
    ((valid ||| slotBit cur.val) &&& ~~~(slotBit (nextSlot cur).val)).getLsbD slot =
      ((slot == cur.val || valid.getLsbD slot) && slot != (nextSlot cur).val) := by
  simp only [BitVec.getLsbD_and, BitVec.getLsbD_or, BitVec.getLsbD_not, getLsbD_slotBit _ cur.isLt _ hslot,
    getLsbD_slotBit _ (nextSlot cur).isLt _ hslot, hslot, decide_true, Bool.true_and, bne, Bool.or_comm]

theorem Invariant.rotate {s : State} (h : Invariant s) (hfr : s.framev = true) : Invariant { s with
    cur := nextSlot s.cur
    valid := (s.valid ||| slotBit s.cur.val) &&& ~~~(slotBit (nextSlot s.cur).val) } :=
  { h with
    curInvalid := by
      change BitVec.getLsbD _ (nextSlot s.cur).val = false
      rw [getLsbD_rotated _ _ (nextSlot s.cur).isLt]
      simp
    validFrame := fun no_frame => absurd (hfr.symm.trans no_frame) nofun }

/-- A command that completes keeps the invariant. -/
theorem Invariant.of_done {i : Instr} {s t : State} (h : Invariant s) (hd : Done i s t) : Invariant t := by
  cases i with
  | readU8 => obtain ⟨p, v, rfl⟩ := hd; exact { h with }
  | readBytes => obtain ⟨p, bs, rfl⟩ := hd; exact { h.appendOut bs with }
  | resetBits => subst hd; exact { h with bitposLt := windowWidth_pos _ }
  | seek => subst hd; exact { h with bitposLt := windowWidth_pos _ }
  | popBit | popInt | popSint | popLength | popUe | popSe | popVlc => obtain ⟨b, v, hb, rfl⟩ := hd; exact { h.setBsu hb with }
  | setQuant q => subst hd; exact h.loadQuant q
  | addQuant => obtain ⟨-, q, rfl⟩ := hd; exact h.loadQuant q
  | setDcttab => obtain ⟨d, rfl⟩ := hd; exact { h with }
  | coef => obtain ⟨-, -, -, b, v, f, hb, rfl⟩ := hd; exact { (h.setBsu hb).writeBlock .. with }
  | ipred | mc => obtain ⟨-, -, -, f, rfl⟩ := hd; exact h.writeBlock ..
  | pmodeReset =>
    obtain ⟨hfr, rfl⟩ := hd
    exact { h with pmcFrame := fun _ => hfr, pmcShape := fun _ _ => List.length_replicate }
  | ipredP =>
    obtain ⟨hfr, hpm, -, -, b, v, f, pmc, hb, length, rfl⟩ := hd
    exact { (h.setBsu hb).writeBlock .. with pmcShape := fun clear _ => length.trans (h.pmcShape clear hpm) }
  | rotate => obtain ⟨hfr, rfl⟩ := hd; exact h.rotate hfr
  | emitFrame => obtain ⟨-, bs, rfl⟩ := hd; exact h.appendOut bs
  | mvpReset =>
    obtain ⟨hfr, rfl⟩ := hd
    exact { h with mvpFrame := fun _ => hfr, mvpShape := fun _ _ => ⟨List.length_replicate, rfl⟩ }
  | mvpRefresh => obtain ⟨-, -, al, p, v, w, rfl⟩ := hd; exact { h.setMvp s.a0.toNat p with }
  | mvpSet => obtain ⟨-, -, p, rfl⟩ := hd; exact h.setMvp s.a0.toNat p
  | median3 => obtain ⟨v, rfl⟩ := hd; exact { h with }
  | adec =>
    obtain ⟨bs, v, rfl⟩ := hd
    have taken : Invariant s.afterPayload := { h with }
    exact { taken.appendOut bs with }
  | resetUnit => subst hd; exact h.toReset

/-- However a command ends, it keeps the invariant. -/
theorem Invariant.exec {i : Instr} {s t : State} (h : Invariant s) (ht : exec i s = .next t) : Invariant t := by
  rcases exec_cases ht with ⟨-, -, rfl⟩ | ⟨-, done | ⟨f, hf, info, rfl⟩ | ⟨f, hf, info, p, rfl⟩⟩
  · exact h
  · exact h.of_done done
  · exact h.raise (code_mem_faultCodes_of_mem_faultsOf hf) info
  · have moved : Invariant { s with pos := p } := { h with }
    exact moved.raiseLate (code_mem_faultCodes_of_mem_faultsOf hf) info

/-- A word written to `CMD` keeps the invariant, whether or not it decodes (R111). -/
theorem Invariant.command {w : Word} {s t : State} (h : Invariant s) (ht : command w s = .next t) : Invariant t := by
  cases hd : decode w with
  | ok i => exact h.exec ((command_of_decode hd s).symm.trans ht)
  | error r =>
    obtain rfl : s.reject r = t := by simpa [command_of_reject hd] using ht
    cases r with
    | illegalCommand op => exact h.raise (by decide) _
    | badOperand => exact h.raise (by decide) _

/-- A `FRAME` write leaves no slot valid and neither the predictor array nor the mode cache (R33). -/
theorem Invariant.writeFrame {s : State} (h : Invariant s) (v : Word) : Invariant (s.writeFrame v) :=
  { h with
    planesWf := rfl
    curInvalid := BitVec.getLsbD_zero
    validFrame := fun _ => rfl
    frameLegal := rfl
    mvpFrame := nofun
    pmcFrame := nofun
    mvpShape := fun _ => nofun
    pmcShape := fun _ => nofun }

/-- A `CFG` write clears `BITPOS` and leaves `WIN` inside the new window (R27, R31). -/
theorem Invariant.writeCfg {s : State} (h : Invariant s) (v : Word) : Invariant (s.writeCfg v) :=
  { h with
    bitposLt := windowWidth_pos _
    winBits := fun w8 => by
      rw [State.writeCfg_w16] at w8
      rw [State.writeCfg_win, w8]
      exact windowBits_lt _ }

theorem Invariant.regWrite {s : State} (h : Invariant s) (offset : Nat) (v : Word) : Invariant (s.regWrite offset v) := by
  unfold State.regWrite
  split
  · exact h.writeCfg v
  · exact { h with }
  · exact { h with }
  · exact { h with }
  · exact { h with }
  · exact h.writeFrame v
  · exact h

/-- Everything a register write by the host can do: nothing, a command word, or a write of a register (R38, R78). -/
theorem hostMove_write_cases {s t : State} {width : AccessWidth} {offset : Nat} {v : Word}
    (h : hostMove (.write width offset v) s = .next t) :
    t = s ∨ (width = .word ∧ offset = 0 ∧ command v s = .next t) ∨
      (width = .word ∧ offset ≠ 0 ∧ s.faulted = false ∧ t = s.regWrite offset v) := by
  change s.hostWrite width offset v = .next t at h
  cases width with
  | word =>
    by_cases hoff : offset = 0
    · rw [State.hostWrite, if_pos hoff] at h
      exact .inr (.inl ⟨rfl, hoff, h⟩)
    · rw [State.hostWrite, if_neg hoff] at h
      injection h with h
      cases hf : s.faulted
      · exact .inr (.inr ⟨rfl, hoff, rfl, by simpa [hf] using h.symm⟩)
      · exact .inl (by simpa [hf] using h.symm)
  | byte | half | double =>
    injection h with h
    exact .inl h.symm

/-- Every move of the host keeps the invariant (R385). -/
theorem Invariant.hostMove {m : HostMove} {s t : State} (h : Invariant s) (ht : hostMove m s = .next t) : Invariant t := by
  cases m with
  | write width offset v =>
    rcases hostMove_write_cases ht with rfl | ⟨-, -, run⟩ | ⟨-, -, -, rfl⟩
    · exact h
    · exact h.command run
    · exact h.regWrite offset v
  | read width offset => injection ht with ht; subst ht; exact { h with }
  | place addr v => injection ht with ht; subst ht; exact { h with sourceWf := Memory.wf_write h.sourceWf .. }
  | consume n => injection ht with ht; subst ht; exact { h with takenLe := Nat.min_le_right .. }
  | hardReset => injection ht with ht; subst ht; exact h.toReset

/-- Settles O60: a step is the host's next move, made with that move off the queue; with an empty queue it changes nothing. -/
theorem invKept : Obligations.InvKept := by
  intro s t h ht
  rw [step, advance] at ht
  split at ht
  · injection ht with ht
    exact ht ▸ h
  · next m rest _ =>
    have off_queue : Invariant { s with script := rest } := { h with }
    exact off_queue.hostMove ht

end Sys2Proof.Machine

/-! PROOFS. What commands and host moves leave alone: an accepted command that completes has the frame its rules list, said once in
`Frame`, and the claims on registers, units, output, planes and the source follow from it (10_state.md sections 2, 3, 5 and 6). -/

namespace Sys2Proof.Machine

/-- What a command leaves alone where it completes, and how `OUT` grows (R21 to R24, R32 to R46). -/
structure Frame (i : Instr) (s t : State) : Prop where
  fault : t.fault = s.fault
  operands : t.a0 = s.a0 ∧ t.a1 = s.a1 ∧ t.a2 = s.a2
  control : t.w16 = s.w16 ∧ t.le = s.le ∧ t.len = s.len ∧ t.frame = s.frame
  ret0 : writesRet0 i = false → t.ret0 = s.ret0
  ret1 : i ≠ .mvpRefresh → t.ret1 = s.ret1
  pos : movesPos i = false → t.pos = s.pos
  window : popsBits i = false → t.win = s.win ∧ (i ≠ .resetBits → i ≠ .seek → t.bitpos = s.bitpos)
  quant : (∀ q, i ≠ .setQuant q) → i ≠ .addQuant → t.quantQ = s.quantQ ∧ t.qt4 = s.qt4 ∧ t.qt8 = s.qt8
  dctTab : (∀ n, i ≠ .setDcttab n) → t.dctTab = s.dctTab
  qv : (∀ q, i ≠ .setQuant q) → t.qv = s.qv
  ring : i ≠ .rotate → t.cur = s.cur ∧ t.valid = s.valid
  framev : t.framev = s.framev
  mvp : i ≠ .mvpReset → t.mvpv = s.mvpv ∧ (i ≠ .mvpRefresh → t.alsave = s.alsave ∧ (i ≠ .mvpSet → t.mvp = s.mvp))
  pmc : i ≠ .pmodeReset → t.pmcv = s.pmcv ∧ ((∀ sel plane, i ≠ .ipredP sel plane) → t.pmc = s.pmc)
  out : ∃ bs, t.out = s.out ++ bs ∧ t.outcnt = s.outcnt + BitVec.ofNat 32 bs.length ∧ (appendsOut i = false → bs = [])
  planes : writesPlanes i = false → t.planes = s.planes ∧ t.era = s.era
  source : t.source = s.source

/-- A command that changes nothing leaves everything alone. -/
theorem Frame.refl (i : Instr) (s : State) : Frame i s s := by
  constructor
  case out => exact ⟨[], by simp⟩
  all_goals simp

/-- An accepted command that completes has its frame: of each shape only what the command writes is to be looked at. -/
theorem Done.frame {i : Instr} {s t : State} (hi : i ≠ .resetUnit) (hd : Done i s t) : Frame i s t := by
  have same := Frame.refl i s
  cases i with
  | readU8 => obtain ⟨p, v, rfl⟩ := hd; exact { same with pos := nofun, ret0 := nofun }
  | readBytes => obtain ⟨p, bs, rfl⟩ := hd; exact { same with pos := nofun, out := ⟨bs, rfl, rfl, nofun⟩ }
  | resetBits => subst hd; exact { same with window := fun _ => ⟨rfl, fun h => absurd rfl h⟩ }
  | seek => subst hd; exact { same with pos := nofun, window := fun _ => ⟨rfl, fun _ h => absurd rfl h⟩ }
  | popBit | popInt | popSint | popLength | popUe | popSe | popVlc =>
    obtain ⟨b, v, -, rfl⟩ := hd
    exact { same with ret0 := nofun, pos := nofun, window := nofun }
  | setQuant q => subst hd; exact { same with quant := fun h => absurd rfl (h q), qv := fun h => absurd rfl (h q) }
  | addQuant => obtain ⟨hqv, q, rfl⟩ := hd; exact { same with quant := fun _ h => absurd rfl h, qv := fun _ => hqv.symm }
  | setDcttab n => obtain ⟨d, rfl⟩ := hd; exact { same with dctTab := fun h => absurd rfl (h n) }
  | coef =>
    obtain ⟨-, -, -, b, v, f, -, rfl⟩ := hd
    exact { same with ret0 := nofun, pos := nofun, window := nofun, planes := nofun }
  | ipred | mc => obtain ⟨-, -, -, f, rfl⟩ := hd; exact { same with planes := nofun }
  | pmodeReset => obtain ⟨-, rfl⟩ := hd; exact { same with pmc := fun h => absurd rfl h }
  | ipredP sel plane =>
    obtain ⟨-, -, -, -, b, v, f, pmc, -, -, rfl⟩ := hd
    exact { same with
      ret0 := nofun, pos := nofun, window := nofun, planes := nofun, pmc := fun _ => ⟨rfl, fun h => absurd rfl (h sel plane)⟩ }
  | rotate => obtain ⟨-, rfl⟩ := hd; exact { same with ring := fun h => absurd rfl h }
  | emitFrame => obtain ⟨-, bs, rfl⟩ := hd; exact { same with out := ⟨bs, rfl, rfl, nofun⟩ }
  | mvpReset => obtain ⟨-, rfl⟩ := hd; exact { same with mvp := fun h => absurd rfl h }
  | mvpRefresh =>
    obtain ⟨-, -, al, p, v, w, rfl⟩ := hd
    exact { same with ret0 := nofun, ret1 := fun h => absurd rfl h, mvp := fun _ => ⟨rfl, fun h => absurd rfl h⟩ }
  | mvpSet => obtain ⟨-, -, p, rfl⟩ := hd; exact { same with mvp := fun _ => ⟨rfl, fun _ => ⟨rfl, fun h => absurd rfl h⟩⟩ }
  | median3 => obtain ⟨v, rfl⟩ := hd; exact { same with ret0 := nofun }
  | adec => obtain ⟨bs, v, rfl⟩ := hd; exact { same with ret0 := nofun, pos := nofun, out := ⟨bs, rfl, rfl, nofun⟩ }
  | resetUnit => exact absurd rfl hi

/-- The fault a completed command raised before it changed anything. -/
theorem fault_raise {s : State} (hf : s.faulted = false) (f : FaultKind) (info : Int) : (s.raise f info).fault = faultWord f info := by
  rw [raise_of_clear hf]

theorem fault_raiseLate {s : State} (hf : s.faulted = false) (f : FaultKind) (info : Int) :
    (s.raiseLate f info).fault = faultWord f info := by
  rw [raiseLate_of_clear hf]

/-- A command that ends without a fault ran on a clear machine and completed. -/
theorem done_of_fault_eq_zero {i : Instr} {s t : State} (hi : i ≠ .resetUnit) (h : exec i s = .next t) (ht : t.fault = 0#32) :
    s.faulted = false ∧ Done i s t := by
  have clear : t.faulted ≠ true := by simp [State.faulted, ht]
  rcases exec_cases h with ⟨hf, -, rfl⟩ | ⟨accepted, done | ⟨f, -, info, rfl⟩ | ⟨f, -, info, p, rfl⟩⟩
  · exact absurd hf clear
  · exact ⟨accepted.resolve_right hi, done⟩
  · exact absurd (faulted_raise ..) clear
  · exact absurd (faulted_raiseLate ..) clear

/-- A command that ends without a fault has its frame. -/
theorem frame_of_fault_eq_zero {i : Instr} {s t : State} (hi : i ≠ .resetUnit) (h : exec i s = .next t) (ht : t.fault = 0#32) :
    Frame i s t :=
  (done_of_fault_eq_zero hi h ht).2.frame hi

/-- Settles O53: the registers' part of a completed command's frame. -/
theorem registerWriters : Obligations.RegisterWriters := by
  intro i s t hi h ht
  have frame := frame_of_fault_eq_zero hi h ht
  exact ⟨frame.operands, frame.control, frame.ret0, frame.ret1, frame.pos, frame.window⟩

/-- Settles O54: the units' part of a completed command's frame. -/
theorem unitStateWriters : Obligations.UnitStateWriters := by
  intro i s t hi h ht
  have frame := frame_of_fault_eq_zero hi h ht
  exact ⟨frame.quant, frame.dctTab, frame.qv, frame.ring, frame.framev, frame.mvp, frame.pmc⟩

/-- Settles O55: a completed command appends as its frame says; a refused or faulting one appends nothing (R341 b). -/
theorem outIsAppendOnly : Obligations.OutIsAppendOnly := by
  intro i s t hi h
  rcases exec_cases h with ⟨-, -, rfl⟩ | ⟨-, done | ⟨f, -, info, rfl⟩ | ⟨f, -, info, p, rfl⟩⟩
  · exact ⟨[], by simp⟩
  · exact (done.frame hi).out
  · exact ⟨[], by simp⟩
  · exact ⟨[], by simp⟩

/-- Settles O7: a completed command keeps the clear fault word, a faulting one writes a word of its row. -/
theorem faultsPerCommand : Obligations.FaultsPerCommand := by
  intro i s t hf h
  rcases exec_cases h with ⟨faulted, -, -⟩ | ⟨-, done | ⟨f, hmem, info, rfl⟩ | ⟨f, hmem, info, p, rfl⟩⟩
  · simp [hf] at faulted
  · by_cases hi : i = .resetUnit
    · subst hi
      exact .inl (congrArg State.fault done)
    · exact .inl ((done.frame hi).fault.trans ((faulted_eq_false_iff s).mp hf))
  · exact .inr ⟨f, hmem, info, fault_raise hf f info⟩
  · exact .inr ⟨f, hmem, info, fault_raiseLate (s := { s with pos := p }) hf f info⟩

/-- A plane byte depends on the plane store only. -/
theorem pixel_congr {s t : State} (hplanes : t.planes = s.planes) (hera : t.era = s.era) (slot p r c : Nat) :
    t.pixel slot p r c = s.pixel slot p r c := by
  rw [State.pixel, State.pixel, State.planeByte, State.planeByte, hplanes, hera]

/-- A completed command leaves every slot but the current one alone: what it writes is a block of that one (R43, R80). -/
theorem Done.pixel {i : Instr} {s t : State} (hi : i ≠ .resetUnit) (hd : Done i s t) {slot p r c : Nat} (hs : inStore slot p r c)
    (hslot : slot ≠ s.cur.val) : t.pixel slot p r c = s.pixel slot p r c := by
  by_cases hw : writesPlanes i = false
  · obtain ⟨hplanes, hera⟩ := (hd.frame hi).planes hw
    exact pixel_congr hplanes hera ..
  · cases i with
    | coef sel plane =>
      obtain ⟨-, hp, hin, b, v, f, -, rfl⟩ := hd
      exact pixel_writeBlock_out (s.setBsu b) f hp ((inside_iff_fits ..).mp hin) hs fun h => hslot h.1
    | ipred sel plane | mc sel plane =>
      obtain ⟨-, hp, hin, f, rfl⟩ := hd
      exact pixel_writeBlock_out s f hp ((inside_iff_fits ..).mp hin) hs fun h => hslot h.1
    | ipredP sel plane =>
      obtain ⟨-, -, hp, hin, b, v, f, pmc, -, -, rfl⟩ := hd
      exact pixel_writeBlock_out (s.setBsu b) f hp ((inside_iff_fits ..).mp hin) hs fun h => hslot h.1
    | _ => exact absurd rfl hw

/-- Settles O56: a completed command that writes plane bytes writes a block of the current slot; any other keeps the plane store. -/
theorem onlyCurrentSlotWritten : Obligations.OnlyCurrentSlotWritten := by
  intro i s t hi h ht
  have done := (done_of_fault_eq_zero hi h ht).2
  refine ⟨fun slot p r c hs hslot => done.pixel hi hs hslot, fun hw slot p r c => ?_⟩
  obtain ⟨hplanes, hera⟩ := (done.frame hi).planes hw
  exact pixel_congr hplanes hera ..

/-- However a command other than `RESET_UNIT` ends, the bound source is what it was (R40). -/
theorem source_len_of_exec {i : Instr} {s t : State} (hi : i ≠ .resetUnit) (h : exec i s = .next t) :
    t.source = s.source ∧ t.len = s.len := by
  rcases exec_cases h with ⟨-, -, rfl⟩ | ⟨-, done | ⟨f, -, info, rfl⟩ | ⟨f, -, info, p, rfl⟩⟩
  · exact ⟨rfl, rfl⟩
  · have frame := done.frame hi
    exact ⟨frame.source, frame.control.2.2.1⟩
  · simp
  · simp

/-- A command word other than that of `RESET_UNIT` leaves the bound source as it was, whether or not it decodes. -/
theorem source_len_of_command {w : Word} {s t : State} (hw : w ≠ 0xF0000000#32) (h : command w s = .next t) :
    t.source = s.source ∧ t.len = s.len := by
  cases hd : decode w with
  | ok i =>
    have not_reset : i ≠ .resetUnit := fun hi => hw (by rw [eq_encode_of_decode hd, hi]; rfl)
    exact source_len_of_exec not_reset ((command_of_decode hd s).symm.trans h)
  | error r =>
    obtain rfl : s.reject r = t := by simpa [command_of_reject hd] using h
    cases r <;> simp [State.reject]

/-- A register write other than of `LEN` leaves the bound source as it was (R29, R40). -/
theorem source_len_of_regWrite {offset : Nat} (hoff : offset ≠ 0x14) (v : Word) (s : State) :
    (s.regWrite offset v).source = s.source ∧ (s.regWrite offset v).len = s.len := by
  unfold State.regWrite
  split
  case h_2 => exact absurd rfl hoff
  all_goals exact ⟨rfl, rfl⟩

/-- Settles O58: the moves that do not rebind write neither the source's bytes nor `LEN`, in the model not even with a fault. -/
theorem sourceOnlyRebound : Obligations.SourceOnlyRebound := by
  intro m s t hm h
  suffices kept : t.source = s.source ∧ t.len = s.len from ⟨kept.1, fun _ => kept.2⟩
  cases m with
  | write width offset v =>
    rcases hostMove_write_cases h with rfl | ⟨rfl, rfl, run⟩ | ⟨rfl, -, -, rfl⟩
    · exact ⟨rfl, rfl⟩
    · exact source_len_of_command (fun hv => by subst hv; exact absurd hm (by decide)) run
    · exact source_len_of_regWrite (fun hoff => by subst hoff; exact absurd hm nofun) v s
  | read => injection h with h; subst h; exact ⟨rfl, rfl⟩
  | consume => injection h with h; subst h; exact ⟨rfl, rfl⟩
  | place => cases hm
  | hardReset => cases hm

/-- Settles O10: each command is its one update of the cursor registers. -/
theorem realignAndSeek : Obligations.RealignAndSeek := by
  intro s hf
  constructor
  · rw [exec, execResetBits, perform_of_clear hf]
  · rw [exec, execSeek, perform_of_clear hf]

end Sys2Proof.Machine

/-! PROOFS. The operand registers (10_state.md section 2): each operation a command is made of commutes with setting the registers the
command does not read, so the command does (R22). -/

namespace Sys2Proof.Machine

/-- The state with these values in `A0`, `A1` and `A2` (R21). -/
def State.withOperands (s : State) (x y z : Word) : State := { s with a0 := x, a1 := y, a2 := z }

section
variable {s : State} {x y z : Word}

theorem ite_withOperands {c : Prop} [Decidable c] {t t' u u' : State} (ht : t' = t.withOperands x y z) (hu : u' = u.withOperands x y z) :
    (if c then t' else u') = (if c then t else u).withOperands x y z := by
  rw [ht, hu]
  exact (apply_ite (fun s : State => s.withOperands x y z) c t u).symm

theorem raise_withOperands (f : FaultKind) (info : Int) :
    (s.withOperands x y z).raise f info = (s.raise f info).withOperands x y z := ite_withOperands rfl rfl

theorem raiseLate_withOperands (f : FaultKind) (info : Int) :
    (s.withOperands x y z).raiseLate f info = (s.raiseLate f info).withOperands x y z := ite_withOperands rfl rfl

/-- A check that raises a fault, and what follows when it passes. -/
theorem check_withOperands {c : Prop} [Decidable c] {f : FaultKind} {info : Int} {u u' : State} (hu : u' = u.withOperands x y z) :
    (if c then (s.withOperands x y z).raise f info else u') = (if c then s.raise f info else u).withOperands x y z :=
  ite_withOperands (raise_withOperands f info) hu

/-- A micro-operation reads no operand register, so what goes on with its value decides. -/
theorem runMicro_withOperands {α : Type} {m : Micro α} {k : α → State → State}
    (hk : ∀ a b, k a ((s.withOperands x y z).setBsu b) = (k a (s.setBsu b)).withOperands x y z) :
    runMicro (s.withOperands x y z) m k = (runMicro s m k).withOperands x y z := by
  unfold runMicro
  change (match m s.bsu with | .ok a b => _ | .fault f info b => _) = _
  cases m s.bsu with
  | ok a b => exact hk a b
  | fault f info b => exact ite_withOperands (raise_withOperands f info) (raiseLate_withOperands f info)

theorem finishAudio_withOperands (r : AudioResult) :
    finishAudio r (s.withOperands x y z) = (finishAudio r s).withOperands x y z := by
  cases r with
  | ok r => rfl
  | error f => exact raiseLate_withOperands ..

theorem perform_withOperands {t : State} {body : State → State} (h : perform s body = .next t)
    (hb : body (s.withOperands x y z) = (body s).withOperands x y z) :
    perform (s.withOperands x y z) body = .next (t.withOperands x y z) := by
  injection h with h
  rw [perform, ← h]
  exact congrArg _ (ite_withOperands rfl hb)

/-- A command does the same, whatever stands in the operand registers it does not read, and keeps it there (R22). -/
theorem exec_withOperands {i : Instr} (hi : i ≠ .resetUnit) {t : State} (h : exec i s = .next t) (hx : readsA0 i = true → x = s.a0)
    (hy : readsA1 i = true → y = s.a1) (hz : readsA2 i = true → z = s.a2) :
    exec i (s.withOperands x y z) = .next (t.withOperands x y z) := by
  cases i with
  | readU8 => rw [exec, execReadU8] at h ⊢; exact perform_withOperands h <| runMicro_withOperands fun _ _ => rfl
  | readBytes => rw [exec, execReadBytes] at h ⊢; exact perform_withOperands h <| runMicro_withOperands fun _ _ => rfl
  | resetBits => rw [exec, execResetBits] at h ⊢; exact perform_withOperands h rfl
  | seek => obtain rfl := hx rfl; rw [exec, execSeek] at h ⊢; exact perform_withOperands h rfl
  | popBit => rw [exec, execPopBit] at h ⊢; exact perform_withOperands h <| runMicro_withOperands fun _ _ => rfl
  | popInt => rw [exec, execPopInt] at h ⊢; exact perform_withOperands h <| check_withOperands <| runMicro_withOperands fun _ _ => rfl
  | popSint =>
    rw [exec, execPopSint] at h ⊢
    exact perform_withOperands h <| check_withOperands <| runMicro_withOperands fun _ _ => rfl
  | popLength => rw [exec, execPopLength] at h ⊢; exact perform_withOperands h <| runMicro_withOperands fun _ _ => rfl
  | popUe => rw [exec, execPopUe] at h ⊢; exact perform_withOperands h <| runMicro_withOperands fun _ _ => rfl
  | popSe => rw [exec, execPopSe] at h ⊢; exact perform_withOperands h <| runMicro_withOperands fun _ _ => rfl
  | popVlc => rw [exec, execPopVlc] at h ⊢; exact perform_withOperands h <| runMicro_withOperands fun _ _ => rfl
  | setQuant => rw [exec, execSetQuant] at h ⊢; exact perform_withOperands h rfl
  | addQuant =>
    obtain rfl := hx rfl
    rw [exec, execAddQuant] at h ⊢
    exact perform_withOperands h <| check_withOperands <| check_withOperands rfl
  | setDcttab => rw [exec, execSetDcttab] at h ⊢; exact perform_withOperands h <| check_withOperands rfl
  | coef =>
    obtain rfl := hx rfl
    rw [exec, execCoef] at h ⊢
    exact perform_withOperands h <| check_withOperands <| check_withOperands <| check_withOperands <|
      runMicro_withOperands fun _ _ => rfl
  | ipred =>
    obtain rfl := hx rfl
    obtain rfl := hy rfl
    rw [exec, execIpred] at h ⊢
    exact perform_withOperands h <| check_withOperands <| check_withOperands <| check_withOperands rfl
  | pmodeReset => rw [exec, execPmodeReset] at h ⊢; exact perform_withOperands h <| check_withOperands rfl
  | ipredP =>
    obtain rfl := hx rfl
    obtain rfl := hy rfl
    rw [exec, execIpredP] at h ⊢
    exact perform_withOperands h <| check_withOperands <| check_withOperands <| check_withOperands <|
      runMicro_withOperands fun _ _ => rfl
  | mc =>
    obtain rfl := hx rfl
    obtain rfl := hy rfl
    obtain rfl := hz rfl
    rw [exec, execMc] at h ⊢
    exact perform_withOperands h <| check_withOperands <| check_withOperands <| check_withOperands <| check_withOperands <|
      check_withOperands rfl
  | rotate => rw [exec, execRotate] at h ⊢; exact perform_withOperands h <| check_withOperands rfl
  | emitFrame => rw [exec, execEmitFrame] at h ⊢; exact perform_withOperands h <| check_withOperands <| check_withOperands rfl
  | mvpReset => rw [exec, execMvpReset] at h ⊢; exact perform_withOperands h <| check_withOperands rfl
  | mvpRefresh =>
    obtain rfl := hx rfl
    rw [exec, execMvpRefresh] at h ⊢
    exact perform_withOperands h <| check_withOperands <| check_withOperands rfl
  | mvpSet =>
    obtain rfl := hx rfl
    obtain rfl := hy rfl
    rw [exec, execMvpSet] at h ⊢
    exact perform_withOperands h <| check_withOperands <| check_withOperands rfl
  | median3 =>
    obtain rfl := hx rfl
    obtain rfl := hy rfl
    obtain rfl := hz rfl
    rw [exec, execMedian3] at h ⊢
    exact perform_withOperands h rfl
  | adec =>
    rw [exec, execAdec] at h ⊢
    exact perform_withOperands h <| check_withOperands <| check_withOperands <| check_withOperands <|
      finishAudio_withOperands (s := s.afterPayload) _
  | resetUnit => exact absurd rfl hi

end

/-- Settles O57: only the register in question is set to another value, and a completed command keeps the two others. -/
theorem operandReaders : Obligations.OperandReaders := by
  intro i s t v hi h ht
  obtain ⟨ha0, ha1, ha2⟩ := (frame_of_fault_eq_zero hi h ht).operands
  refine ⟨fun hr => ?a0, fun hr => ?a1, fun hr => ?a2⟩
  case a0 =>
    rw [show { t with a0 := v } = t.withOperands v s.a1 s.a2 by rw [State.withOperands, ha1, ha2]]
    exact exec_withOperands hi h (fun hr' => absurd (hr'.symm.trans hr) nofun) (fun _ => rfl) fun _ => rfl
  case a1 =>
    rw [show { t with a1 := v } = t.withOperands s.a0 v s.a2 by rw [State.withOperands, ha0, ha2]]
    exact exec_withOperands hi h (fun _ => rfl) (fun hr' => absurd (hr'.symm.trans hr) nofun) fun _ => rfl
  case a2 =>
    rw [show { t with a2 := v } = t.withOperands s.a0 s.a1 v by rw [State.withOperands, ha0, ha1]]
    exact exec_withOperands hi h (fun _ => rfl) (fun _ => rfl) fun hr' => absurd (hr'.symm.trans hr) nofun

end Sys2Proof.Machine

/-! PROOFS. The fault register and the host's register map (10_state.md sections 4 and 5, 60_exceptions.md): the layout of `FAULT`, what
each register write changes and each read gives, and that while faulted only a reset changes the block. -/

namespace Sys2Proof.Machine

/-- Settles O5: `FAULT` is the 24 bits of the info above the 8 bits of the code. -/
theorem faultWordLayout : Obligations.FaultWordLayout := by
  intro f info
  refine ⟨BitVec.extractLsb'_append_eq_right, ?info, ?code⟩
  case info =>
    rw [faultWord, BitVec.extractLsb'_append_eq_left, BitVec.toNat_ofInt, Int.toNat_of_nonneg (Int.emod_nonneg _ (by decide))]
    rfl
  case code => cases f <;> decide

/-! While faulted (R342, R345). -/

/-- `RESET_UNIT` is the word 0xF0000000, accepted in every state (R345). -/
theorem command_resetUnit (s : State) : command 0xF0000000#32 s = .next s.toReset :=
  command_of_decode (decode_encode .resetUnit) s

/-- While faulted a register write changes nothing, whatever it is of (R342). -/
theorem hostMove_write_of_faulted {s : State} (hf : s.faulted = true) {width : AccessWidth} {offset : Nat} {v : Word}
    (h : width ≠ .word ∨ offset ≠ 0) : hostMove (.write width offset v) s = .next s := by
  cases width with
  | word =>
    have not_command : offset ≠ 0 := h.resolve_left fun h => h rfl
    rw [hostMove, State.hostWrite, if_neg not_command, if_pos hf]
  | byte | half | double => rfl

/-- While faulted a move of the host leaves `FAULT` alone, or it is one of the two resets (R345). -/
theorem fault_eq_or_reset_of_faulted {s t : State} (hf : s.faulted = true) {m : HostMove} (h : hostMove m s = .next t) :
    t.fault = s.fault ∨ ((m = .hardReset ∨ m = .write .word 0 0xF0000000#32) ∧ t = s.toReset) := by
  cases m with
  | write width offset v =>
    rcases hostMove_write_cases h with rfl | ⟨rfl, rfl, run⟩ | ⟨-, -, clear, -⟩
    · exact .inl rfl
    · by_cases hv : v = 0xF0000000#32
      · subst hv
        rw [command_resetUnit] at run
        injection run with run
        exact .inr ⟨.inr rfl, run.symm⟩
      · rw [command_of_faulted hv hf] at run
        injection run with run
        exact .inl (congrArg State.fault run.symm)
    · simp [hf] at clear
  | read | place | consume => injection h with h; subst h; exact .inl rfl
  | hardReset => injection h with h; exact .inr ⟨.inl rfl, h.symm⟩

/-- Settles O6: while faulted words and register writes are refused, reads and the host's own side work, and only the resets leave. -/
theorem onlyResetLeavesFault : Obligations.OnlyResetLeavesFault := by
  intro s hf
  refine ⟨fun w hw => command_of_faulted hw hf, fun width off v h => hostMove_write_of_faulted hf h, fun _ _ => rfl,
    fun _ _ => ⟨_, rfl, rfl⟩, fun _ => ⟨_, rfl, rfl⟩, fun m t h clear => ?leaves, fun m t h faulted => ?stays⟩
  case leaves =>
    rcases fault_eq_or_reset_of_faulted hf h with same | ⟨reset, -⟩
    · simp [State.faulted, same] at clear
      exact absurd clear ((faulted_eq_true_iff s).mp hf)
    · exact reset
  case stays =>
    rcases fault_eq_or_reset_of_faulted hf h with same | ⟨-, rfl⟩
    · exact same
    · cases faulted

/-! Register writes to an unfaulted block (R38). -/

/-- A word write off `CMD` to an unfaulted block writes that register (R38). -/
theorem hostMove_write_of_clear {s : State} (hf : s.faulted = false) {offset : Nat} (hoff : offset ≠ 0) (v : Word) :
    hostMove (.write .word offset v) s = .next (s.regWrite offset v) := by
  rw [hostMove, State.hostWrite, if_neg hoff, if_neg (by simp [hf])]

/-- An offset where nothing can be written (R38, V5, V6). -/
theorem regWrite_of_not_mem {offset : Nat} (h : offset ∉ [0x0C, 0x14, 0x20, 0x24, 0x28, 0x44]) (v : Word) (s : State) :
    s.regWrite offset v = s := by
  unfold State.regWrite
  split
  case h_7 => rfl
  all_goals exact absurd (by decide) h

/-- A `LEN` write stores the value, or `LEN_MAX` (R29). -/
theorem writeLen_len_toNat (s : State) (v : Word) : (s.writeLen v).len.toNat = min v.toNat (2 ^ 28 - 1) := by
  rw [State.writeLen_len, lenMax]
  split
  · simp; omega
  · simp; omega

/-- Which `FRAME` values are legal (R33). -/
theorem frameLegal_iff (v : Word) : frameLegal v = true ↔ (v.extractLsb' 0 16).toNat ≠ 0 ∧ 16 ∣ (v.extractLsb' 0 16).toNat ∧
    (v.extractLsb' 16 16).toNat ≠ 0 ∧ 16 ∣ (v.extractLsb' 16 16).toNat := by
  simp only [frameLegal, Bool.and_eq_true, decide_eq_true_eq, Nat.dvd_iff_mod_eq_zero, and_assoc]
  rfl

/-- Settles O51: an unfaulted block takes a word write as the register's own, and any other write not at all. -/
theorem hostRegisterWrites : Obligations.HostRegisterWrites := by
  intro s v hf
  have written {offset : Nat} (hoff : offset ≠ 0) := hostMove_write_of_clear hf hoff v
  refine ⟨⟨written (by decide), written (by decide), written (by decide)⟩, ⟨_, written (by decide), rfl⟩,
    ⟨_, written (by decide), rfl, writeLen_len_toNat s v⟩, ⟨_, written (by decide), rfl, frameLegal_iff v⟩, fun off hoff => ?other,
    fun width off hw => ?narrow⟩
  case other =>
    rw [List.mem_cons, not_or] at hoff
    rw [written hoff.1, regWrite_of_not_mem hoff.2]
  case narrow =>
    cases width with
    | word => exact absurd rfl hw
    | byte | half | double => rfl

/-! Register reads (R38). -/

/-- Bits 0 to 3 of a word as a number. -/
theorem bitAt_or_toNat (a b c d : Bool) :
    (bitAt 0 a ||| bitAt 1 b ||| bitAt 2 c ||| bitAt 3 d).toNat = a.toNat + 2 * b.toNat + 4 * c.toNat + 8 * d.toNat := by
  revert a b c d
  decide

/-- A field of the low byte and another above it, as a number. -/
theorem or_high_toNat {low high : Word} {a b : Nat} (hlow : low.toNat = a) (ha : a < 256) (hhigh : high.toNat = 256 * b) :
    (low ||| high).toNat = a + 256 * b := by
  rw [BitVec.toNat_or, hlow, hhigh, Nat.or_comm, ← Nat.two_pow_add_eq_or_of_lt (i := 8) ha, Nat.add_comm]

/-- `STATUS` as a number (R25). -/
theorem statusWord_toNat (s : State) : s.statusWord.toNat =
    (if s.fault = 0#32 then 0 else 1) + (if s.len.toNat ≤ s.pos.toNat then 2 else 0) + (if s.bitpos = 0#4 then 4 else 0) := by
  have bits : s.statusWord = bitAt 0 s.faulted ||| bitAt 1 s.eos ||| bitAt 2 s.aligned ||| bitAt 3 false := BitVec.or_zero.symm
  have bit (p : Prop) [Decidable p] (k : Nat) : k * (decide p).toNat = if p then k else 0 := by by_cases hp : p <;> simp [hp]
  have faulted : s.faulted.toNat = if s.fault = 0#32 then 0 else 1 := by by_cases h : s.fault = 0#32 <;> simp [State.faulted, h]
  have aligned : s.aligned = decide (s.bitpos = 0#4) := rfl
  rw [bits, bitAt_or_toNat, faulted, State.eos, bit, aligned, bit]
  rfl

/-- `RING` as a number (R34). -/
theorem ringWord_toNat (s : State) : s.ringWord.toNat = s.cur.val + 256 * s.valid.toNat := by
  have cur_lt := s.cur.isLt
  have valid_lt := s.valid.isLt
  refine or_high_toNat (by simp; omega) (by omega) ?_
  rw [BitVec.toNat_shiftLeft, BitVec.toNat_setWidth, Nat.shiftLeft_eq]
  omega

/-- `QUANT` as a number (R32). -/
theorem quantWord_toNat (s : State) : s.quantWord.toNat = s.quantQ.toNat + 256 * s.dctTab.toNat := by
  have q_lt := s.quantQ.isLt
  refine or_high_toNat (by simp; omega) (by omega) ?_
  cases s.dctTab <;> rfl

/-- `CFG` as a number (R27). -/
theorem cfgWord_toNat (s : State) : s.cfgWord.toNat = s.w16.toNat + 2 * s.le.toNat := by
  have bits : s.cfgWord = bitAt 0 s.w16 ||| bitAt 1 s.le ||| bitAt 2 false ||| bitAt 3 false := by simp [State.cfgWord, bitAt]
  rw [bits, bitAt_or_toNat]
  rfl

/-- An offset not in the map, or of a register that reads 0 (R37, R38, V6). -/
theorem regWord_of_not_mem {offset : Nat} (h : offset ∉ [0x04, 0x08, 0x0C, 0x10, 0x14, 0x18, 0x1C, 0x20, 0x24, 0x28, 0x30, 0x34, 0x40,
    0x44, 0x48, 0x4C, 0x50]) (s : State) : s.regWord offset = 0#32 := by
  unfold State.regWord
  split
  case h_18 => rfl
  all_goals exact absurd (by decide) h

/-- Settles O52: each offset of the map gives its register, any other word access and every narrower or wider one 0. -/
theorem hostRegisterReads : Obligations.HostRegisterReads := by
  intro s
  have narrow_field {w : Nat} (v : BitVec w) (h : w ≤ 32) : (v.setWidth 32).toNat = v.toNat := BitVec.toNat_setWidth_of_le h
  refine ⟨fun _ _ => rfl, statusWord_toNat s, rfl, cfgWord_toNat s, rfl, narrow_field s.len (by decide),
    narrow_field s.bitpos (by decide), narrow_field s.win (by decide), rfl, rfl, rfl, rfl, rfl,
    quantWord_toNat s, rfl, ringWord_toNat s, rfl, bitAt_or_toNat ..,
    fun off hoff => regWord_of_not_mem hoff s, fun width off hw => ?narrow⟩
  case narrow =>
    cases width with
    | word => exact absurd rfl hw
    | byte | half | double => rfl

end Sys2Proof.Machine

/-! PROOFS. Exp-Golomb codes and fields in sequence (41_bsu_bits.md): the outcome of `POP_UE` is read off the unary prefix, `POP_SE` is
its unmapping, a canonical codeword has the prefix of its length, and fields popped one after the other are one field. -/

namespace Sys2Proof.Machine

/-- `FAULT` keeps the info's low 24 bits (R340). -/
theorem faultWord_mod (f : FaultKind) (n : Nat) : faultWord f (n % 2 ^ 24 : Nat) = faultWord f n := by
  have info : BitVec.ofInt 24 (n % 2 ^ 24 : Nat) = BitVec.ofInt 24 n := by
    rw [BitVec.ofInt_natCast, BitVec.ofInt_natCast]
    exact BitVec.eq_of_toNat_eq (by simp)
  rw [faultWord, info, faultWord]

/-- `POP_UE` on a clear machine is `pop_exp_golomb()` into `RET0` (R171). -/
theorem exec_popUe {s : State} (hf : s.faulted = false) : exec .popUe s = .next (popToRet0 s (popUe s.src)) := by
  rw [exec, execPopUe, perform_of_clear hf]

/-- `POP_SE` on a clear machine is `pop_signed_exp_golomb()` into `RET0` (R174). -/
theorem exec_popSe {s : State} (hf : s.faulted = false) : exec .popSe s = .next (popToRet0Signed s (popSe s.src)) := by
  rw [exec, execPopSe, perform_of_clear hf]

/-- The unmapping of the claims is the model's (R117, R174). -/
theorem zigzag_eq (k : Nat) : zigzag k = unmapped k := by
  unfold zigzag unmapped
  split <;> omega

/-- `pop_signed_exp_golomb()` is the unmapping of `pop_exp_golomb()`'s value (R174). -/
theorem popSe_of_ok {src : Src} {b b' : Bsu} {k : Nat} (h : popUe src b = .ok k b') : popSe src b = .ok (unmapped k) b' := by
  rw [popSe, microBind_of_ok h, microPure, zigzag_eq]

/-- `pop_signed_exp_golomb()` faults as `pop_exp_golomb()` does (R174). -/
theorem popSe_of_fault {src : Src} {b b' : Bsu} {f : FaultKind} {info : Int} (h : popUe src b = .fault f info b') :
    popSe src b = .fault f info b' :=
  microBind_of_fault h

section
variable {s : State} (hb : s.bitpos.toNat < windowWidth s.w16)
include hb

/-- A whole code next: its value, the cursor past it (R171). -/
theorem popUe_of_code {z : Nat} (hz : s.unary z) (h32 : z < 32) (hle : 2 * z + 1 ≤ s.unread) :
    popUe s.src s.bsu = .ok (s.golombValue z) (cursorAfter s.src s.bsu (2 * z + 1)) := by
  obtain ⟨hleft, hzero, hone⟩ := hz
  exact (popUe_of_prefix (bsuOk_of_bitpos_lt hb) hleft hzero hone h32).trans (if_pos hle)

/-- A prefix out of range next (R171). -/
theorem popUe_of_range {z : Nat} (hz : s.unary z) (h32 : 32 ≤ z) :
    popUe s.src s.bsu = .fault .golombRange (z + 1 : Nat) (cursorAfter s.src s.bsu (z + 1)) := by
  obtain ⟨hleft, hzero, hone⟩ := hz
  exact popUe_of_long (bsuOk_of_bitpos_lt hb) hleft hzero hone h32

/-- A code cut short next: the bits run out in its suffix (R171). -/
theorem popUe_of_cut {z : Nat} (hz : s.unary z) (h32 : z < 32) (hlt : s.unread < 2 * z + 1) :
    popUe s.src s.bsu = endOfBits Nat s.src s.bsu := by
  obtain ⟨hleft, hzero, hone⟩ := hz
  exact (popUe_of_prefix (bsuOk_of_bitpos_lt hb) hleft hzero hone h32).trans (if_neg (Nat.not_le.mpr hlt))

/-- Only zeros left: the bits run out in the prefix (R171). -/
theorem popUe_of_onlyZeros (hz : s.onlyZeros) : popUe s.src s.bsu = endOfBits Nat s.src s.bsu :=
  popUe_of_zeros (bsuOk_of_bitpos_lt hb) hz

end

/-- Settles O16: the four outcomes of `pop_exp_golomb()`. -/
theorem popUeResult : Obligations.PopUeResult := by
  intro s hf hb
  refine ⟨fun z hz h32 hle => ?value, fun z hz h32 => ⟨_, exec_popUe hf, ?range⟩,
    fun z hz h32 hlt => ⟨_, exec_popUe hf, runMicro_fault_of_endOfBits hf (popUe_of_cut hb hz h32 hlt) _⟩,
    fun hz => ⟨_, exec_popUe hf, runMicro_fault_of_endOfBits hf (popUe_of_onlyZeros hb hz) _⟩⟩
  case value => rw [exec_popUe hf, popToRet0, runMicro_of_popped (popUe_of_code hb hz h32 hle)]
  case range => rw [faultWord_mod]; exact runMicro_fault hf (popUe_of_range hb hz h32) _

/-- Settles O18: the same outcomes, the value unmapped. -/
theorem popSeResult : Obligations.PopSeResult := by
  intro s hf hb
  refine ⟨fun z hz h32 hle => ?value, fun z hz h32 => ⟨_, exec_popSe hf, ?range⟩,
    fun z hz h32 hlt => ⟨_, exec_popSe hf, runMicro_fault_of_endOfBits hf (popSe_of_fault (popUe_of_cut hb hz h32 hlt)) _⟩,
    fun hz => ⟨_, exec_popSe hf, runMicro_fault_of_endOfBits hf (popSe_of_fault (popUe_of_onlyZeros hb hz)) _⟩⟩
  case value =>
    rw [exec_popSe hf, popToRet0Signed, runMicro_of_popped (popSe_of_ok (popUe_of_code hb hz h32 hle))]
    rfl
  case range => rw [faultWord_mod]; exact runMicro_fault hf (popSe_of_fault (popUe_of_range hb hz h32)) _

/-! The encoders (R116, R117). -/

/-- The bits of a stream's value, most significant first, are the stream's bits (R72). -/
theorem testBit_streamValue (src : Src) (b : Bsu) {n k : Nat} (hk : k < n) :
    (streamValue src b n).testBit (n - 1 - k) = streamBit src b k := by
  induction n with
  | zero => omega
  | succ n ih =>
    have bit_le : (streamBit src b n).toNat ≤ 1 := Bool.toNat_le _
    rw [streamValue]
    rcases Nat.lt_succ_iff_lt_or_eq.mp hk with hlt | rfl
    · rw [show n + 1 - 1 - k = n - 1 - k + 1 by omega, Nat.testBit_succ,
        show (2 * streamValue src b n + (streamBit src b n).toNat) / 2 = streamValue src b n by omega, ih hlt]
    · rw [show k + 1 - 1 - k = 0 by omega, Nat.testBit_zero, Nat.mul_add_mod]
      cases streamBit src b k <;> rfl

/-- A canonical codeword starts with the unary prefix of its length (R116). -/
theorem unary_of_codeword {s : State} {x m : Nat} (hm : 1 ≤ m) (hlo : 2 ^ (m - 1) ≤ x + 1) (hhi : x + 1 < 2 ^ m)
    (hle : 2 * m - 1 ≤ s.unread) (hbits : s.nextBits (2 * m - 1) = x + 1) : s.unary (m - 1) := by
  have bit {k : Nat} (hk : k < 2 * m - 1) : s.nextBit k = (x + 1).testBit (2 * m - 1 - 1 - k) := by
    rw [← hbits]
    exact (testBit_streamValue s.src s.bsu hk).symm
  refine ⟨by omega, fun k hk => ?_, ?_⟩
  · rw [bit (by omega)]
    exact Nat.testBit_lt_two_pow (hhi.trans_le (Nat.pow_le_pow_right (by decide) (by omega)))
  · rw [bit (by omega), show 2 * m - 1 - 1 - (m - 1) = m - 1 by omega, Nat.testBit_eq_decide_div_mod_eq]
    have double : 2 ^ m = 2 ^ (m - 1) * 2 := by rw [← Nat.pow_succ, Nat.succ_eq_add_one, Nat.sub_add_cancel hm]
    have top : (x + 1) / 2 ^ (m - 1) = 1 := Nat.div_eq_of_lt_le (by omega) (by omega)
    rw [top]
    rfl

/-- The value of a canonical codeword is what was encoded (R116). -/
theorem golombValue_of_codeword {s : State} {x m : Nat} (hm : 1 ≤ m) (hlo : 2 ^ (m - 1) ≤ x + 1) (hhi : x + 1 < 2 ^ m)
    (hbits : s.nextBits (2 * m - 1) = x + 1) : s.golombValue (m - 1) = x := by
  have double : 2 ^ m = 2 ^ (m - 1) * 2 := by rw [← Nat.pow_succ, Nat.succ_eq_add_one, Nat.sub_add_cancel hm]
  have suffix : (x + 1) % 2 ^ (m - 1) = x + 1 - 2 ^ (m - 1) := by
    rw [Nat.mod_eq_sub_mod hlo, Nat.mod_eq_of_lt (by omega)]
  rw [State.golombValue, show 2 * (m - 1) + 1 = 2 * m - 1 by omega, hbits, suffix]
  omega

/-- `pop_exp_golomb()` on a canonical codeword gives what was encoded and consumes the codeword (R172). -/
theorem popUe_of_codeword {s : State} (hb : s.bitpos.toNat < windowWidth s.w16) {x m : Nat} (hx : x ≤ 2 ^ 32 - 2) (hm : 1 ≤ m)
    (hlo : 2 ^ (m - 1) ≤ x + 1) (hhi : x + 1 < 2 ^ m) (hle : 2 * m - 1 ≤ s.unread) (hbits : s.nextBits (2 * m - 1) = x + 1) :
    popUe s.src s.bsu = .ok x (cursorAfter s.src s.bsu (2 * m - 1)) := by
  have short : m - 1 < 32 := (Nat.pow_lt_pow_iff_right (a := 2) (by decide)).mp (by omega)
  have code := popUe_of_code hb (unary_of_codeword hm hlo hhi hle hbits) short (by omega)
  rwa [golombValue_of_codeword hm hlo hhi hbits, show 2 * (m - 1) + 1 = 2 * m - 1 by omega] at code

/-- Settles O17: the codeword's prefix and suffix give back what was encoded. -/
theorem popUeUndoesEncoder : Obligations.PopUeUndoesEncoder := by
  intro s x m hf hb hx hm hlo hhi hle hbits
  rw [exec_popUe hf, popToRet0, runMicro_of_popped (popUe_of_codeword hb hx hm hlo hhi hle hbits)]

/-- The unmapping undoes the signed encoder's map, which stays below 2^32 - 1 on the symmetric range (R117, R175). -/
theorem unmapped_zigzagCode (v : Int) : unmapped (zigzagCode v) = v := by
  unfold unmapped zigzagCode
  split <;> split <;> omega

theorem zigzagCode_le {v : Int} (hlo : -(2 ^ 31 - 1) ≤ v) (hhi : v ≤ 2 ^ 31 - 1) : zigzagCode v ≤ 2 ^ 32 - 2 := by
  unfold zigzagCode
  split <;> omega

/-- Settles O19: the unsigned codeword's value, unmapped. -/
theorem popSeUndoesEncoder : Obligations.PopSeUndoesEncoder := by
  intro s v m hf hb hvlo hvhi hm hlo hhi hle hbits
  have code := popSe_of_ok (popUe_of_codeword hb (zigzagCode_le hvlo hvhi) hm hlo hhi hle hbits)
  rw [unmapped_zigzagCode] at code
  rw [exec_popSe hf, popToRet0Signed, runMicro_of_popped code]
  rfl

/-! Fields in sequence (R165). -/

/-- Bits popped onto a value that has a part `hi` more: the part moves up by as many bits. -/
theorem popIntFrom_add (src : Src) (n hi v : Nat) :
    popIntFrom src n (hi + v) = microBind (popIntFrom src n v) fun lo => microPure (hi * 2 ^ n + lo) := by
  induction n generalizing hi v with
  | zero => simp [popIntFrom]
  | succ n ih =>
    rw [popIntFrom, popIntFrom, microBind_assoc]
    congr 1
    funext bit
    rw [show 2 * (hi + v) + bit.toNat = 2 * hi + (2 * v + bit.toNat) by ring, ih, show 2 * hi * 2 ^ n = hi * 2 ^ (n + 1) by ring]

/-- Popping `a + c` bits is popping `a` and then `c` onto them. -/
theorem popIntFrom_append (src : Src) (a c v : Nat) :
    popIntFrom src (a + c) v = microBind (popIntFrom src a v) fun hi => popIntFrom src c hi := by
  induction a generalizing v with
  | zero => rw [Nat.zero_add, popIntFrom, microBind_pure]
  | succ a ih =>
    rw [Nat.succ_add, popIntFrom, popIntFrom, microBind_assoc]
    congr 1
    funext bit
    exact ih _

/-- Fields in sequence are one field (R165). -/
theorem popInt_add (src : Src) (a c : Nat) : popInt src (a + c) =
    microBind (popInt src a) fun hi => microBind (popInt src c) fun lo => microPure (hi * 2 ^ c + lo) := by
  rw [popInt, popIntFrom_append]
  congr 1
  funext hi
  exact popIntFrom_add src c hi 0

/-- A command word the host writes runs its command (R100). -/
theorem hostCommand_eq {i : Instr} {s t : State} (h : exec i s = .next t) : hostCommand i s = t := by
  have run : hostMove (.write .word 0 (encode i)) s = .next t := (command_of_decode (decode_encode i) s).trans h
  rw [hostCommand, hostDo, run]

/-- The number `pop_int(n)` gives is `RET0` (R164, R176). -/
theorem exec_popInt_of_ok {s : State} (hf : s.faulted = false) {n : BitVec 6} (hn : n.toNat ≤ 32) {v : Nat} {b : Bsu}
    (h : popInt s.src n.toNat s.bsu = .ok v b) : exec (.popInt n) s = .next { s.setBsu b with ret0 := BitVec.ofNat 32 v } := by
  rw [exec_popInt hf hn, popToRet0, runMicro_of_ok h]

/-- The host's `POP_INT n`, `m` bits into the stream, leaves the machine `m + n` bits into it. -/
theorem hostCommand_popInt {s : State} (hf : s.faulted = false) (hb : s.bitpos.toNat < windowWidth s.w16) {m : Nat} {n : BitVec 6}
    (hn : n.toNat ≤ 32) (hle : m + n.toNat ≤ s.unread) (v : Word) :
    ∃ v', hostCommand (.popInt n) { s.popped m with ret0 := v } = { s.popped (m + n.toNat) with ret0 := v' } := by
  have hok := bsuOk_of_bitpos_lt hb
  have hm : m ≤ bitsLeft s.src s.bsu := (Nat.le_add_right ..).trans hle
  have left : n.toNat ≤ bitsLeft s.src (cursorAfter s.src s.bsu m) := by
    rw [bitsLeft_after m hok hm]
    exact Nat.le_sub_of_add_le' hle
  have popped := (popInt_cases (hok.after m) n.toNat).trans (if_pos left)
  rw [cursorAfter_add m n.toNat hok hm] at popped
  exact ⟨_, hostCommand_eq (exec_popInt_of_ok (s := { s.popped m with ret0 := v }) hf hn popped)⟩

/-- `k` times `POP_INT 32` moves the cursor `32 * k` bits on and writes `RET0` (R132). -/
theorem foldl_hostCommand_popInt {s : State} (hf : s.faulted = false) (hb : s.bitpos.toNat < windowWidth s.w16) (k : Nat)
    (hle : 32 * k ≤ s.unread) :
    ∃ v, (List.range k).foldl (fun s _ => hostCommand (.popInt 32#6) s) s = { s.popped (32 * k) with ret0 := v } := by
  induction k with
  | zero =>
    refine ⟨s.ret0, ?_⟩
    rw [Nat.mul_zero, State.popped, cursorAfter_zero s.src hb]
    rfl
  | succ k ih =>
    obtain ⟨v, hv⟩ := ih (by omega)
    rw [List.range_succ, List.foldl_append, hv]
    exact hostCommand_popInt hf hb (n := 32#6) (by decide) hle v

/-- Settles O13: `pop_int` appends bit by bit, and `SKIP_BITS` is fields in sequence. -/
theorem concatenationLaw : Obligations.ConcatenationLaw := by
  refine ⟨popInt_add, fun n s hf hb hle => ?_⟩
  obtain ⟨v, hv⟩ := foldl_hostCommand_popInt hf hb (n / 32) (by omega)
  have rest : (BitVec.ofNat 6 (n % 32)).toNat = n % 32 := by simp; omega
  have all : 32 * (n / 32) + (BitVec.ofNat 6 (n % 32)).toNat = n := by omega
  rw [skipBits, hv]
  have last := hostCommand_popInt hf hb (m := 32 * (n / 32)) (n := BitVec.ofNat 6 (n % 32)) (by omega) (by omega) v
  rwa [all] at last

end Sys2Proof.Machine

/-! PROOFS. The scan tables (43_tqu_coef.md section 1): whatever the choices of `QTAB`, a scan order is an arrangement of the block's cells
that starts at cell 0, and a table's cells are the scan order's (R211). -/

namespace Sys2Proof.Machine

/-- A scan order is an arrangement of the cells (R211 a). -/
theorem scanOrder_perm (choice : Nat → Nat) {count : Nat} (h : 0 < count) : (scanOrder choice count).Perm (List.range count) := by
  have others := pickOrder_perm choice (List.range' 1 (count - 1))
  rw [List.length_range'] at others
  have cells : List.range count = 0 :: List.range' 1 (count - 1) := by
    obtain ⟨k, rfl⟩ := Nat.exists_eq_add_of_le' h
    rw [List.range_eq_range', List.range'_succ, Nat.add_sub_cancel]
  rw [cells]
  exact others.cons 0

/-- The table of an `n × n` block with this scan order and these shifts (R44, R211). -/
def scanTable (n : Nat) (choice : Nat → Nat) (shift : Nat → BitVec 5) : List QEntry :=
  (List.range (n * n)).map fun i => scanEntry n ((scanOrder choice (n * n)).getD i 0) (shift i)

theorem qtab4_eq (q : BitVec 6) : qtab4 q = scanTable 4 Config.scanChoice4 (Config.shift4 q) := rfl

theorem qtab8_eq (q : BitVec 6) : qtab8 q = scanTable 8 Config.scanChoice8 (Config.shift8 q) := rfl

section
variable {n : Nat} (hn : 0 < n) (choice : Nat → Nat) (shift : Nat → BitVec 5)

theorem length_scanTable : (scanTable n choice shift).length = n * n := by
  rw [scanTable, List.length_map, List.length_range]

include hn

/-- The cells of a table are those of its scan order, in that order, whatever the shifts (R211 d). -/
theorem scanTable_cells : (scanTable n choice shift).map (fun e => (e.row, e.col)) =
    (scanOrder choice (n * n)).map fun cell => (cell / n, cell % n) := by
  have length : (scanOrder choice (n * n)).length = n * n := by
    rw [(scanOrder_perm choice (Nat.mul_pos hn hn)).length_eq, List.length_range]
  apply List.ext_getElem
  · rw [List.length_map, length_scanTable, List.length_map, length]
  · intro i h1 h2
    simp [scanTable, scanEntry, (List.length_map .. ▸ h2 : i < (scanOrder choice (n * n)).length)]

/-- Position 0 is the DC cell (R211 b). -/
theorem scanTable_dc : (scanTable n choice shift)[0]? = some ⟨0, 0, shift 0⟩ := by
  rw [scanTable, List.getElem?_map, List.getElem?_range (Nat.mul_pos hn hn)]
  simp [scanEntry, scanOrder]

/-- The cells of a table are exactly the cells of the block (R211 a). -/
theorem mem_scanTable_cells (r c : Nat) :
    (r, c) ∈ (scanTable n choice shift).map (fun e => (e.row, e.col)) ↔ r < n ∧ c < n := by
  rw [scanTable_cells hn, ((scanOrder_perm choice (Nat.mul_pos hn hn)).map _).mem_iff, List.mem_map]
  constructor
  · rintro ⟨cell, hcell, h⟩
    obtain ⟨rfl, rfl⟩ := Prod.mk.inj h
    exact ⟨Nat.div_lt_of_lt_mul (List.mem_range.mp hcell), Nat.mod_lt _ hn⟩
  · rintro ⟨hr, hc⟩
    refine ⟨r * n + c, List.mem_range.mpr ?_, ?_⟩
    · calc r * n + c < r * n + n := Nat.add_lt_add_left hc _
        _ = (r + 1) * n := (Nat.succ_mul r n).symm
        _ ≤ n * n := Nat.mul_le_mul_right n hr
    · rw [Nat.mul_comm, Nat.mul_add_div hn, Nat.mul_add_mod, Nat.div_eq_of_lt hc, Nat.mod_eq_of_lt hc, Nat.add_zero]

end

/-- Settles O23: each table is the table of a scan order that does not depend on the quantizer. -/
theorem scanIsBijection : Obligations.ScanIsBijection := by
  have table {n : Nat} (hn : 0 < n) (choice : Nat → Nat) (shift shift' : Nat → BitVec 5) :
      (scanTable n choice shift).length = n * n ∧ (∀ e ∈ scanTable n choice shift, e.row < n ∧ e.col < n) ∧
      (∀ r c, r < n → c < n → ∃ e ∈ scanTable n choice shift, e.row = r ∧ e.col = c) ∧
      (∃ sh, (scanTable n choice shift)[0]? = some ⟨0, 0, sh⟩) ∧
      (scanTable n choice shift).map (fun e => (e.row, e.col)) = (scanTable n choice shift').map (fun e => (e.row, e.col)) := by
    refine ⟨length_scanTable .., fun e he => ?_, fun r c hr hc => ?_, ⟨shift 0, scanTable_dc hn choice shift⟩, ?_⟩
    · exact (mem_scanTable_cells hn choice shift e.row e.col).mp (List.mem_map_of_mem he)
    · obtain ⟨e, he, cell⟩ := List.mem_map.mp ((mem_scanTable_cells hn choice shift r c).mpr ⟨hr, hc⟩)
      exact ⟨e, he, Prod.mk.inj cell⟩
    · rw [scanTable_cells hn, scanTable_cells hn]
  exact fun q p => ⟨table (n := 4) (by decide) .., table (n := 8) (by decide) ..⟩

end Sys2Proof.Machine

/-! PROOFS. `COEF` (43_tqu_coef.md sections 2 and 3): the fields of a coefficient symbol and of the raw escape, the command as one run of
the symbol loop, and what that run ends in (R215 to R220, R223). -/

namespace Sys2Proof.Machine

/-! A coefficient symbol (R193, R216, R219). -/

/-- The raw escape's 19 bits are one, six and twelve (R120). -/
theorem streamValue_escape {src : Src} {b : Bsu} (hok : BsuOk src b) (h : 19 ≤ bitsLeft src b) :
    streamValue src b 19 = (streamBit src b 0).toNat * 2 ^ 18 +
      (streamValue src (cursorAfter src b 1) 6 * 2 ^ 12 + streamValue src (cursorAfter src b 7) 12) := by
  have left := bitsLeft_next hok (by omega)
  rw [streamValue_next hok (by omega) 18, streamValue_add hok.next (m := 6) (by omega) 12, cursorAfter_next hok (by omega)]

/-- The raw escape with its 19 bits there: each field is popped where the one before it ends (R219). -/
theorem rawEscape_of_le {src : Src} {b : Bsu} (hok : BsuOk src b) (h : 19 ≤ bitsLeft src b) (announced : Bool) {f : Bool} {run : Nat}
    {level : Int} (hf : streamBit src b 0 = f) (hrun : streamValue src (cursorAfter src b 1) 6 = run)
    (hlevel : signedValue 12 (streamValue src (cursorAfter src b 7) 12) = level) :
    rawEscape src .last announced b = .ok ⟨f, run, level⟩ (cursorAfter src b 19) ∧
    rawEscape src .sign announced b = .ok ⟨announced, run, if f then -level else level⟩ (cursorAfter src b 19) := by
  have left1 := bitsLeft_next hok (by omega)
  have left7 := bitsLeft_after 7 hok (by omega)
  have popF : popBit src b = .ok f (cursorAfter src b 1) := by rw [popBit_of_pos hok (by omega), hf]
  have popRun : popInt src 6 (cursorAfter src b 1) = .ok run (cursorAfter src b 7) := by
    rw [popInt_cases hok.next, if_pos (by omega), cursorAfter_next hok (by omega), hrun]
  have popLevel : popSint src 12 (cursorAfter src b 7) = .ok level (cursorAfter src b 19) := by
    rw [popSint_cases (hok.after 7) (by decide), if_pos (by omega), cursorAfter_add 7 12 hok (by omega), hlevel]
  constructor <;> rw [rawEscape, microBind_of_ok popF, microBind_of_ok popRun, microBind_of_ok popLevel] <;> rfl

/-- Settles O27: the 19-bit field is the three values popped one after the other. -/
theorem rawEscapeFields : Obligations.RawEscapeFields := by
  intro src b announced hb hlen hle
  have hok : BsuOk src b := ⟨hb, hlen⟩
  have field := streamValue_escape hok hle
  have run_lt := streamValue_lt src (cursorAfter src b 1) 6
  have level_lt := streamValue_lt src (cursorAfter src b 7) 12
  have bit : streamValue src b 19 / 2 ^ 18 = (streamBit src b 0).toNat := by omega
  have run : streamValue src (cursorAfter src b 1) 6 = streamValue src b 19 / 2 ^ 12 % 2 ^ 6 := by
    have := Bool.toNat_le (streamBit src b 0)
    omega
  have level : streamValue src (cursorAfter src b 7) 12 = streamValue src b 19 % 2 ^ 12 := by omega
  have f : streamBit src b 0 = decide (streamValue src b 19 / 2 ^ 18 = 1) := by
    rw [bit]
    cases streamBit src b 0 <;> rfl
  simpa only [decide_eq_true_eq] using rawEscape_of_le hok hle announced f run (congrArg (signedValue 12) level)

/-- A symbol of tables 0 and 1 with the key it was met under (R193, R194). -/
theorem popVlcKey_of_popVlc {src : Src} {vlc : List VlcRow} {tab : BitVec 8} {sym : Word} {b b1 : Bsu}
    (h : popVlc src vlc tab b = .ok sym b1) :
    ∃ key, popVlcKey src vlc tab b = .ok (key, sym) b1 ∧ tableLookup vlc tab key = some sym := by
  obtain ⟨key, hkey⟩ := popVlc_ok_iff.mp h
  exact ⟨key, hkey, tableLookup_of_popVlcFrom hkey⟩

/-- A walk that faults is the symbol's fault (R216). -/
theorem coefSymbol_of_popVlc_fault {k : CoefParams} {src : Src} {rom : Rom} {tab : BitVec 8} {b b' : Bsu} {f : FaultKind} {info : Int}
    (h : popVlc src rom.vlc tab b = .fault f info b') : coefSymbol k src rom tab b = .fault f info b' :=
  microBind_of_fault (popVlc_fault_iff.mp h)

/-! The command. -/

/-- `COEF` on a clear machine whose checks pass is one run of the symbol loop, and then the reconstruction (R215). -/
theorem exec_coef_of_fits {sel : BitVec 4} {plane : BitVec 2} {s : State} {n : Nat} {qt : List QEntry} (hf : s.faulted = false)
    (hfr : s.framev = true) (hqv : s.qv = true) (hplane : plane ≠ 3#2)
    (hsel : sel = 0#4 ∧ n = 4 ∧ qt = s.qt4 ∨ sel = 1#4 ∧ n = 8 ∧ qt = s.qt8) (hfit : s.fits plane.toNat n n) :
    exec (.coef sel plane) s = .next (runMicro s
      (coefLoop (coefSymbol coefParams s.src s.rom s.coefTable) qt n (n * n + 1) 0 0 (List.replicate (n * n) 0#32))
      fun mc s => coefReconstruct coefParams n plane.toNat mc.1 mc.2 s) := by
  have initialised : ¬ (s.framev = false ∨ s.qv = false) := by simp [hfr, hqv]
  rcases hsel with ⟨rfl, rfl, rfl⟩ | ⟨rfl, rfl, rfl⟩
  · rw [exec, execCoef, perform_of_clear hf, coefBody, if_neg initialised, if_neg (by simp [hplane]),
      if_neg (by simp [coefSide, inside_of_fits hfit])]
    rfl
  · rw [exec, execCoef, perform_of_clear hf, coefBody, if_neg initialised, if_neg (by simp [hplane]),
      if_neg (by simp [coefSide, inside_of_fits hfit])]
    rfl

/-- `COEF` after symbols that fit (R215): a fault of the next symbol is the command's, and so is a position at or beyond the block. -/
theorem coefStreamFaults_of_readsOn {sel : BitVec 4} {plane : BitVec 2} {s : State} {n : Nat} {qt : List QEntry} {first : List CoefSym}
    {b : Bsu} {m : List Word} (hf : s.faulted = false) (hfr : s.framev = true) (hqv : s.qv = true) (hplane : plane ≠ 3#2)
    (hsel : sel = 0#4 ∧ n = 4 ∧ qt = s.qt4 ∨ sel = 1#4 ∧ n = 8 ∧ qt = s.qt8) (hfit : s.fits plane.toNat n n)
    (hr : readsOn (coefSymbol coefParams s.src s.rom s.coefTable) first s.bsu b)
    (hp : placeSymbols qt n 0 (List.replicate (n * n) 0#32) first = some m) :
    (∀ c b', coefSymbol coefParams s.src s.rom s.coefTable b = .ok c b' → n * n ≤ scanAfter first + c.run →
      ∃ t, exec (.coef sel plane) s = .next t ∧ t.fault = faultWord .coefOverrun (scanAfter first + c.run : Nat)) ∧
    (∀ f info b', coefSymbol coefParams s.src s.rom s.coefTable b = .fault f info b' →
      ∃ t, exec (.coef sel plane) s = .next t ∧ t.fault = faultWord f info) := by
  obtain ⟨onFault, onOverrun⟩ := coefLoop_after hr hp
  have run := exec_coef_of_fits hf hfr hqv hplane hsel hfit
  exact ⟨fun c b' hc hle => ⟨_, run, runMicro_fault hf (onOverrun c b' hc hle) _⟩,
    fun f info b' hc => ⟨_, run, runMicro_fault hf (onFault f info b' hc) _⟩⟩

/-- Settles O26: the symbol loop, run up to the symbol that goes wrong. -/
theorem coefStreamFaults : Obligations.CoefStreamFaults := by
  intro sel plane s n qt first b m hf hfr hqv hplane hsel hfit hr hp
  exact coefStreamFaults_of_readsOn hf hfr hqv hplane hsel hfit hr hp

/-- Settles O24: the command's first symbol is a walk of `DCTTAB`'s table, and a symbol is what its word's fields say. -/
theorem coefSymbolFields : Obligations.CoefSymbolFields := by
  refine ⟨fun sel plane s hf hfr hqv hplane hsel f info b hwalk => ?walk, fun k src rom tab sym b b1 htab hsym => ?symbol⟩
  case walk =>
    have fault : coefSymbol coefParams s.src s.rom s.coefTable s.bsu = .fault f info b := coefSymbol_of_popVlc_fault hwalk
    rcases hsel with ⟨rfl, hfit⟩ | ⟨rfl, hfit⟩
    · exact (coefStreamFaults_of_readsOn (first := []) hf hfr hqv hplane (.inl ⟨rfl, rfl, rfl⟩) hfit rfl rfl).2 f info b fault
    · exact (coefStreamFaults_of_readsOn (first := []) hf hfr hqv hplane (.inr ⟨rfl, rfl, rfl⟩) hfit rfl rfl).2 f info b fault
  case symbol =>
    obtain ⟨key, hkey, hlookup⟩ := popVlcKey_of_popVlc hsym
    have sym_lt := tableLookup_lt htab hlookup
    rw [← symLevel_eq, ← symRun_eq, ← symLast_eq sym_lt]
    exact ⟨sym_lt, key, hlookup, fun hlevel negative b2 hcode => coefSymbol_plain hkey hlevel hcode,
      fun hlevel path b2 hcode => (coefSymbol_escape hkey hlevel hcode).trans (by cases path <;> rfl)⟩

/-- A pixel of the block after the adder (R223). -/
theorem addResidual_toNat (old : Byte) (res : Word) :
    ((addResidual old res).toNat : Int) = max 0 (min 255 (old.toNat + res.toInt)) := clamp255_toNat _

/-- The plane store after the reconstruction is that of its one block write (R215, R223). -/
theorem pixel_coefReconstruct (k : CoefParams) (n plane : Nat) (m : List Word) (count : Nat) (s : State) (slot p r c : Nat) :
    (coefReconstruct k n plane m count s).pixel slot p r c =
      (s.writeBlock plane s.blockX s.blockY n n fun j i =>
        addResidual (s.pixel s.cur.val plane (s.blockY + j) (s.blockX + i))
          (cell n (inverseTransform (if n = 4 then k.it4 else k.it8) k.resShift n (biasDc m)) j i)).pixel slot p r c := rfl

/-- Settles O25: the loop reads the symbols and places them, and the reconstruction writes one block. -/
theorem coefResult : Obligations.CoefResult := by
  intro sel plane s n qt it first final b b' m hf hfr hqv hplane hsel hfit hr hs hl hp
  have hsel' : sel = 0#4 ∧ n = 4 ∧ qt = s.qt4 ∨ sel = 1#4 ∧ n = 8 ∧ qt = s.qt8 := by
    rcases hsel with ⟨h1, h2, h3, -⟩ | ⟨h1, h2, h3, -⟩
    · exact .inl ⟨h1, h2, h3⟩
    · exact .inr ⟨h1, h2, h3⟩
  have transform : (if n = 4 then coefParams.it4 else coefParams.it8) = it := by
    rcases hsel with ⟨-, rfl, -, rfl⟩ | ⟨-, rfl, -, rfl⟩ <;> rfl
  have loop := coefLoop_of_symbols hr hs hl hp
  have run := (exec_coef_of_fits hf hfr hqv hplane hsel' hfit).trans (congrArg _ (runMicro_of_ok loop _))
  refine ⟨_, run, rfl, fun slot p r c hs => ⟨fun hin => ?block, fun hout => ?frame⟩⟩
  case block =>
    have old : (s.setBsu b').pixel (s.setBsu b').cur.val plane.toNat ((s.setBsu b').blockY + (r - (s.setBsu b').blockY))
        ((s.setBsu b').blockX + (c - (s.setBsu b').blockX)) = s.pixel slot p r c := by
      obtain ⟨rfl, rfl, ⟨hr1, -⟩, hc1, -⟩ := hin
      exact congrArg₂ (s.pixel s.cur.val plane.toNat) (Nat.add_sub_cancel' hr1) (Nat.add_sub_cancel' hc1)
    rw [pixel_coefReconstruct, pixel_writeBlock_in (s.setBsu b') _ (plane_lt hplane) hfit hs hin, addResidual_toNat, transform, old]
    rfl
  case frame =>
    rw [pixel_coefReconstruct, pixel_writeBlock_out (s.setBsu b') _ (plane_lt hplane) hfit hs hout]
    rfl

end Sys2Proof.Machine

/-! PROOFS. The intra-prediction unit (44_ipu_intra.md), and the checks that `COEF`, `IPRED` and `IPRED_P` make before any bit is popped
(R215, R250 to R258). -/

namespace Sys2Proof.Machine

/-! What a prediction depends on (R252 a). -/

/-- States of one geometry have planes of one size (R33). -/
theorem planeSize_congr {s u : State} (h : s.frame = u.frame) (plane : Nat) :
    s.planeW plane = u.planeW plane ∧ s.planeH plane = u.planeH plane := by
  simp only [State.planeW, State.planeH, State.width, State.height, h, and_self]

/-- States of one geometry that agree above and left of a block show the prediction the same pixels (R252 a). -/
theorem causalPixel_congr {s u : State} {plane x y n : Nat} (hframe : s.frame = u.frame)
    (hagree : ∀ r c, r < y ∨ (c < x ∧ r < y + n) → r < s.planeH plane → c < s.planeW plane →
      s.pixel s.cur.val plane r c = u.pixel u.cur.val plane r c) :
    s.causalPixel plane x y n = u.causalPixel plane x y n := by
  obtain ⟨width, height⟩ := planeSize_congr hframe plane
  funext r c
  rw [State.causalPixel, State.causalPixel, ← width, ← height]
  by_cases causal : (r < y ∨ (c < x ∧ r < y + n)) ∧ r < s.planeH plane ∧ c < s.planeW plane
  · rw [if_pos causal, if_pos causal]
    exact hagree r c causal.1 causal.2.1 causal.2.2
  · rw [if_neg causal, if_neg causal]

/-- Settles O31: the prediction reads the plane only through the pixels it is shown. -/
theorem intraCausality : Obligations.IntraCausality := by
  intro mode plane n x y s u hframe hagree j i
  obtain ⟨width, height⟩ := planeSize_congr hframe plane
  rw [State.intraBlock, State.intraBlock, causalPixel_congr hframe hagree, width, height]

/-! The commands that fill a block. -/

/-- Outside the block `fillIntra` leaves the plane store as it was (R251). -/
theorem pixel_fillIntra_out {s : State} (mode : Nat) {plane : Nat} (hp : plane < 3) (hfit : s.fits plane s.blockW s.blockW)
    {slot q r c : Nat} (hs : inStore slot q r c)
    (hout : ¬ (slot = s.cur.val ∧ q = plane ∧ inBlock s.blockX s.blockY s.blockW s.blockW r c)) :
    (s.fillIntra mode plane).pixel slot q r c = s.pixel slot q r c :=
  pixel_writeBlock_out s _ hp hfit hs hout

/-- Settles O29: the checks pass, so the command is one filled block. -/
theorem ipredResult : Obligations.IpredResult := by
  intro sel plane s hf hfr hsel hplane hsq hfit
  refine ⟨_, exec_ipred_of_fits hf hfr hsel hplane hsq hfit, rfl, fun slot p r c hs => ⟨?_, ?_⟩⟩
  · rintro ⟨rfl, rfl, hin⟩
    exact pixel_fillIntra_in _ (plane_lt hplane) hfit hin
  · exact pixel_fillIntra_out _ (plane_lt hplane) hfit hs

/-- An entry of the mode cache that the block covers holds the mode (R257 b). -/
theorem getElem?_updateCache_covered {pmc : List (Fin 10)} {plane x y n k : Nat} (leaf : ModeLeaf)
    (hcover : k ∈ Config.modeCover plane x y n) (hk : k < pmc.length) :
    (updateCache pmc plane x y n leaf)[k]? = some leaf.mode.castSucc := by
  rw [updateCache, List.getElem?_map, List.getElem?_range hk, Option.map_some, if_pos hcover]

/-- A plane that exists and a square block pass the operand check (R251). -/
theorem not_intraOperandsBad {s : State} {plane : BitVec 2} (hplane : plane ≠ 3#2) (hsq : s.squareBlock) :
    ¬ s.intraOperandsBad plane = true := by
  rw [intraOperandsBad_iff]
  exact not_or.mpr ⟨hplane, not_not.mpr hsq⟩

/-- `IPRED_P` on a clear machine whose checks pass is one run of the mode's code, and then the filled block (R258). -/
theorem exec_ipredP_of_fits {s : State} {plane : BitVec 2} (hf : s.faulted = false) (hfr : s.framev = true) (hpmcv : s.pmcv = true)
    (hplane : plane ≠ 3#2) (hsq : s.squareBlock) (hfit : s.fits plane.toNat s.blockW s.blockW) :
    exec (.ipredP 0#4 plane) s = .next (runMicro s
      (popCode s.src (modeCode s.rom s.pmc plane.toNat s.blockX s.blockY s.blockW)) fun leaf s =>
        { s.fillIntra leaf.mode.val plane.toNat with
          pmc := updateCache s.pmc plane.toNat s.blockX s.blockY s.blockW leaf
          ret0 := BitVec.ofNat 32 leaf.mode.val }) := by
  have operands_ok : ¬ (0#4 ≠ 0#4 ∨ s.intraOperandsBad plane = true) :=
    not_or.mpr ⟨not_not.mpr rfl, not_intraOperandsBad hplane hsq⟩
  rw [exec, execIpredP, perform_of_clear hf, if_neg (by simp [hfr, hpmcv]), if_neg operands_ok,
    if_neg (by simp [inside_of_fits hfit])]

/-- Settles O34: the code names the mode, and what follows it is one update of the cache and one filled block. -/
theorem ipredPResult : Obligations.IpredPResult := by
  intro plane s hf hfr hpmcv hplane hsq hfit
  have run := exec_ipredP_of_fits hf hfr hpmcv hplane hsq hfit
  refine ⟨fun leaf b' hcode => ?mode, fun f info b' hcode => ⟨_, run, runMicro_fault hf hcode _⟩⟩
  case mode =>
    refine ⟨_, run.trans (congrArg _ (runMicro_of_ok hcode _)), rfl, ?length,
      fun k hcover hk => getElem?_updateCache_covered leaf hcover hk, fun slot p r c hs => ⟨?block, ?frame⟩⟩
    case length => exact (List.length_map _).trans List.length_range
    case block =>
      rintro ⟨rfl, rfl, hin⟩
      exact pixel_fillIntra_in (s := s.setBsu b') _ (plane_lt hplane) hfit hin
    case frame => exact pixel_fillIntra_out (s := s.setBsu b') _ (plane_lt hplane) hfit hs

/-- Settles O33: the cache is filled with one value. -/
theorem pmodeResetResult : Obligations.PmodeResetResult := by
  refine fun s hf => ⟨fun hfr => ?filled, fun hfr => ?fault⟩
  case filled =>
    refine ⟨{ s with pmc := List.replicate (Config.modeCacheSize s.width s.height) 9, pmcv := true }, ?_, rfl, List.length_replicate,
      fun e he => List.eq_of_mem_replicate he⟩
    rw [exec, execPmodeReset, perform_of_clear hf, if_neg (by simp [hfr])]
  case fault =>
    rw [exec, execPmodeReset, perform_of_clear hf, if_pos hfr, raise_of_clear hf]
    rfl

/-! The checks (R215, R251, R258, R338): each lemma says where a command ends that fails one of them. -/

section
variable {s : State} {sel : BitVec 4} {plane : BitVec 2}

/-- `COEF` without a geometry or a quantizer (R215). -/
theorem exec_coef_of_notInitialised (hf : s.faulted = false) (h : s.framev = false ∨ s.qv = false) :
    exec (.coef sel plane) s = .next (s.faultedWith .notInitialised 0) := by
  rw [exec, execCoef, perform_of_clear hf, coefBody, if_pos h, raise_of_clear hf]
  rfl

/-- `COEF` with a selector above 1 or plane 3 (R215). -/
theorem exec_coef_of_badOperand (hf : s.faulted = false) (hfr : s.framev = true) (hqv : s.qv = true)
    (h : 1 < sel.toNat ∨ plane = 3#2) : exec (.coef sel plane) s = .next (s.faultedWith .badOperand 0) := by
  rw [exec, execCoef, perform_of_clear hf, coefBody, if_neg (by simp [hfr, hqv]), if_pos h, raise_of_clear hf]
  rfl

/-- `COEF` on a block that is not inside its plane (R215). -/
theorem exec_coef_of_not_fits (hf : s.faulted = false) (hfr : s.framev = true) (hqv : s.qv = true) (hplane : plane ≠ 3#2)
    (h : sel = 0#4 ∧ ¬ s.fits plane.toNat 4 4 ∨ sel = 1#4 ∧ ¬ s.fits plane.toNat 8 8) :
    exec (.coef sel plane) s = .next (s.faultedWith .planeBounds 0) := by
  have operands_ok : ¬ (1 < sel.toNat ∨ plane = 3#2) := by rcases h with ⟨rfl, -⟩ | ⟨rfl, -⟩ <;> simp [hplane]
  have outside : s.inside plane.toNat s.blockX s.blockY (coefSide sel) (coefSide sel) = false := by
    rcases h with ⟨rfl, h⟩ | ⟨rfl, h⟩ <;> exact inside_of_not_fits h
  rw [exec, execCoef, perform_of_clear hf, coefBody, if_neg (by simp [hfr, hqv]), if_neg operands_ok, if_pos outside, raise_of_clear hf]
  rfl

/-- `IPRED` without a geometry (R251). -/
theorem exec_ipred_of_notInitialised (hf : s.faulted = false) (h : s.framev = false) :
    exec (.ipred sel plane) s = .next (s.faultedWith .notInitialised 0) := by
  rw [exec, execIpred, perform_of_clear hf, if_pos h, raise_of_clear hf]
  rfl

/-- `IPRED` with a mode above 8, plane 3 or a block of another shape (R251). -/
theorem exec_ipred_of_badOperand (hf : s.faulted = false) (hfr : s.framev = true)
    (h : 8 < sel.toNat ∨ plane = 3#2 ∨ ¬ s.squareBlock) : exec (.ipred sel plane) s = .next (s.faultedWith .badOperand 0) := by
  rw [← intraOperandsBad_iff] at h
  rw [exec, execIpred, perform_of_clear hf, if_neg (by simp [hfr]), if_pos h, raise_of_clear hf]
  rfl

/-- `IPRED` on a block that is not inside its plane (R251). -/
theorem exec_ipred_of_not_fits (hf : s.faulted = false) (hfr : s.framev = true) (hsel : sel.toNat ≤ 8) (hplane : plane ≠ 3#2)
    (hsq : s.squareBlock) (h : ¬ s.fits plane.toNat s.blockW s.blockW) :
    exec (.ipred sel plane) s = .next (s.faultedWith .planeBounds 0) := by
  have operands_ok : ¬ (8 < sel.toNat ∨ s.intraOperandsBad plane = true) :=
    not_or.mpr ⟨Nat.not_lt.mpr hsel, not_intraOperandsBad hplane hsq⟩
  rw [exec, execIpred, perform_of_clear hf, if_neg (by simp [hfr]), if_neg operands_ok, if_pos (inside_of_not_fits h), raise_of_clear hf]
  rfl

/-- `IPRED_P` without a geometry or the mode cache (R258). -/
theorem exec_ipredP_of_notInitialised (hf : s.faulted = false) (h : s.framev = false ∨ s.pmcv = false) :
    exec (.ipredP sel plane) s = .next (s.faultedWith .notInitialised 0) := by
  rw [exec, execIpredP, perform_of_clear hf, if_pos h, raise_of_clear hf]
  rfl

/-- `IPRED_P` with a nonzero selector, plane 3 or a block of another shape (R258). -/
theorem exec_ipredP_of_badOperand (hf : s.faulted = false) (hfr : s.framev = true) (hpmcv : s.pmcv = true)
    (h : sel ≠ 0#4 ∨ plane = 3#2 ∨ ¬ s.squareBlock) : exec (.ipredP sel plane) s = .next (s.faultedWith .badOperand 0) := by
  rw [← intraOperandsBad_iff] at h
  rw [exec, execIpredP, perform_of_clear hf, if_neg (by simp [hfr, hpmcv]), if_pos h, raise_of_clear hf]
  rfl

/-- `IPRED_P` on a block that is not inside its plane (R258). -/
theorem exec_ipredP_of_not_fits (hf : s.faulted = false) (hfr : s.framev = true) (hpmcv : s.pmcv = true) (hsel : sel = 0#4)
    (hplane : plane ≠ 3#2) (hsq : s.squareBlock) (h : ¬ s.fits plane.toNat s.blockW s.blockW) :
    exec (.ipredP sel plane) s = .next (s.faultedWith .planeBounds 0) := by
  have operands_ok : ¬ (sel ≠ 0#4 ∨ s.intraOperandsBad plane = true) :=
    not_or.mpr ⟨not_not.mpr hsel, not_intraOperandsBad hplane hsq⟩
  rw [exec, execIpredP, perform_of_clear hf, if_neg (by simp [hfr, hpmcv]), if_neg operands_ok, if_pos (inside_of_not_fits h),
    raise_of_clear hf]
  rfl

end

/-- Settles O32: a command's checks are the first branches of its body, in this order. -/
theorem blockTraps : Obligations.BlockTraps := by
  intro sel plane s hf
  exact ⟨exec_coef_of_notInitialised hf, exec_coef_of_badOperand hf, exec_coef_of_not_fits hf,
    exec_ipred_of_notInitialised hf, exec_ipred_of_badOperand hf, exec_ipred_of_not_fits hf,
    exec_ipredP_of_notInitialised hf, exec_ipredP_of_badOperand hf, exec_ipredP_of_not_fits hf⟩

end Sys2Proof.Machine

/-! PROOFS. Motion compensation and the reference ring (45_mcu_motion.md): the checks of `MC` in their order, the copy the zero vector
makes, and `ROTATE` (R271 to R274, R279). -/

namespace Sys2Proof.Machine

section
variable {s : State} {k : BitVec 4} {plane : BitVec 2}

/-- `MC` without a geometry (R271). -/
theorem exec_mc_of_notInitialised (hf : s.faulted = false) (hfr : s.framev = false) :
    exec (.mc k plane) s = .next (s.faultedWith .notInitialised 0) := by
  rw [exec, execMc, perform_of_clear hf, mcBody, if_pos hfr, raise_of_clear hf]
  rfl

/-- The operand check of `MC` (R271). -/
theorem mcOperandsBad_iff :
    (k.toNat = 0 ∨ 5 < k.toNat ∨ plane = 3#2 ∨ motionSide s.blockW = false ∨ motionSide s.blockH = false) ↔
      (k.toNat = 0 ∨ 5 < k.toNat ∨ plane = 3#2 ∨ ¬ motionSize s.blockW ∨ ¬ motionSize s.blockH) := by
  rw [← motionSide_iff, ← motionSide_iff, Bool.not_eq_true, Bool.not_eq_true]

/-- `MC` with a reference index, a plane or a size it does not take (R271). -/
theorem exec_mc_of_badOperand (hf : s.faulted = false) (hfr : s.framev = true)
    (h : k.toNat = 0 ∨ 5 < k.toNat ∨ plane = 3#2 ∨ ¬ motionSize s.blockW ∨ ¬ motionSize s.blockH) :
    exec (.mc k plane) s = .next (s.faultedWith .badOperand 0) := by
  rw [exec, execMc, perform_of_clear hf, mcBody, if_neg (by simp [hfr]), if_pos (mcOperandsBad_iff.mpr h), raise_of_clear hf]
  rfl

variable (hf : s.faulted = false) (hfr : s.framev = true) (h1 : 1 ≤ k.toNat) (h5 : k.toNat ≤ 5) (hplane : plane ≠ 3#2)
  (hw : motionSize s.blockW) (hh : motionSize s.blockH)
include hf hfr h1 h5 hplane hw hh

/-- `MC` with operands it takes goes on to the reference and the bounds (R271). -/
theorem exec_mc_of_operands :
    exec (.mc k plane) s = .next (
      if s.slotValid (refSlot s.cur k.toNat) = false then s.faultedWith .refInvalid k.toNat
      else if s.inside plane.toNat s.blockX s.blockY s.blockW s.blockH = false then s.faultedWith .planeBounds 0
      else if s.sourceInside plane.toNat (s.blockX + wholePart (mvOf s.a2).dx) (s.blockY + wholePart (mvOf s.a2).dy) s.blockW s.blockH
        (halfBit (mvOf s.a2).dx) (halfBit (mvOf s.a2).dy) = false then s.faultedWith .planeBounds 0
      else s.writeBlock plane.toNat s.blockX s.blockY s.blockW s.blockH (s.predicted roundBias (refSlot s.cur k.toNat) plane.toNat
        (s.blockX + wholePart (mvOf s.a2).dx).toNat (s.blockY + wholePart (mvOf s.a2).dy).toNat
        (halfBit (mvOf s.a2).dx) (halfBit (mvOf s.a2).dy))) := by
  have operands_ok : ¬ (k.toNat = 0 ∨ 5 < k.toNat ∨ plane = 3#2 ∨ motionSide s.blockW = false ∨ motionSide s.blockH = false) := by
    rw [mcOperandsBad_iff]
    simp only [hplane, hw, hh, not_true_eq_false, or_false]
    omega
  rw [exec, execMc, perform_of_clear hf, mcBody, if_neg (by simp [hfr]), if_neg operands_ok, raise_of_clear hf, raise_of_clear hf]
  rfl

/-- `MC` whose reference slot holds no completed frame (R271, R274). -/
theorem exec_mc_of_refInvalid (hvalid : s.valid.getLsbD ((s.cur.val + 6 - k.toNat) % 6) = false) :
    exec (.mc k plane) s = .next (s.faultedWith .refInvalid k.toNat) := by
  rw [exec_mc_of_operands hf hfr h1 h5 hplane hw hh]
  exact congrArg _ (if_pos hvalid)

/-- `MC` whose block or widened source is not inside the plane (R271). -/
theorem exec_mc_of_outside (hvalid : s.valid.getLsbD ((s.cur.val + 6 - k.toNat) % 6) = true)
    (h : ¬ s.fits plane.toNat s.blockW s.blockH ∨
      s.sourceInside plane.toNat (s.blockX + wholePart (mvOf s.a2).dx) (s.blockY + wholePart (mvOf s.a2).dy) s.blockW s.blockH
        (halfBit (mvOf s.a2).dx) (halfBit (mvOf s.a2).dy) = false) :
    exec (.mc k plane) s = .next (s.faultedWith .planeBounds 0) := by
  have valid : ¬ s.slotValid (refSlot s.cur k.toNat) = false := Bool.not_eq_false _ ▸ hvalid
  rw [exec_mc_of_operands hf hfr h1 h5 hplane hw hh, if_neg valid]
  by_cases hfit : s.fits plane.toNat s.blockW s.blockH
  · rw [if_neg (by simp [inside_of_fits hfit]), if_pos (h.resolve_left (not_not.mpr hfit))]
  · rw [if_pos (inside_of_not_fits hfit)]

end

/-- The widened source block is outside its plane when one of its sides is (R271). -/
theorem sourceInside_eq_false_iff (s : State) (plane : Nat) (sx sy : Int) (w h ex ey : Nat) :
    s.sourceInside plane sx sy w h ex ey = false ↔
      sx < 0 ∨ sy < 0 ∨ s.planeW plane < sx + w + ex ∨ s.planeH plane < sy + h + ey := by
  simp only [State.sourceInside, Bool.and_eq_false_iff, decide_eq_false_iff_not, Int.not_le, or_assoc]

/-- Settles O37: the checks are the first branches of the command's body, in this order. -/
theorem mcTraps : Obligations.McTraps := by
  rintro k plane s dx dy sx sy hf rfl rfl rfl rfl
  refine ⟨exec_mc_of_notInitialised hf, exec_mc_of_badOperand hf, fun hfr h1 h5 hplane hw hh =>
    ⟨exec_mc_of_refInvalid hf hfr h1 h5 hplane hw hh, fun hvalid h => ?outside⟩⟩
  refine exec_mc_of_outside hf hfr h1 h5 hplane hw hh hvalid (h.imp_right fun hsource => ?_)
  rw [sourceInside_eq_false_iff, wholePart_eq, wholePart_eq, halfBit_eq, halfBit_eq]
  exact hsource

/-- A pixel of a block that fits has an address in the plane store (R33, R79). -/
theorem inStore_of_fits {s : State} {plane w h r c : Nat} (hp : plane < 3) (hfit : s.fits plane w h)
    (hin : inBlock s.blockX s.blockY w h r c) : inStore s.cur.val plane r c := by
  obtain ⟨⟨-, hr⟩, -, hc⟩ := hin
  obtain ⟨hw, hh⟩ := hfit
  have width_le := planeW_le s plane
  have height_le := planeH_le s plane
  exact ⟨s.cur.isLt, hp, by omega, by omega⟩

/-- Settles O36: the vector has no half bits and no displacement, and the reference is the slot before the current one. -/
theorem mcZeroVectorCopies : Obligations.McZeroVectorCopies := by
  intro plane s hf hfr hplane hw hh hvalid hfit ha2
  have dx : (0 : Int) = (s.a2.extractLsb' 0 16).toInt := by rw [ha2]; rfl
  have dy : (0 : Int) = (s.a2.extractLsb' 16 16).toInt := by rw [ha2]; rfl
  obtain ⟨t, run, -, hpix⟩ := mcResult 1#4 plane s 0 0 s.blockX s.blockY 0 0 _ _ hf hfr (by decide) (by decide) hplane hw hh rfl
    hvalid hfit dx dy rfl rfl (Int.add_zero _).symm (Int.add_zero _).symm hfit.1 hfit.2 rfl
  refine ⟨t, run, fun r c hin => BitVec.eq_of_toNat_eq ?_⟩
  have copied := (hpix _ _ r c (inStore_of_fits (plane_lt hplane) hfit hin)).1 ⟨rfl, rfl, hin⟩
  obtain ⟨⟨hr, -⟩, hc, -⟩ := hin
  rw [Nat.add_sub_cancel' hr, Nat.add_sub_cancel' hc] at copied
  exact copied

/-- Settles O38: the slot bit of the old current slot is set, then that of the new one cleared. -/
theorem rotateResult : Obligations.RotateResult := by
  refine fun s hf => ⟨fun hfr => ?rotated, fun hfr => ?fault⟩
  case rotated =>
    refine ⟨{ s with cur := nextSlot s.cur, valid := (s.valid ||| slotBit s.cur.val) &&& ~~~(slotBit (nextSlot s.cur).val) }, ?_, rfl,
      rfl, fun slot hslot => getLsbD_rotated s.valid s.cur hslot⟩
    rw [exec, execRotate, perform_of_clear hf, if_neg (by simp [hfr])]
  case fault =>
    rw [exec, execRotate, perform_of_clear hf, if_pos hfr, raise_of_clear hf]
    rfl

end Sys2Proof.Machine

/-! PROOFS. The audio decoders (46_apu_adpcm.md): what `ADEC` checks, what becomes of a decoded payload and of a bad one, the range of
IMA-ADPCM, and the output of the three codecs (R301 to R316). -/

namespace Sys2Proof.Machine

/-! The command (R301). -/

/-- `ADEC` with a codec the unit implements and a channel at least is that codec on the payload (R301, R303). -/
theorem exec_adec {s : State} (hf : s.faulted = false) {codec : BitVec 4} {chan : BitVec 8} (hcodec : codec ∈ [0#4, 1#4, 2#4])
    (hchan : chan ≠ 0#8) :
    exec (.adec codec chan) s =
      .next (finishAudio (decodeCodec Config.ima Config.dsp codec s.payload chan.toNat) s.afterPayload) := by
  rw [exec, execAdec, perform_of_clear hf, adecBody]
  fin_cases hcodec <;> rw [if_neg (by decide), if_neg (by decide), if_neg hchan]

/-- A channel count that is not 0 is a number of channels above 0. -/
theorem chan_pos {chan : BitVec 8} (hchan : chan ≠ 0#8) : 0 < chan.toNat :=
  Nat.pos_of_ne_zero fun h => hchan (BitVec.eq_of_toNat_eq h)

/-- Settles O44: the three checks are the first branches of the command's body. -/
theorem adecSelection : Obligations.AdecSelection := by
  refine fun codec chan s hf => ⟨fun hcodec => ?unsupported, ?lattice, fun hcodec => ?channels⟩
  case unsupported =>
    have unlisted : ¬ (codec = 0#4 ∨ codec = 1#4 ∨ codec = 2#4 ∨ codec = 4#4) := by simpa using hcodec
    rw [exec, execAdec, perform_of_clear hf, adecBody, if_pos unlisted, raise_of_clear hf]
    rfl
  case lattice =>
    rw [exec, execAdec, perform_of_clear hf, adecBody, if_neg (by decide), if_pos rfl, raise_of_clear hf]
    rfl
  case channels =>
    rw [exec, execAdec, perform_of_clear hf, adecBody, raise_of_clear hf, raise_of_clear hf, raise_of_clear hf]
    fin_cases hcodec <;> rfl

/-- A codec that decodes the payload appends its bytes and takes the payload (R301). -/
theorem finishAudio_ok (s : State) (pcm : List Byte) (count : Nat) :
    finishAudio (.ok (pcm, count)) s.afterPayload = { s with
      pos := s.len.setWidth 32
      out := s.out ++ pcm
      outcnt := s.outcnt + BitVec.ofNat 32 pcm.length
      ret0 := BitVec.ofNat 32 count } := rfl

/-- A truncated payload has `LEN` as info, for `POS` is `LEN` by then (R301, R331). -/
theorem fault_finishAudio_truncated {s : State} (hf : s.faulted = false) :
    (finishAudio (.error .truncatedStream) s.afterPayload).fault = faultWord .truncatedStream (s.len.toNat % 2 ^ 24 : Nat) := by
  have at_end : s.afterPayload.pos.toNat = s.len.toNat := BitVec.toNat_setWidth_of_le (by decide)
  rw [finishAudio, fault_raiseLate (s := s.afterPayload) hf, audioInfo, if_pos rfl, at_end]

/-- Bad audio data has no info (R331). -/
theorem fault_finishAudio_bad {s : State} (hf : s.faulted = false) :
    (finishAudio (.error .badAudioData) s.afterPayload).fault = faultWord .badAudioData 0 :=
  fault_raiseLate (s := s.afterPayload) hf _ _

/-- Settles O43: raw PCM16 is the identity. -/
theorem adecPcmResult : Obligations.AdecPcmResult := by
  intro chan s hf hchan
  rw [exec_adec hf (by decide) hchan]
  exact congrArg _ (finishAudio_ok s s.payload _)

/-! The output (R302). -/

/-- What bytes hold does not depend on samples they do not have (R302). -/
theorem holdsSamples_congr {pcm : List Byte} {chans count : Nat} {x y : Nat → Nat → Int} (h : holdsSamples pcm chans count x)
    (hxy : ∀ c < chans, ∀ i < count, x c i = y c i) : holdsSamples pcm chans count y := by
  refine ⟨h.1, fun i hi c hc => ?_⟩
  rw [← hxy c hc i hi]
  exact h.2 i hi c hc

/-- Decoded channels are output as many samples as channel 0 has (R302, R305, R312). -/
theorem decoded_ok {xs : List (List Int)} {chans count : Nat} {y : Nat → Nat → Int} (hlen : xs.length = chans)
    (hcount : (xs.getD 0 []).length = count) (hy : ∀ c < chans, ∀ i < count, (xs.getD c []).getD i 0 = y c i) :
    ∃ pcm, decoded (.ok xs) = .ok (pcm, count) ∧ holdsSamples pcm chans count y := by
  subst hlen hcount
  exact ⟨_, rfl, holdsSamples_congr (holdsSamples_interleave xs _) hy⟩

/-- Channels of equally many samples are output whole (R302, R305). -/
theorem decoded_rectangle {chans : Nat} (h : 0 < chans) (count : Nat) (y : Nat → Nat → Int) :
    ∃ pcm, decoded (.ok ((List.range chans).map fun c => (List.range count).map (y c))) = .ok (pcm, count) ∧
      holdsSamples pcm chans count y :=
  decoded_ok (by simp) (by simp [h]) fun c hc i hi => by simp [hc, hi]

/-! The range of IMA-ADPCM (R310). -/

/-- A channel's predictor is a 16-bit number and its step index one of the table's (R310). -/
def ImaChan.InRange (c : ImaChan) : Prop := (-32768 ≤ c.pred ∧ c.pred ≤ 32767) ∧ (0 ≤ c.idx ∧ c.idx ≤ 88)

/-- A nibble's update clamps both (R305). -/
theorem imaStep_inRange (k : ImaParams) (c : ImaChan) (nib : Nat) : (imaStep k c nib).InRange := by
  rw [ImaChan.InRange, imaStep, clamp16_eq, clamp_eq _ _ _ (by decide)]
  dsimp only
  omega

/-- So every sample of a run is in range, and the channel after it (R310). -/
theorem imaRun_inRange (k : ImaParams) (nibs : List Nat) : ∀ c : ImaChan, c.InRange →
    (∀ x ∈ (imaRun k c nibs).1, -32768 ≤ x ∧ x ≤ 32767) ∧ (imaRun k c nibs).2.InRange := by
  induction nibs with
  | nil => exact fun c hc => ⟨nofun, hc⟩
  | cons nib nibs ih =>
    intro c _
    have now := imaStep_inRange k c nib
    obtain ⟨samples, after⟩ := ih _ now
    exact ⟨List.forall_mem_cons.mpr ⟨now.1, samples⟩, after⟩

/-- A value of two bytes is a 16-bit number (R309). -/
theorem int16At_range (big : Bool) (bytes : List Byte) (i : Nat) : -32768 ≤ int16At big bytes i ∧ int16At big bytes i ≤ 32767 := by
  rw [← int16Of_eq, int16Of]
  split
  · exact ⟨BitVec.le_toInt _, BitVec.toInt_le⟩
  · exact ⟨BitVec.le_toInt _, BitVec.toInt_le⟩

/-- A header the decoder accepts is a good one, and starts the channel in range (R305). -/
theorem imaHeader_inRange {k : ImaParams} {bytes : List Byte} {c : Nat} {h : ImaChan} (hh : imaHeader k bytes c = .ok h) : h.InRange := by
  obtain ⟨truncated, bad, good⟩ := imaHeader_cases k bytes c
  by_cases hgood : imaHeaderGood k bytes c
  · obtain rfl : _ = h := Except.ok.inj ((good hgood).symm.trans hh)
    exact ⟨int16At_range .., hgood.2⟩
  · by_cases hlen : 4 * c + 4 ≤ bytes.length
    · exact absurd ((bad hlen hgood).symm.trans hh) nofun
    · exact absurd ((truncated (Nat.lt_of_not_le hlen)).symm.trans hh) nofun

/-- Settles O45: the header is in range, and each nibble's update stays there. -/
theorem imaRangeSafety : Obligations.ImaRangeSafety := by
  intro k payload c nibs h hh
  obtain ⟨samples, pred, idx⟩ := imaRun_inRange k nibs h (imaHeader_inRange hh)
  exact ⟨samples, length_imaRun k h nibs, pred, idx⟩

end Sys2Proof.Machine

/-! PROOFS. `ADEC` with the two ADPCM codecs (46_apu_adpcm.md sections 2 and 3): the samples of good payloads, and the fault of the first
channel whose header or part is bad (R305, R311, R312, R315, R316). -/

namespace Sys2Proof.Machine

/-- A list is its entries by number. -/
theorem range_map_getD {α : Type} (l : List α) (d : α) : ((List.range l.length).map fun i => l.getD i d) = l :=
  List.ext_getElem (by simp) fun i h1 h2 => by simp [h2]

/-! IMA-ADPCM (R305). -/

/-- What a good header starts its channel with (R305). -/
def imaStart (k : ImaParams) (bytes : List Byte) (h : Nat) : ImaChan :=
  ⟨int16At k.bigEndian bytes (4 * h), int16At k.bigEndian bytes (4 * h + 2)⟩

/-- Sample `i` of channel `c`: its predictor after the nibble (R305). -/
def imaSample (k : ImaParams) (bytes : List Byte) (chans c i : Nat) : Int :=
  (imaChanAt k (imaStart k bytes ((imaHeaderOrder k chans).getD c 0)) (imaNibble k bytes chans c) (i + 1)).pred

/-- As many headers as channels (R305). -/
theorem length_imaHeaderOrder (k : ImaParams) (chans : Nat) : (imaHeaderOrder k chans).length = chans := by
  rw [(imaHeaderOrder_perm k chans).length_eq, List.length_range]

/-- The header order is that of the channels' header numbers. -/
theorem imaHeaderOrder_eq_map (k : ImaParams) (chans : Nat) :
    ((List.range chans).map fun c => (imaHeaderOrder k chans).getD c 0) = imaHeaderOrder k chans := by
  have entries := range_map_getD (imaHeaderOrder k chans) 0
  rwa [length_imaHeaderOrder] at entries

section
variable {k : ImaParams} {bytes : List Byte} {chans : Nat}

/-- With good headers the channels are the subframes run from what the headers say (R305). -/
theorem imaChannels_of_good (hgood : ∀ c < chans, imaHeaderGood k bytes ((imaHeaderOrder k chans).getD c 0)) :
    imaChannels k bytes chans = imaLoop k bytes chans bytes.length (4 * chans)
      ((List.range chans).map fun c => imaStart k bytes ((imaHeaderOrder k chans).getD c 0)) := by
  have all_good : ∀ h ∈ imaHeaderOrder k chans, imaHeaderGood k bytes h := by
    rw [← imaHeaderOrder_eq_map]
    simpa using hgood
  have starts : ((List.range chans).map fun c => imaStart k bytes ((imaHeaderOrder k chans).getD c 0)) =
      (imaHeaderOrder k chans).map (imaStart k bytes) := by
    conv_rhs => rw [← imaHeaderOrder_eq_map, List.map_map]
    rfl
  rw [imaChannels, imaHeaders_good k bytes _ all_good, starts]
  rfl

/-- Whole subframes give each channel 256 samples a subframe (R305). -/
theorem imaChannels_of_whole {frames : Nat} (hchans : 0 < chans) (hlen : bytes.length = 4 * chans + 128 * chans * frames)
    (hgood : ∀ c < chans, imaHeaderGood k bytes ((imaHeaderOrder k chans).getD c 0)) :
    imaChannels k bytes chans = .ok ((List.range chans).map fun c => (List.range (256 * frames)).map (imaSample k bytes chans c)) := by
  have frames_le : frames ≤ bytes.length := by
    have : frames ≤ 128 * chans * frames := Nat.le_mul_of_pos_left _ (by omega)
    omega
  have loop := imaLoop_map k bytes chans chans (fun c => imaStart k bytes ((imaHeaderOrder k chans).getD c 0)) hchans bytes.length 0
    frames hlen frames_le
  simp only [Nat.mul_zero, Nat.add_zero, ← List.range_eq_range'] at loop
  exact (imaChannels_of_good hgood).trans loop

/-- A last subframe cut short is a truncated stream (R305). -/
theorem imaChannels_of_cut {frames rest : Nat} (h0 : 0 < rest) (h1 : rest < 128 * chans)
    (hlen : bytes.length = 4 * chans + 128 * chans * frames + rest)
    (hgood : ∀ c < chans, imaHeaderGood k bytes ((imaHeaderOrder k chans).getD c 0)) :
    imaChannels k bytes chans = .error .truncatedStream := by
  have frames_lt : frames < bytes.length := by
    have : frames ≤ 128 * chans * frames := Nat.le_mul_of_pos_left _ (by omega)
    omega
  rw [imaChannels_of_good hgood]
  exact imaLoop_cut k bytes chans rest h0 h1 _ _ frames _ hlen frames_lt

/-- The first header that is not good is the codec's fault (R305). -/
theorem imaChannels_of_fault {c : Nat} {f : FaultKind} (hc : c < chans)
    (hgood : ∀ d < c, imaHeaderGood k bytes ((imaHeaderOrder k chans).getD d 0))
    (hf : imaHeader k bytes ((imaHeaderOrder k chans).getD c 0) = .error f) : imaChannels k bytes chans = .error f := by
  have before : ∀ h ∈ (List.range c).map fun d => (imaHeaderOrder k chans).getD d 0, imaHeaderGood k bytes h := by simpa using hgood
  obtain ⟨later, split⟩ : ∃ later, List.range chans = List.range c ++ c :: later := by
    obtain ⟨n, rfl⟩ := Nat.exists_eq_add_of_lt hc
    exact ⟨_, by rw [Nat.add_assoc, List.range_add, List.range_succ_eq_map, List.map_cons, Nat.add_zero]⟩
  have order : imaHeaderOrder k chans = ((List.range c).map fun d => (imaHeaderOrder k chans).getD d 0) ++
      (imaHeaderOrder k chans).getD c 0 :: later.map fun d => (imaHeaderOrder k chans).getD d 0 := by
    conv_lhs => rw [← imaHeaderOrder_eq_map, split, List.map_append, List.map_cons]
  rw [imaChannels, order, imaHeaders_fault k bytes _ _ _ f before hf]

end

/-- `ADEC codec=1` on a clear machine, with a channel at least, is IMA-ADPCM of the payload (R301, R303). -/
theorem exec_adec_ima {s : State} (hf : s.faulted = false) {chan : BitVec 8} (hchan : chan ≠ 0#8) :
    exec (.adec 1#4 chan) s = .next (finishAudio (decoded (imaChannels Config.ima (imaArranged Config.ima s.payload chan.toNat) chan.toNat))
      s.afterPayload) :=
  exec_adec hf (by decide) hchan

/-- Settles O46: the headers are read in their order, then the subframes; what that gives is output or the command's fault. -/
theorem adecImaOutput : Obligations.AdecImaOutput := by
  rintro chan s bytes header hf hchan rfl rfl
  have chans_pos := chan_pos hchan
  obtain ⟨length, headers, subframes, single⟩ := imaArranged_spec Config.ima s.payload chan.toNat
  have run := exec_adec_ima hf hchan
  refine ⟨?order, length, headers, subframes, fun h => single (congrArg BitVec.toNat h), fun frames rest hlen hrest hgood =>
    ⟨?whole, fun hcut => ?cut⟩, fun c hc hgood => ⟨fun hshort => ?missing, fun hthere hbad => ?index⟩⟩
  case order =>
    rw [imaHeaderOrder_eq_map]
    exact imaHeaderOrder_perm ..
  case whole =>
    rintro rfl
    rw [imaChannels_of_whole chans_pos hlen hgood] at run
    obtain ⟨pcm, output, holds⟩ := decoded_rectangle chans_pos (256 * frames) (imaSample Config.ima _ chan.toNat)
    rw [output] at run
    exact ⟨_, _, pcm, run, holds, fun c hc => imaSamples_of_good _ (hgood c hc)⟩
  case cut =>
    rw [imaChannels_of_cut hcut hrest hlen hgood] at run
    exact ⟨_, run, fault_finishAudio_truncated hf⟩
  case missing =>
    rw [imaChannels_of_fault hc hgood ((imaHeader_cases _ _ _).1 hshort)] at run
    exact ⟨_, run, fault_finishAudio_truncated hf⟩
  case index =>
    rw [imaChannels_of_fault hc hgood ((imaHeader_cases _ _ _).2.1 hthere hbad)] at run
    exact ⟨_, run, fault_finishAudio_bad hf⟩

end Sys2Proof.Machine

/-! PROOFS. `ADEC` with DSP-ADPCM (46_apu_adpcm.md section 3): how many samples a part decodes to, the output of good parts, and the
fault of the first bad one (R311 to R316). -/

namespace Sys2Proof.Machine

/-- Settles O48: a part decodes to as many samples as R316 counts; the head that names pair 8 or more is inside the part. -/
theorem dspSampleCount : Obligations.DspSampleCount := by
  intro k part
  obtain ⟨truncated, bad, good⟩ := dspChannel_cases k part
  refine ⟨fun hlen hpairs => ⟨_, good ⟨hlen, hpairs⟩, ?_⟩, fun g b hb hpair => bad ?_ fun hgood => ?_, truncated⟩
  · rw [List.length_map, List.length_range', dspCount]
  · have inside := (List.getElem?_eq_some_iff.mp hb).1
    omega
  · exact absurd (hgood.2 g b hb) (Nat.not_lt.mpr hpair)

/-- The samples of a good part after the first 32 (R312). -/
def dspDecoded (k : DspParams) (part : List Byte) : List Int :=
  (List.range' 32 (dspCount part - 32)).map fun j => (dspHistory k part (j + 1)).1

/-- The sample that stands at place `j` of channel `c`, warm-up included: the formula's, or the one for a sample the part lacks (R312; log
entry 32). -/
def dspValue (k : DspParams) (payload : List Byte) (parts : List (List Byte)) (c j : Nat) : Int :=
  if j < dspCount (parts.getD c []) then (dspHistory k (parts.getD c []) (j + 1)).1 else k.missing payload c (j - 32)

/-- How many they are (R316). -/
theorem length_dspDecoded (k : DspParams) (part : List Byte) : (dspDecoded k part).length = dspCount part - 32 := by
  rw [dspDecoded, List.length_map, List.length_range']

/-- Which they are (R312). -/
theorem getD_dspDecoded (k : DspParams) {part : List Byte} {i : Nat} (hi : i < dspCount part - 32) :
    (dspDecoded k part).getD i 0 = (dspHistory k part (i + 32 + 1)).1 := by
  rw [List.getD_eq_getElem?_getD, dspDecoded, List.getElem?_map, List.getElem?_range' hi, Nat.one_mul, Nat.add_comm 32]
  rfl

/-- Channel 0 sets the count (R312). -/
theorem length_getD_zero_dspDecoded (k : DspParams) (parts : List (List Byte)) :
    ((parts.map (dspDecoded k)).getD 0 []).length = dspCount (parts.getD 0 []) - 32 := by
  cases parts with
  | nil => rfl
  | cons part parts => exact length_dspDecoded k part

section
variable {k : DspParams} {payload : List Byte} {parts : List (List Byte)} {c : Nat} {part : List Byte}

/-- The samples of a part follow the formula (R312). -/
theorem dspSamples_dspValue (h : parts[c]? = some part) : dspSamples k part (dspValue k payload parts c) := by
  have entry : parts.getD c [] = part := by rw [List.getD_eq_getElem?_getD, h, Option.getD_some]
  have own (j : Nat) (hj : j < dspCount part) : dspValue k payload parts c j = (dspHistory k part (j + 1)).1 := by
    rw [dspValue, entry, if_pos hj]
  intro i hi
  have formula := dspSamples_history k part i hi
  dsimp only at formula ⊢
  rw [own i hi, own (i - 1) (by omega), own (i - 2) (by omega)]
  exact formula

/-- What a levelled channel holds is the formula's samples from the 33rd on, and then what stands for those it lacks (R312). -/
theorem getD_levelled_dspDecoded (h : parts[c]? = some part) {i : Nat} (hi : i < dspCount (parts.getD 0 []) - 32) :
    ((levelled (k.missing payload) (parts.map (dspDecoded k))).getD c []).getD i 0 = dspValue k payload parts c (i + 32) := by
  have entry : parts.getD c [] = part := by rw [List.getD_eq_getElem?_getD, h, Option.getD_some]
  have channel : (parts.map (dspDecoded k))[c]? = some (dspDecoded k part) := by rw [List.getElem?_map, h, Option.map_some]
  rw [getD_levelled _ _ channel (by rwa [length_getD_zero_dspDecoded]), length_dspDecoded, dspValue, entry]
  by_cases own : i < dspCount part - 32
  · rw [if_pos own, if_pos (by omega), getD_dspDecoded k own]
  · rw [if_neg own, if_neg (by omega), Nat.add_sub_cancel]

/-- Good parts, as many as channels, decode to output that holds their samples (R302, R312). -/
theorem decodeDsp_of_good {chans : Nat} (hchans : 0 < chans) (hdiv : payload.length % chans = 0)
    (hgood : ∀ part ∈ dspParts k payload chans, dspPartGood part) :
    ∃ pcm, decodeDsp k payload chans = .ok (pcm, dspCount ((dspParts k payload chans).getD 0 []) - 32) ∧
      holdsSamples pcm chans (dspCount ((dspParts k payload chans).getD 0 []) - 32)
        fun c i => dspValue k payload (dspParts k payload chans) c (i + 32) := by
  have length := (dspParts_spec k payload hchans).1
  have channels : dspChannels k (dspParts k payload chans) = .ok ((dspParts k payload chans).map (dspDecoded k)) :=
    dspChannels_good hgood
  rw [decodeDsp, if_neg (not_not.mpr hdiv), channels]
  refine decoded_ok ?_ ?_ fun c hc i hi => ?_
  · rw [length_levelled, List.length_map, length]
  · rw [length_levelled_zero, length_getD_zero_dspDecoded]
  · exact getD_levelled_dspDecoded (List.getElem?_eq_getElem (by rwa [length])) hi

/-- The first bad part is the codec's fault (R312, R315). -/
theorem decodeDsp_of_fault {chans : Nat} {f : FaultKind} (hdiv : payload.length % chans = 0)
    (hpart : (dspParts k payload chans)[c]? = some part)
    (hgood : ∀ d < c, ∀ earlier : List Byte, (dspParts k payload chans)[d]? = some earlier → dspPartGood earlier)
    (hf : dspChannel k part = .error f) : decodeDsp k payload chans = .error f := by
  rw [decodeDsp, if_neg (not_not.mpr hdiv), dspChannels_fault hf hpart hgood]
  rfl

end

/-- Settles O47: the parts are decoded one after the other, levelled and interleaved; the first bad one is the command's fault. -/
theorem adecDspOutput : Obligations.AdecDspOutput := by
  rintro chan s parts hf hchan rfl
  have chans_pos := chan_pos hchan
  obtain ⟨length, bytes⟩ := dspParts_spec Config.dsp s.payload chans_pos
  have run := exec_adec_dsp hf hchan
  refine ⟨length, bytes, fun h => if_pos (congrArg BitVec.toNat h), fun hdiv => ?indivisible, fun hdiv hgood => ?good,
    fun hdiv c part hpart hgood => ⟨fun hshort => ?truncated, fun hlong hbad => ?bad⟩⟩
  case indivisible =>
    rw [decodeDsp, if_pos hdiv] at run
    exact ⟨_, run, fault_finishAudio_bad hf⟩
  case good =>
    obtain ⟨pcm, output, holds⟩ := decodeDsp_of_good chans_pos hdiv hgood
    rw [output] at run
    refine ⟨_, pcm, _, run, fun part h => ?_, holds, fun c part h => dspSamples_dspValue h⟩
    rw [List.getD_eq_getElem?_getD, h, Option.getD_some]
  case truncated =>
    rw [decodeDsp_of_fault hdiv hpart hgood ((dspChannel_cases _ part).1 hshort)] at run
    exact ⟨_, run, fault_finishAudio_truncated hf⟩
  case bad =>
    rw [decodeDsp_of_fault hdiv hpart hgood ((dspChannel_cases _ part).2.1 hlong hbad)] at run
    exact ⟨_, run, fault_finishAudio_bad hf⟩

end Sys2Proof.Machine
